-- ==== Sys2Proof/Word.lean ====
section
/-! DEFINITION. The widths of spec/00_scope.md R6 as types. All quantities are unsigned (R8). -/

namespace Sys2Proof

/-- A command word, a write operand, a word of read data (CMDW = 32). -/
abbrev Word := BitVec 32

/-- One byte of a byte stream. -/
abbrev Byte := BitVec 8

/-- A 12-bit operand field A or B of a command word (30_encoding.md R91). -/
abbrev Operand := BitVec 12

/-- An 8-bit opcode (30_encoding.md R91). -/
abbrev OpNumber := BitVec 8

/-- A 9-bit symbol number (SYMW = 9). -/
abbrev SymbolNumber := BitVec 9

/-- A frequency count (CNTW = 32). -/
abbrev FreqCount := BitVec 32

/-- A node weight (WW = 64). -/
abbrev Weight := BitVec 64

/-- A node index (IDXW = 10). -/
abbrev NodeIndex := BitVec 10

/-- A code length (LENW = 9). -/
abbrev CodeLength := BitVec 9

/-- A code's bit vector (MAXLEN = 256); bit i is the i-th path step. -/
abbrev CodeBits := BitVec 256

/-- An event counter (CTRW = 64). -/
abbrev Counter := BitVec 64

/-- An index of FREQ or CODE: a symbol number 0..256 (NSYM = 257). -/
abbrev TableIndex := Fin 257

end Sys2Proof
end

