-- ==== Sys2Proof/Syntax.lean ====
section
/-! DEFINITION. The commands of HUFCORE: one constructor per row of spec/opcode_table.json, and the closed enumeration of symbols. -/

namespace Sys2Proof

/-- The symbols, as the closed enumeration spec/30_encoding.md R100 recommends; their numbers on the ports are
`Symbol.number` (Machine/Operands.lean). -/
inductive Symbol where
  | byte (b : Byte)
  | endOfData
  | internal
deriving DecidableEq, Repr, Inhabited

/-- The thirteen commands of spec/30_encoding.md R93. A field A or B is the raw 12-bit operand of the word: an operand out
of range is still this command, refused with E_RANGE when it is executed (R93, R106). `ftw` carries the write operand
`cmd_wdata` that accompanies its word (R90); every other command ignores it (R91). -/
inductive Instr where
  | nop
  | clr
  | ftw (a : Operand) (wdata : Word)
  | ftr (a : Operand)
  | count
  | build
  | ndr (a b : Operand)
  | free
  | gen
  | ctr (a b : Operand)
  | enc
  | dec
  | csrr (a : Operand)
deriving DecidableEq, Repr

end Sys2Proof
end

