-- ==== Sys2Proof/Config.lean ====
section
/-! DEFINITION. What the spec fixes for the block as a whole (00_scope.md R6, 10_state.md R38), and the free values. -/

namespace Sys2Proof

/-- NIL, the node index that means "no node" (10_state.md R26). -/
def Config.nil : NodeIndex := 0x3FF#10

/-- The constant the ID register reads (10_state.md R38). -/
def Config.idValue : Word := 0x48554631#32

/-- FREE VALUES (log entry 7): what a field of NODE holds once its contents "become unspecified" (45_system.md R231,
41_tree_build.md R151, 70_reset_and_hazards.md R280). The first argument numbers the occasion, the second the entry. No
body: nothing in Lean can evaluate one or prove its value. -/
opaque Config.freeSym : Nat → Nat → Symbol
@[inherit_doc Config.freeSym] opaque Config.freeWeight : Nat → Nat → Weight
@[inherit_doc Config.freeSym] opaque Config.freeLeft : Nat → Nat → NodeIndex
@[inherit_doc Config.freeSym] opaque Config.freeRight : Nat → Nat → NodeIndex

/-- FREE VALUES (log entry 7): what a field of CODE holds once its contents "become unspecified" (45_system.md R231,
70_reset_and_hazards.md R280). -/
opaque Config.freeLen : Nat → Nat → CodeLength
@[inherit_doc Config.freeLen] opaque Config.freeBits : Nat → Nat → CodeBits

end Sys2Proof
end

