-- ==== Sys2Proof/WellFormed.lean ====
section
/-! DEFINITION. Which commands name operands inside the index spaces of the spec (30_encoding.md R93, 20_memory.md R60). -/

namespace Sys2Proof

/-- The operands lie in the index spaces and selector lists of the spec: symbols 0..256, nodes 0..512, NDR fields 0..4,
CTR chunks 0..8, registers 0..10 (30_encoding.md R93, R101, R102, R103). Every term of `Instr` is a command word that
decodes; one that is not well-formed is refused whenever it is executed, since its operand is out of range in every state. -/
def Instr.wellFormed : Instr → Bool
  | .nop | .clr | .count | .build | .free | .gen | .enc | .dec => true
  | .ftw a _ => decide (a.toNat ≤ 256)
  | .ftr a => decide (a.toNat ≤ 256)
  | .ndr a b => decide (a.toNat ≤ 512) && decide (b.toNat ≤ 4)
  | .ctr a b => decide (a.toNat ≤ 256) && decide (b.toNat ≤ 8)
  | .csrr a => decide (a.toNat ≤ 10)

end Sys2Proof
end

