-- ==== Sys2Proof/Decode.lean ====
section
/-! DEFINITION. Command words: decoding (spec/30_encoding.md R106), the opcode map (R93) and encoding (R94). -/

namespace Sys2Proof

/-- Why a word is not a command (30_encoding.md R97). -/
inductive Illegal where
  /-- OP is none of the thirteen of R93. -/
  | unknownOp (op : OpNumber)
  /-- A != 0 in a format that does not use A. -/
  | operandA
  /-- B != 0 in a format that does not use B. -/
  | operandB
deriving DecidableEq, Repr

/-- What the host puts on the command channel (30_encoding.md R90). -/
structure CommandWord where
  word  : Word
  wdata : Word
deriving DecidableEq, Repr

/-- OP = w[31:24] (30_encoding.md R91). -/
def opField (w : Word) : OpNumber := w.extractLsb' 24 8

/-- A = w[23:12] (30_encoding.md R91). -/
def aField (w : Word) : Operand := w.extractLsb' 12 12

/-- B = w[11:0] (30_encoding.md R91). -/
def bField (w : Word) : Operand := w.extractLsb' 0 12

/-- Formats A and AW: B must be 0 (30_encoding.md R92). -/
def formatA (w : Word) (i : Instr) : Except Illegal Instr :=
  if bField w = 0 then .ok i else .error .operandB

/-- Format Z: A and B must be 0 (30_encoding.md R92). -/
def formatZ (w : Word) (i : Instr) : Except Illegal Instr :=
  if aField w = 0 then formatA w i else .error .operandA

/-- Decoding, total on all 2^32 words (30_encoding.md R106). `d` is `cmd_wdata`. -/
def decode (w d : Word) : Except Illegal Instr :=
  match opField w with
  | 0x00#8 => formatZ w .nop
  | 0x01#8 => formatZ w .clr
  | 0x10#8 => formatA w (.ftw (aField w) d)
  | 0x11#8 => formatA w (.ftr (aField w))
  | 0x12#8 => formatZ w .count
  | 0x20#8 => formatZ w .build
  | 0x21#8 => .ok (.ndr (aField w) (bField w))
  | 0x22#8 => formatZ w .free
  | 0x30#8 => formatZ w .gen
  | 0x31#8 => .ok (.ctr (aField w) (bField w))
  | 0x40#8 => formatZ w .enc
  | 0x50#8 => formatZ w .dec
  | 0x60#8 => formatA w (.csrr (aField w))
  | op => .error (.unknownOp op)

/-- The assembled word `(OP << 24) | (A << 12) | B` (30_encoding.md R94). -/
def assemble (op : OpNumber) (a b : Operand) : Word :=
  (op.setWidth 32 <<< 24) ||| (a.setWidth 32 <<< 12) ||| b.setWidth 32

/-- The word and the write operand of a command; commands that ignore the write operand are given 0
(30_encoding.md R93, R94). -/
def encode : Instr → CommandWord
  | .nop => ⟨assemble 0x00 0 0, 0⟩
  | .clr => ⟨assemble 0x01 0 0, 0⟩
  | .ftw a d => ⟨assemble 0x10 a 0, d⟩
  | .ftr a => ⟨assemble 0x11 a 0, 0⟩
  | .count => ⟨assemble 0x12 0 0, 0⟩
  | .build => ⟨assemble 0x20 0 0, 0⟩
  | .ndr a b => ⟨assemble 0x21 a b, 0⟩
  | .free => ⟨assemble 0x22 0 0, 0⟩
  | .gen => ⟨assemble 0x30 0 0, 0⟩
  | .ctr a b => ⟨assemble 0x31 a b, 0⟩
  | .enc => ⟨assemble 0x40 0 0, 0⟩
  | .dec => ⟨assemble 0x50 0 0, 0⟩
  | .csrr a => ⟨assemble 0x60 a 0, 0⟩

/-- The mnemonic of a command (30_encoding.md R93). -/
def Instr.mnemonic : Instr → String
  | .nop => "NOP"
  | .clr => "CLR"
  | .ftw _ _ => "FTW"
  | .ftr _ => "FTR"
  | .count => "COUNT"
  | .build => "BUILD"
  | .ndr _ _ => "NDR"
  | .free => "FREE"
  | .gen => "GEN"
  | .ctr _ _ => "CTR"
  | .enc => "ENC"
  | .dec => "DEC"
  | .csrr _ => "CSRR"

/-- One row of the opcode map. -/
structure OpcodeRow where
  mnemonic  : String
  matchBits : Word
  maskBits  : Word
deriving DecidableEq, Repr

/-- The opcode map's match and mask columns (30_encoding.md R93). -/
def opcodeMap : List OpcodeRow :=
  [⟨"NOP", 0x00000000, 0xFFFFFFFF⟩, ⟨"CLR", 0x01000000, 0xFFFFFFFF⟩, ⟨"FTW", 0x10000000, 0xFF000FFF⟩,
   ⟨"FTR", 0x11000000, 0xFF000FFF⟩, ⟨"COUNT", 0x12000000, 0xFFFFFFFF⟩, ⟨"BUILD", 0x20000000, 0xFFFFFFFF⟩,
   ⟨"NDR", 0x21000000, 0xFF000000⟩, ⟨"FREE", 0x22000000, 0xFFFFFFFF⟩, ⟨"GEN", 0x30000000, 0xFFFFFFFF⟩,
   ⟨"CTR", 0x31000000, 0xFF000000⟩, ⟨"ENC", 0x40000000, 0xFFFFFFFF⟩, ⟨"DEC", 0x50000000, 0xFFFFFFFF⟩,
   ⟨"CSRR", 0x60000000, 0xFF000FFF⟩]

/-- The row's match: `(w & mask) == match` (30_encoding.md R93). -/
def OpcodeRow.matches (r : OpcodeRow) (w : Word) : Bool := w &&& r.maskBits == r.matchBits

/-- The command word whose bits the host of this package numbers `w`, with every bit from `nbits` up 0: a command word is
one indivisible 32-bit item (20_memory.md R63), bit 0 its least significant bit (00_scope.md R8). -/
def tableWord (nbits w : Nat) : Word := BitVec.ofNat 32 (w % 2 ^ nbits)

/-- The command the decoder reads from the table's word; the write operand, which the table gives no bits, is 0. -/
def decodeTableWord (nbits w : Nat) : Option Instr :=
  match decode (tableWord nbits w) 0 with
  | .ok i => some i
  | .error _ => none

end Sys2Proof
end

