-- ==== Sys2Proof/Machine/State.lean ====
section
/-! DEFINITION. The state of HUFCORE (spec/10_state.md) and of the host that drives its ports, as plain data. -/

namespace Sys2Proof.Machine

/-- Why the model stops. None of these is HUFCORE's own fault (those are `FaultKind`, and taking one is a next state): each
names something the spec proves cannot happen (10_state.md R27, 70_reset_and_hazards.md R292), and is raised only in states
that no run from reset reaches (log entry 9). -/
inductive Fault where
  /-- Raised by NDR, GEN and DEC: a node index that is NIL, or not below NODECNT, or not in the arena was followed. Safe. -/
  | noSuchNode
  /-- Raised by GEN: the walk went below depth 256 (42_code_table.md R170, R176). Safe. -/
  | walkTooDeep
  /-- Raised by BUILD: `PQ.pop()` on an empty queue (41_tree_build.md R143). Safe. -/
  | emptyQueue
deriving DecidableEq, Repr

/-- Why a command has no meaning in the model. -/
inductive Refusal where
  /-- Raised by `exec` for a command whose meaning is not written. Safe. No arm raises it now. -/
  | notModelled (mnemonic : String)
deriving DecidableEq, Repr

/-- One entry of the NODE arena (10_state.md R25). -/
structure Node where
  sym    : Symbol
  weight : Weight
  left   : NodeIndex
  right  : NodeIndex
deriving DecidableEq, Repr

/-- One entry of CODE (10_state.md R29). -/
structure Code where
  len  : CodeLength
  bits : CodeBits
deriving DecidableEq, Repr

/-- The four refusals (60_exceptions.md R251). -/
inductive RefusalKind where
  | illegal | faulted | seq | range
deriving DecidableEq, Repr

/-- The six faults of the block (60_exceptions.md R260). -/
inductive FaultKind where
  | io | table | trunc | nocode | corrupt | cntovf
deriving DecidableEq, Repr

/-- The three ways a command ends (60_exceptions.md R250); the 4-bit codes of R96 are `Completion.number`. -/
inductive Completion where
  | ok
  | refusal (r : RefusalKind)
  | fault (f : FaultKind)
deriving DecidableEq, Repr

/-- The response to one command (30_encoding.md R95). -/
structure Response where
  rc    : Completion
  rdata : Word
deriving DecidableEq, Repr

/-- The four streams (20_memory.md R60). -/
inductive Stream where
  | byteSource | byteSink | bitSource | bitSink
deriving DecidableEq, Repr

/-- The command and response ports (20_memory.md R76): no command in progress; a command in progress whose next transfer
on a stream never completes (R78); or a response the host has not taken. -/
inductive Port where
  | idle
  | waiting (on : Stream)
  | responding (r : Response)
deriving DecidableEq, Repr

/-- One answer of the byte source (20_memory.md R66). -/
inductive ByteAnswer where
  | byte (b : Byte)
  | eof
  | err
deriving DecidableEq, Repr

/-- One answer of the bit source (20_memory.md R68). -/
inductive BitAnswer where
  | bit (b : Bool)
  | eof
  | err
deriving DecidableEq, Repr

/-- One answer of a sink (20_memory.md R67, R69); `never` is a sink that does not become ready again (R78). -/
inductive SinkAnswer where
  | ok | err | never
deriving DecidableEq, Repr

/-- The answers a sink will give: `answers` oldest first, and `thereafter` to every later transfer (20_memory.md R77). -/
structure Sink where
  answers    : List SinkAnswer
  thereafter : SinkAnswer
deriving DecidableEq, Repr

/-- The failures a host tells apart: the document's four kinds, and the two outside them (60_exceptions.md R268). -/
inductive FailureKind where
  /-- E_IO. -/
  | ioFailure
  /-- E_TABLE. -/
  | malformedHeader
  /-- E_TRUNC or E_CORRUPT. -/
  | badBitstream
  /-- E_NOCODE. -/
  | codeMismatch
  /-- E_CNTOVF: an input too large for the hardware's counters. -/
  | inputTooLarge
  /-- A refusal: a programming error of the host. -/
  | hostError
deriving DecidableEq, Repr

/-- Why the host discards what the sinks received in an invocation. -/
inductive Cause where
  /-- A command of the invocation answered with a code that is not OK (45_system.md R234; 60_exceptions.md R268, R269). -/
  | failure (kind : FailureKind)
  /-- `rst` came while the block was busy (70_reset_and_hazards.md R288). -/
  | abandoned
  /-- The block is FAULTED although the invocation has taken no such answer (60_exceptions.md R265). -/
  | stillFaulted
deriving DecidableEq, Repr

/-- How an invocation ended: with what its sinks received, which the host keeps, or with that discarded and the cause
reported (45_system.md R234; 60_exceptions.md R265, R269). -/
inductive Invocation where
  | kept (bytes : List Byte) (bits : List Bool)
  | discarded (cause : Cause)
deriving DecidableEq, Repr

/-- One action of the host (70_reset_and_hazards.md R288). -/
inductive HostAct where
  /-- Offer a command word with its write operand (30_encoding.md R90). -/
  | send (word wdata : Word)
  /-- Take the response to the last command (20_memory.md R76). -/
  | take
  /-- Take the response, and where its code is not OK leave out the next `skip` actions: the host "stops issuing the rest"
  (30_encoding.md R105; 45_system.md R234). -/
  | takeOk (skip : Nat)
  /-- End an invocation: where a command of it failed, or `rst` abandoned one, report that and discard what the sinks
  received, else keep it (45_system.md R234; 60_exceptions.md R268, R269; 70_reset_and_hazards.md R288). -/
  | conclude
  /-- Pulse `rst` (70_reset_and_hazards.md R280). -/
  | reset
  /-- Reposition or arm a stream: what it answers from here on is the host's affair (20_memory.md R77). -/
  | byteSource (answers : List ByteAnswer)
  | bitSource (answers : List BitAnswer)
  | byteSink (sink : Sink)
  | bitSink (sink : Sink)
deriving DecidableEq, Repr

/-- The state. `freq` to `port` are the block's (10_state.md R20, R40); `byteSource` to `cause` are the host's, which the
spec calls parameters and outputs of a step (10_state.md R41, log entry 1); `draws` numbers the free values (log entry 7). -/
structure State where
  /-- FREQ (R23). -/
  freq       : Vector FreqCount 257
  /-- NODE (R25). -/
  node       : Vector Node 513
  /-- CODE (R29). -/
  code       : Vector Code 257
  /-- PQ (R30). -/
  pq         : List NodeIndex
  /-- LEAFCNT (R31). -/
  leafcnt    : BitVec 9
  /-- NODECNT (R31). -/
  nodecnt    : BitVec 10
  /-- ROOT (R31). -/
  root       : NodeIndex
  /-- CUR (R32). -/
  cur        : NodeIndex
  /-- BITCNT (R33). -/
  bitcnt     : Counter
  /-- BYTECNT (R34). -/
  bytecnt    : Counter
  /-- TREE_V (R22). -/
  treeV      : Bool
  /-- CODE_V (R22). -/
  codeV      : Bool
  /-- FAULT (R22). -/
  fault      : Bool
  /-- ERRCODE (R35). -/
  errcode    : BitVec 4
  /-- ERRINFO (R35). -/
  errinfo    : Word
  /-- The command and response ports (R40; 20_memory.md R76). -/
  port       : Port
  /-- What the byte source will answer, oldest first; nothing left means it never answers. -/
  byteSource : List ByteAnswer
  /-- What the bit source will answer, oldest first; nothing left means it never answers. -/
  bitSource  : List BitAnswer
  /-- What the byte sink will answer. -/
  byteSink   : Sink
  /-- What the bit sink will answer. -/
  bitSink    : Sink
  /-- The bytes the byte sink has accepted, oldest first. -/
  bytesOut   : List Byte
  /-- The bits the bit sink has accepted, oldest first. -/
  bitsOut    : List Bool
  /-- What the host will still do, oldest first. -/
  script     : List HostAct
  /-- The responses the host has taken, oldest first. -/
  responses  : List Response
  /-- How the host's invocations have ended, oldest first (45_system.md R234, R237). -/
  outcomes   : List Invocation
  /-- How many of the accepted bytes belong to invocations that have ended. -/
  bytesEnded : Nat
  /-- How many of the accepted bits belong to invocations that have ended. -/
  bitsEnded  : Nat
  /-- The first cause in the present invocation to discard what the sinks received, if there is one (60_exceptions.md R269;
  70_reset_and_hazards.md R288). -/
  cause      : Option Cause
  /-- How many times NODE or CODE contents have become unspecified. -/
  draws      : Nat
deriving DecidableEq, Repr

/-- What NODE entries hold at the model's initial state (DESIGN CHOICE, log entry 5: the spec gives no value). -/
def Node.atReset : Node := ⟨.internal, 0, Config.nil, Config.nil⟩

/-- What CODE entries hold at the model's initial state (DESIGN CHOICE, log entry 6: the spec gives no value). -/
def Code.atReset : Code := ⟨0, 0⟩

/-- The machine right after reset (10_state.md R40), with a host that has nothing to do yet (log entry 14). -/
def State.reset : State where
  freq       := Vector.replicate 257 0
  node       := Vector.replicate 513 Node.atReset
  code       := Vector.replicate 257 Code.atReset
  pq         := []
  leafcnt    := 0
  nodecnt    := 0
  root       := Config.nil
  cur        := Config.nil
  bitcnt     := 0
  bytecnt    := 0
  treeV      := false
  codeV      := false
  fault      := false
  errcode    := 0
  errinfo    := 0
  port       := .idle
  byteSource := []
  bitSource  := []
  byteSink   := ⟨[], .ok⟩
  bitSink    := ⟨[], .ok⟩
  bytesOut   := []
  bitsOut    := []
  script     := []
  responses  := []
  outcomes   := []
  bytesEnded := 0
  bitsEnded  := 0
  cause      := none
  draws      := 0

end Sys2Proof.Machine
end

