-- ==== Sys2Proof/Machine/Operands.lean ====
section
/-! DEFINITION. Operand forms and port encodings: symbol numbers, completion codes, selectors (spec/30_encoding.md). -/

namespace Sys2Proof

/-- The 9-bit number of a symbol (30_encoding.md R100). -/
def Symbol.number : Symbol → SymbolNumber
  | .byte b => b.setWidth 9
  | .endOfData => 256#9
  | .internal => 257#9

end Sys2Proof

namespace Sys2Proof.Machine

/-- The 4-bit completion code of a fault (30_encoding.md R96). -/
def FaultKind.number : FaultKind → BitVec 4
  | .io => 8#4
  | .table => 9#4
  | .trunc => 10#4
  | .nocode => 11#4
  | .corrupt => 12#4
  | .cntovf => 13#4

/-- The 4-bit completion code of a refusal (30_encoding.md R96). -/
def RefusalKind.number : RefusalKind → BitVec 4
  | .illegal => 1#4
  | .faulted => 2#4
  | .seq => 3#4
  | .range => 4#4

/-- `rsp_rc` (30_encoding.md R96; 20_memory.md R75). -/
def Completion.number : Completion → BitVec 4
  | .ok => 0#4
  | .refusal r => r.number
  | .fault f => f.number

/-- The kind of failure a host reports for a completion code (60_exceptions.md R268). -/
def failureKind : Completion → Option FailureKind
  | .ok => none
  | .refusal _ => some .hostError
  | .fault .io => some .ioFailure
  | .fault .table => some .malformedHeader
  | .fault .trunc => some .badBitstream
  | .fault .corrupt => some .badBitstream
  | .fault .nocode => some .codeMismatch
  | .fault .cntovf => some .inputTooLarge

/-- The number ERRINFO holds for the stream that answered Err (60_exceptions.md R261). -/
def Stream.number : Stream → Word
  | .byteSource => 0
  | .byteSink => 1
  | .bitSource => 2
  | .bitSink => 3

/-- The index of FREQ and CODE of a byte value (10_state.md R23, R29). -/
def byteIndex (b : Byte) : TableIndex := ⟨b.toNat, Nat.lt_trans b.isLt (by decide)⟩

/-- The index of FREQ and CODE of END_OF_DATA, 256 (10_state.md R23, R29). -/
def eodIndex : TableIndex := ⟨256, by decide⟩

/-- The symbol an index of FREQ and CODE stands for; INTERNAL is none (10_state.md R23, 30_encoding.md R100). -/
def symbolAt (i : TableIndex) : Symbol :=
  if i.val = 256 then .endOfData else .byte (BitVec.ofNat 8 i.val)

/-- The symbol operand of FTW, FTR and CTR: 0..256, anything else is out of range (60_exceptions.md R256). -/
def symbolOperand (a : Operand) : Option TableIndex :=
  if h : a.toNat < 257 then some ⟨a.toNat, h⟩ else none

/-- The fields NDR reads (30_encoding.md R101). -/
inductive NdrField where
  | sym | wlo | whi | left | right
deriving DecidableEq, Repr

/-- The field selector of NDR: 0..4, anything else is out of range (30_encoding.md R101). -/
def ndrField (b : Operand) : Option NdrField :=
  match b.toNat with
  | 0 => some .sym
  | 1 => some .wlo
  | 2 => some .whi
  | 3 => some .left
  | 4 => some .right
  | _ => none

/-- The data NDR returns for a field of a node (30_encoding.md R101). -/
def nodeField (n : Node) : NdrField → Word
  | .sym => n.sym.number.setWidth 32
  | .wlo => n.weight.extractLsb' 0 32
  | .whi => n.weight.extractLsb' 32 32
  | .left => n.left.setWidth 32
  | .right => n.right.setWidth 32

/-- What CTR reads: a 32-bit chunk of the bit vector, or the length (30_encoding.md R102). -/
inductive CtrField where
  | chunk (k : Fin 8)
  | len
deriving DecidableEq, Repr

/-- The chunk selector of CTR: 0..8, anything else is out of range (30_encoding.md R102). -/
def ctrField (b : Operand) : Option CtrField :=
  if h : b.toNat < 8 then some (.chunk ⟨b.toNat, h⟩)
  else if b.toNat = 8 then some .len
  else none

/-- The data CTR returns for a chunk of a code: chunk k is bits[32k+31:32k] (30_encoding.md R102). -/
def codeField (c : Code) : CtrField → Word
  | .chunk k => c.bits.extractLsb' (32 * k.val) 32
  | .len => c.len.setWidth 32

/-- The control and status registers (10_state.md R36). -/
inductive Csr where
  | id | status | errinfo | leafcnt | nodecnt | root | cur | bitcntLo | bitcntHi | bytecntLo | bytecntHi
deriving DecidableEq, Repr

/-- The register operand of CSRR: 0..10, anything else is out of range (30_encoding.md R103). -/
def csrOperand (a : Operand) : Option Csr :=
  match a.toNat with
  | 0 => some .id
  | 1 => some .status
  | 2 => some .errinfo
  | 3 => some .leafcnt
  | 4 => some .nodecnt
  | 5 => some .root
  | 6 => some .cur
  | 7 => some .bitcntLo
  | 8 => some .bitcntHi
  | 9 => some .bytecntLo
  | 10 => some .bytecntHi
  | _ => none

/-- The bits a code emits, in path order: bits[0], ..., bits[len-1] (10_state.md R29, 43_encoder.md R193). -/
def codeString (c : Code) : List Bool := (List.range c.len.toNat).map c.bits.getLsbD

/-- A byte-source transfer read from its signals: err before end before data (20_memory.md R75). -/
def byteAnswerOfSignals (data : Byte) (endFlag errFlag : Bool) : ByteAnswer :=
  if errFlag then .err else if endFlag then .eof else .byte data

/-- A bit-source transfer read from its signals: err before end before data (20_memory.md R75). -/
def bitAnswerOfSignals (data endFlag errFlag : Bool) : BitAnswer :=
  if errFlag then .err else if endFlag then .eof else .bit data

/-- A sink transfer read from its error signal (20_memory.md R75). -/
def sinkAnswerOfSignal (errFlag : Bool) : SinkAnswer :=
  if errFlag then .err else .ok

end Sys2Proof.Machine
end

