-- ==== Sys2Proof/Machine/Flags.lean ====
section
/-! DEFINITION. The three flags, the STATUS word and the phases they define (spec/10_state.md R22, R37, R39), the output pins
(20_memory.md R75), and the admission checks they take part in (60_exceptions.md R251 to R257). -/

namespace Sys2Proof.Machine

/-- STATUS: ERRCODE in bits 7:4, FAULT in bit 2, CODE_V in bit 1, TREE_V in bit 0, every other bit 0 (10_state.md R37). -/
def statusWord (s : State) : Word :=
  (s.errcode.setWidth 32 <<< 4) ||| ((BitVec.ofBool s.fault).setWidth 32 <<< 2) |||
    ((BitVec.ofBool s.codeV).setWidth 32 <<< 1) ||| (BitVec.ofBool s.treeV).setWidth 32

/-- The phases (10_state.md R39). -/
inductive Phase where
  | table | tree | both | map | faulted
deriving DecidableEq, Repr

/-- The phase the flags define (10_state.md R39). -/
def phase (s : State) : Phase :=
  if s.fault then .faulted
  else match s.treeV, s.codeV with
    | false, false => .table
    | true, false => .tree
    | true, true => .both
    | false, true => .map

/-- The output `busy`: high from the transfer of a command until the transfer of its response (20_memory.md R75). -/
def busyPin (s : State) : Bool := s.port != .idle

/-- The output `fault`: equal to the FAULT flag (20_memory.md R75). -/
def faultPin (s : State) : Bool := s.fault

/-- The commands refused while FAULT = 1 (60_exceptions.md R254). -/
def faultChecked : Instr → Bool
  | .nop | .clr | .ftr _ | .ndr _ _ | .ctr _ _ | .csrr _ => false
  | .ftw _ _ | .count | .build | .free | .gen | .enc | .dec => true

/-- The phase admission table: what a command needs of TREE_V and CODE_V (60_exceptions.md R255). -/
def phaseAdmits (i : Instr) (s : State) : Bool :=
  match i with
  | .nop | .clr | .ftr _ | .csrr _ => true
  | .ftw _ _ | .count | .build => !s.treeV && !s.codeV
  | .ndr _ _ | .free | .dec => s.treeV
  | .gen => s.treeV && !s.codeV
  | .ctr _ _ | .enc => s.codeV

/-- The operand ranges (60_exceptions.md R256). -/
def rangeAdmits (i : Instr) (s : State) : Bool :=
  match i with
  | .nop | .clr | .count | .build | .free | .gen | .enc | .dec => true
  | .ftw a _ | .ftr a => (symbolOperand a).isSome
  | .ndr a b => decide (a.toNat < s.nodecnt.toNat) && (ndrField b).isSome
  | .ctr a b => (symbolOperand a).isSome && (ctrField b).isSome
  | .csrr a => (csrOperand a).isSome

/-- The admission checks of a legal word in their order: E_FAULTED, E_SEQ, E_RANGE; the first that fails decides
(60_exceptions.md R257). `none` is an admitted command. -/
def admission (i : Instr) (s : State) : Option RefusalKind :=
  if faultChecked i && s.fault then some .faulted
  else if !phaseAdmits i s then some .seq
  else if !rangeAdmits i s then some .range
  else none

end Sys2Proof.Machine
end

