-- ==== Sys2Proof/Machine/Ops.lean ====
section
/-! DEFINITION. The named operations over the arrays, the queue, the counters, the streams and the ports; taking a fault and
the return from one. -/

namespace Sys2Proof.Machine

/-- What `exec` answers. -/
abbrev Result := Host.Outcome State Fault Refusal

/-! ### Responses, refusals, faults -/

/-- `return (OK, rdata)` (00_scope.md R9, 30_encoding.md R95). -/
def respond (rdata : Word) (s : State) : State :=
  { s with port := .responding ⟨.ok, rdata⟩ }

/-- `refuse E`: the response (rc, 0) and nothing else (60_exceptions.md R252). -/
def refuse (r : RefusalKind) (s : State) : State :=
  { s with port := .responding ⟨.refusal r, 0⟩ }

/-- `raise F(info)`: ERRCODE, ERRINFO, FAULT, and the response (rc of F, 0); everything else stays as the command's
pseudocode left it (60_exceptions.md R262). -/
def raise (f : FaultKind) (info : Word) (s : State) : State :=
  { s with errcode := f.number, errinfo := info, fault := true, port := .responding ⟨.fault f, 0⟩ }

/-- A transfer on a stream that never completes: the command in progress waits for ever (20_memory.md R78). -/
def waitFor (on : Stream) (s : State) : State :=
  { s with port := .waiting on }

/-- A command runs its pseudocode `run` if every admission check passes; otherwise it is refused (60_exceptions.md R257). -/
def admitted (i : Instr) (s : State) (run : State → Result) : Result :=
  match admission i s with
  | some r => .next (refuse r s)
  | none => run s

/-! ### FREQ and CODE -/

/-- `FREQ[i]` (10_state.md R23). -/
def readFreq (i : TableIndex) (s : State) : FreqCount := s.freq[i]

/-- `FREQ[i] <- c` (10_state.md R23). -/
def writeFreq (i : TableIndex) (c : FreqCount) (s : State) : State :=
  { s with freq := s.freq.set i c }

/-- `for s in 0..256: FREQ[s] <- 0` (40_freq_table.md R122, 45_system.md R231). -/
def clearFreq (s : State) : State :=
  { s with freq := Vector.replicate 257 0 }

/-- The index of a count that is an entry: one that is not zero (10_state.md R23). -/
def entryIndex (p : FreqCount × Nat) : Option TableIndex :=
  if h : p.2 < 257 then (if p.1 = 0 then none else some ⟨p.2, h⟩) else none

/-- The symbols that have an entry, in ascending order: `for s in 0..256: if FREQ[s] != 0` (10_state.md R23;
41_tree_build.md R140, R141). -/
def entries (s : State) : List TableIndex := s.freq.toList.zipIdx.filterMap entryIndex

/-- `CODE[i]` (10_state.md R29). -/
def readCode (i : TableIndex) (s : State) : Code := s.code[i]

/-- `CODE[i] <- c` (10_state.md R29). -/
def writeCode (i : TableIndex) (c : Code) (s : State) : State :=
  { s with code := s.code.set i c }

/-- `for s in 0..256: CODE[s] <- { len = 0, bits = 0 }` (42_code_table.md R170). -/
def clearCode (s : State) : State :=
  { s with code := Vector.replicate 257 ⟨0, 0⟩ }

/-! ### NODE -/

/-- The arena entry of an index, whether the tree uses it or not; none outside 0..512 (10_state.md R25, R26). -/
def arenaNode (n : Nat) (s : State) : Option Node := s.node[n]?

/-- `NODE[n] <- e` (10_state.md R25). -/
def writeNode (n : Nat) (e : Node) (s : State) : State :=
  { s with node := s.node.setIfInBounds n e }

/-- A node of the tree: only entries below NODECNT are meaningful (10_state.md R25); NIL and every index outside the arena
is none (R26). -/
def treeNode (n : NodeIndex) (s : State) : Option Node :=
  if n.toNat < s.nodecnt.toNat then arenaNode n.toNat s else none

/-- `IsLeaf`, the test "a node whose symbol ≠ INTERNAL" (10_state.md R28). -/
def Node.isLeaf (e : Node) : Bool := e.sym != .internal

/-! ### PQ -/

/-- The weight PQ orders a member by (41_tree_build.md R143); a member is always in the arena. -/
def queueWeight (n : NodeIndex) (s : State) : Weight :=
  match arenaNode n.toNat s with
  | some e => e.weight
  | none => 0

/-- `n1 before n2`: lower weight first, among equal weights lower index first, both unsigned (41_tree_build.md R143). -/
def before (n1 n2 : NodeIndex) (s : State) : Bool :=
  decide (queueWeight n1 s < queueWeight n2 s) || (queueWeight n1 s == queueWeight n2 s && decide (n1 < n2))

/-- `PQ.insert(n)` (41_tree_build.md R142). -/
def pqInsert (n : NodeIndex) (s : State) : State :=
  { s with pq := s.pq ++ [n] }

/-- The member that is least in the order `before`; none of an empty set (41_tree_build.md R143). -/
def pqLeast (s : State) : List NodeIndex → Option NodeIndex
  | [] => none
  | n :: ns =>
    match pqLeast s ns with
    | none => some n
    | some m => some (if before n m s then n else m)

/-- `PQ.pop()`: the least member, and the state without it (41_tree_build.md R143). -/
def pqPop (s : State) : Option (NodeIndex × State) :=
  match pqLeast s s.pq with
  | none => none
  | some n => some (n, { s with pq := s.pq.erase n })

/-! ### Releasing, and the return from a fault -/

/-- NODE once its contents are unspecified: free values (41_tree_build.md R151; log entry 7). -/
@[irreducible] def unspecifiedNodes (draw : Nat) : Vector Node 513 :=
  Vector.ofFn fun i => ⟨Config.freeSym draw i, Config.freeWeight draw i, Config.freeLeft draw i, Config.freeRight draw i⟩

/-- CODE once its contents are unspecified: free values (45_system.md R231; log entry 7). -/
@[irreducible] def unspecifiedCodes (draw : Nat) : Vector Code 257 :=
  Vector.ofFn fun i => ⟨Config.freeLen draw i, Config.freeBits draw i⟩

/-- The release of the tree alone (41_tree_build.md R151). -/
def releaseTree (s : State) : State :=
  { s with
    treeV := false, leafcnt := 0, nodecnt := 0, root := Config.nil, cur := Config.nil
    node := unspecifiedNodes s.draws, draws := s.draws + 1 }

/-- The release of everything, which is also the return from a fault (45_system.md R231, 60_exceptions.md R263) and what
`rst` does to the block's registers (70_reset_and_hazards.md R280, R281). -/
def releaseAll (s : State) : State :=
  { s with
    freq := Vector.replicate 257 0, pq := []
    treeV := false, codeV := false, fault := false, errcode := 0, errinfo := 0
    leafcnt := 0, nodecnt := 0, root := Config.nil, cur := Config.nil, bitcnt := 0, bytecnt := 0
    node := unspecifiedNodes s.draws, code := unspecifiedCodes s.draws, draws := s.draws + 1 }

/-! ### Streams -/

/-- The state after a transfer on the byte source that leaves the answers `rest` (20_memory.md R66, R79). -/
def byteTaken (rest : List ByteAnswer) (s : State) : State :=
  { s with byteSource := rest }

/-- The state after a transfer on the bit source that leaves the answers `rest` (20_memory.md R68, R79). -/
def bitTaken (rest : List BitAnswer) (s : State) : State :=
  { s with bitSource := rest }

/-- The next answer of a sink, and the sink after it (20_memory.md R77). -/
def nextAnswer (k : Sink) : SinkAnswer × Sink :=
  match k.answers with
  | [] => (k.thereafter, k)
  | a :: rest => (a, { k with answers := rest })

/-- How a piece of a command's pseudocode ends: the command goes on in this state, or it has ended in it (by a response or
by waiting for ever). -/
inductive Flow where
  | goOn (s : State)
  | ended (s : State)
deriving Repr

/-- `ByteOut(b)` inside DEC: accepted, or `raise E_IO(1)`, or never answered (20_memory.md R67, 44_decoder.md R210). -/
def byteOut (b : Byte) (s : State) : Flow :=
  match nextAnswer s.byteSink with
  | (.ok, k) => .goOn { s with byteSink := k, bytesOut := s.bytesOut ++ [b] }
  | (.err, k) => .ended (raise .io Stream.byteSink.number { s with byteSink := k })
  | (.never, k) => .ended (waitFor .byteSink { s with byteSink := k })

/-- `BitOut(b)` inside ENC: accepted, or `raise E_IO(3)`, or never answered (20_memory.md R69, 43_encoder.md R190). -/
def bitOut (b : Bool) (s : State) : Flow :=
  match nextAnswer s.bitSink with
  | (.ok, k) => .goOn { s with bitSink := k, bitsOut := s.bitsOut ++ [b] }
  | (.err, k) => .ended (raise .io Stream.bitSink.number { s with bitSink := k })
  | (.never, k) => .ended (waitFor .bitSink { s with bitSink := k })

/-! ### Counters -/

/-- `BITCNT <- BITCNT + 1`, modulo 2^64 (10_state.md R33). -/
def bumpBitcnt (s : State) : State := { s with bitcnt := s.bitcnt + 1 }

/-- `BYTECNT <- BYTECNT + 1`, modulo 2^64 (10_state.md R34). -/
def bumpBytecnt (s : State) : State := { s with bytecnt := s.bytecnt + 1 }

end Sys2Proof.Machine
end

