-- ==== Sys2Proof/Machine/CodeTable.lean ====
section
/-! DEFINITION. The commands of the code-table generator: GEN, CTR (spec/42_code_table.md). -/

namespace Sys2Proof.Machine

/-- The code of a leaf reached by `path` at `depth`; a root that is a leaf gets the one bit "0" (R171, R172). -/
def leafCode (path : CodeBits) (depth : Nat) : Code :=
  if depth = 0 then ⟨1, 0⟩ else ⟨BitVec.ofNat 9 depth, path⟩

/-- `Walk(n, path, depth)`, left subtree before right (R171). The first argument is how many levels are left before the
walk is deeper than 256 (R170, R176). -/
def walk : Nat → NodeIndex → CodeBits → Nat → State → Except Fault State
  | 0, _, _, _, _ => .error .walkTooDeep
  | levels + 1, n, path, depth, s =>
    match treeNode n s with
    | none => .error .noSuchNode
    | some e =>
      match e.sym with
      | .byte b => .ok (writeCode (byteIndex b) (leafCode path depth) s)
      | .endOfData => .ok (writeCode eodIndex (leafCode path depth) s)
      | .internal =>
        match walk levels e.left path (depth + 1) s with
        | .error f => .error f
        | .ok s' => walk levels e.right (path ||| (1#256 <<< depth)) (depth + 1) s'

/-- GEN: derive the code table from the tree (R170). Levels 0..256 are 257. -/
def execGen (s : State) : Result :=
  admitted .gen s fun s =>
    match walk 257 s.root 0 0 (clearCode s) with
    | .error f => .fault f
    | .ok s' => .next (respond 0 { s' with codeV := true })

/-- CTR: read the code table (R174). -/
def execCtr (a b : Operand) (s : State) : Result :=
  admitted (.ctr a b) s fun s =>
    match symbolOperand a, ctrField b with
    | some i, some f => .next (respond (codeField (readCode i s) f) s)
    | _, _ => .next (refuse .range s)

end Sys2Proof.Machine
end

