-- ==== Sys2Proof/Machine/Decoder.lean ====
section
/-! DEFINITION. The command of the decoder: DEC (spec/44_decoder.md). -/

namespace Sys2Proof.Machine

/-- What `Child(n, b)` answers (R211): a node, none, or (never in a built tree) no node `n` to start from. -/
inductive Descent where
  | to (n : NodeIndex)
  | noChild
  | noNode
deriving DecidableEq, Repr

/-- `Child(n, b)`: left on bit 0, right on bit 1; on a leaf, which is then the root of a one-leaf tree, the leaf itself on
bit 0 and none on bit 1 (R211, R215). -/
def child (n : NodeIndex) (b : Bool) (s : State) : Descent :=
  match treeNode n s with
  | none => .noNode
  | some e =>
    if e.isLeaf then (if b then .noChild else .to n)
    else .to (if b then e.right else e.left)

/-- The loop of DEC, one `BitIn()` an iteration, over the answers of the bit source; the leaf test comes only after a
descent (R210, R212). -/
def decLoop : List BitAnswer → State → Result
  | [], s => .next (waitFor .bitSource s)
  | .err :: rest, s => .next (raise .io Stream.bitSource.number (bitTaken rest s))
  | .eof :: rest, s => .next (raise .trunc 0 (bitTaken rest s))
  | .bit b :: rest, s =>
    let s1 := bumpBitcnt (bitTaken rest s)
    match child s1.cur b s1 with
    | .noNode => .fault .noSuchNode
    | .noChild => .next (raise .corrupt 0 s1)
    | .to c =>
      let s2 := { s1 with cur := c }
      match treeNode c s2 with
      | none => .fault .noSuchNode
      | some e =>
        match e.sym with
        | .internal => decLoop rest s2
        | .endOfData => .next (respond 0 s2)
        | .byte v =>
          match byteOut v s2 with
          | .ended s3 => .next s3
          | .goOn s3 => decLoop rest { bumpBytecnt s3 with cur := s3.root }

/-- DEC: decode the bit source into the byte sink (R210). -/
def execDec (s : State) : Result :=
  admitted .dec s fun s => decLoop s.bitSource { s with bitcnt := 0, bytecnt := 0, cur := s.root }

end Sys2Proof.Machine
end

