-- ==== Sys2Proof/Machine/Encoder.lean ====
section
/-! DEFINITION. The command of the encoder: ENC (spec/43_encoder.md). -/

namespace Sys2Proof.Machine

/-- The bits of one code, each offered to the bit sink and counted when accepted (R190, R193). -/
def emitBits : List Bool → State → Flow
  | [], s => .goOn s
  | b :: bs, s =>
    match bitOut b s with
    | .ended s' => .ended s'
    | .goOn s' => emitBits bs (bumpBitcnt s')

/-- `Emit(s)`: no code is the fault E_NOCODE before any bit (R190, R191). -/
def emit (i : TableIndex) (s : State) : Flow :=
  if (readCode i s).len = 0 then .ended (raise .nocode (BitVec.ofNat 32 i.val) s)
  else emitBits (codeString (readCode i s)) s

/-- The loop of ENC, one `ByteIn()` an iteration, over the answers of the byte source (R190, R192). -/
def encLoop : List ByteAnswer → State → State
  | [], s => waitFor .byteSource s
  | .err :: rest, s => raise .io Stream.byteSource.number (byteTaken rest s)
  | .eof :: rest, s =>
    match emit eodIndex (byteTaken rest s) with
    | .ended s' => s'
    | .goOn s' => respond 0 s'
  | .byte b :: rest, s =>
    match emit (byteIndex b) (byteTaken rest s) with
    | .ended s' => s'
    | .goOn s' => encLoop rest (bumpBytecnt s')

/-- ENC: encode the byte source into the bit sink (R190). -/
def execEnc (s : State) : Result :=
  admitted .enc s fun s => .next (encLoop s.byteSource { s with bitcnt := 0, bytecnt := 0 })

end Sys2Proof.Machine
end

