-- ==== Sys2Proof/Machine/FreqTable.lean ====
section
/-! DEFINITION. The commands of the frequency-table unit: FTW, FTR, COUNT (spec/40_freq_table.md). -/

namespace Sys2Proof.Machine

/-- FTW: `FREQ[s] <- c` (R120). -/
def execFtw (a : Operand) (wdata : Word) (s : State) : Result :=
  admitted (.ftw a wdata) s fun s =>
    match symbolOperand a with
    | some i => .next (respond 0 (writeFreq i wdata s))
    | none => .next (refuse .range s)

/-- FTR: `return (OK, FREQ[s])` (R121). -/
def execFtr (a : Operand) (s : State) : Result :=
  admitted (.ftr a) s fun s =>
    match symbolOperand a with
    | some i => .next (respond (readFreq i s) s)
    | none => .next (refuse .range s)

/-- The loop of COUNT, one `ByteIn()` an iteration, over the answers of the byte source (R122). -/
def countLoop : List ByteAnswer → State → State
  | [], s => waitFor .byteSource s
  | .err :: rest, s => raise .io Stream.byteSource.number (clearFreq (byteTaken rest s))
  | .eof :: rest, s => respond 0 (writeFreq eodIndex 1 (byteTaken rest s))
  | .byte b :: rest, s =>
    if readFreq (byteIndex b) s = 0xFFFFFFFF then
      raise .cntovf (b.setWidth 32) (clearFreq (byteTaken rest s))
    else
      countLoop rest (bumpBytecnt (writeFreq (byteIndex b) (readFreq (byteIndex b) s + 1) (byteTaken rest s)))

/-- COUNT: build the table from the byte source (R122). -/
def execCount (s : State) : Result :=
  admitted .count s fun s => .next (countLoop s.byteSource { clearFreq s with bytecnt := 0 })

end Sys2Proof.Machine
end

