-- ==== Sys2Proof/Machine/System.lean ====
section
/-! DEFINITION. The commands of the sequencer: NOP, CLR, CSRR (spec/45_system.md). -/

namespace Sys2Proof.Machine

/-- NOP: `return (OK, 0)` (R230). -/
def execNop (s : State) : Result :=
  admitted .nop s fun s => .next (respond 0 s)

/-- CLR: release everything and clear the fault (R231). -/
def execClr (s : State) : Result :=
  admitted .clr s fun s => .next (respond 0 (releaseAll s))

/-- What a control or status register reads (10_state.md R36; R232). -/
def readCsr (r : Csr) (s : State) : Word :=
  match r with
  | .id => Config.idValue
  | .status => statusWord s
  | .errinfo => s.errinfo
  | .leafcnt => s.leafcnt.setWidth 32
  | .nodecnt => s.nodecnt.setWidth 32
  | .root => s.root.setWidth 32
  | .cur => s.cur.setWidth 32
  | .bitcntLo => s.bitcnt.extractLsb' 0 32
  | .bitcntHi => s.bitcnt.extractLsb' 32 32
  | .bytecntLo => s.bytecnt.extractLsb' 0 32
  | .bytecntHi => s.bytecnt.extractLsb' 32 32

/-- CSRR: read a control or status register (R232). -/
def execCsrr (a : Operand) (s : State) : Result :=
  admitted (.csrr a) s fun s =>
    match csrOperand a with
    | some r => .next (respond (readCsr r s) s)
    | none => .next (refuse .range s)

end Sys2Proof.Machine
end

