-- ==== Sys2Proof/Machine/TreeBuild.lean ====
section
/-! DEFINITION. The commands of the tree builder: BUILD, NDR, FREE (spec/41_tree_build.md). -/

namespace Sys2Proof.Machine

/-- The leaf of a table entry (R141). -/
def leafNode (i : TableIndex) (s : State) : Node :=
  ⟨symbolAt i, (readFreq i s).setWidth 64, Config.nil, Config.nil⟩

/-- Leaf allocation from arena index `n` on, in the order of the list (R141). -/
def allocLeaves : List TableIndex → Nat → State → State
  | [], _, s => s
  | i :: is, n, s => allocLeaves is (n + 1) (pqInsert (BitVec.ofNat 10 n) (writeNode n (leafNode i s) s))

/-- The internal node over the two nodes popped, first left and second right (R144). -/
def internalNode (a b : NodeIndex) (s : State) : Node :=
  ⟨.internal, queueWeight a s + queueWeight b s, a, b⟩

/-- One merge step, allocating arena index `n` (R144). -/
def mergeStep (n : Nat) (s : State) : Option State :=
  match pqPop s with
  | none => none
  | some (a, s1) =>
    match pqPop s1 with
    | none => none
    | some (b, s2) => some (pqInsert (BitVec.ofNat 10 n) (writeNode n (internalNode a b s2) s2))

/-- `k` merge steps from arena index `n` on (R144). -/
def mergeLoop : Nat → Nat → State → Option State
  | 0, _, s => some s
  | k + 1, n, s =>
    match mergeStep n s with
    | none => none
    | some s' => mergeLoop k (n + 1) s'

/-- BUILD once the table is valid: leaves, L - 1 merge steps ("the step runs exactly L − 1 times", R144), root (R145). -/
def buildTree (s : State) : Result :=
  let table := entries s
  let leaves := table.length
  let s1 := allocLeaves table 0 { s with pq := [] }
  match mergeLoop (leaves - 1) leaves { s1 with leafcnt := BitVec.ofNat 9 leaves } with
  | none => .fault .emptyQueue
  | some s2 =>
    match pqPop s2 with
    | none => .fault .emptyQueue
    | some (root, s3) =>
      .next (respond 0
        { s3 with root := root, nodecnt := BitVec.ofNat 10 (2 * leaves - 1), cur := Config.nil, treeV := true })

/-- BUILD: the input check (R140), then the tree (R146). -/
def execBuild (s : State) : Result :=
  admitted .build s fun s =>
    if entries s = [] then .next (raise .table 0 s)
    else if readFreq eodIndex s = 0 then .next (raise .table 1 s)
    else buildTree s

/-- NDR: read one field of one node of the tree (R150). -/
def execNdr (a b : Operand) (s : State) : Result :=
  admitted (.ndr a b) s fun s =>
    match ndrField b, treeNode (a.setWidth 10) s with
    | none, _ => .next (refuse .range s)
    | some _, none => .fault .noSuchNode
    | some f, some e => .next (respond (nodeField e f) s)

/-- FREE: release the tree and keep the map (R151). -/
def execFree (s : State) : Result :=
  admitted .free s fun s => .next (respond 0 (releaseTree s))

end Sys2Proof.Machine
end

