-- ==== Sys2Proof/Machine/Dispatch.lean ====
section
/-! DEFINITION. One arm per command, in the order of spec/opcode_table.json. -/

namespace Sys2Proof.Machine

def exec (i : Instr) (s : State) : Host.Outcome State Fault Refusal :=
  match i with
  | .nop => Sys2Proof.Machine.execNop s
  | .clr => Sys2Proof.Machine.execClr s
  | .ftw a wdata => Sys2Proof.Machine.execFtw a wdata s
  | .ftr a => Sys2Proof.Machine.execFtr a s
  | .count => Sys2Proof.Machine.execCount s
  | .build => Sys2Proof.Machine.execBuild s
  | .ndr a b => Sys2Proof.Machine.execNdr a b s
  | .free => Sys2Proof.Machine.execFree s
  | .gen => Sys2Proof.Machine.execGen s
  | .ctr a b => Sys2Proof.Machine.execCtr a b s
  | .enc => Sys2Proof.Machine.execEnc s
  | .dec => Sys2Proof.Machine.execDec s
  | .csrr a => Sys2Proof.Machine.execCsrr a s

end Sys2Proof.Machine
end

