-- ==== Sys2Proof/Machine/Port.lean ====
section
/-! DEFINITION. The command and response ports and the host that drives them (spec/20_memory.md R75 to R78,
70_reset_and_hazards.md R280 to R288). -/

namespace Sys2Proof.Machine

/-- What a step comes to: either it is over in this state, or it is the execution of a command from this state. -/
inductive Move where
  | settled (s : State)
  | run (i : Instr) (s : State)
deriving Repr

/-- `rst`: the command in progress is abandoned, a response not taken is dropped, the block takes its reset state; stream
items already moved stay moved (70_reset_and_hazards.md R280). A host that resets a busy block has to discard what the sinks
received (R288). -/
def pulseReset (s : State) : State :=
  { releaseAll s with port := .idle, cause := s.cause.or (if busyPin s then some .abandoned else none) }

/-- The transfer of a command word: an illegal word is refused from the word alone, before any other check
(60_exceptions.md R253; 30_encoding.md R106). -/
def acceptWord (w d : Word) (s : State) : Move :=
  match decode w d with
  | .error _ => .settled (refuse .illegal s)
  | .ok i => .run i s

/-- The transfer of the response `r`: the block is idle again (20_memory.md R76); the first answer of an invocation that is
not OK marks the invocation as failed (45_system.md R234; 60_exceptions.md R265). -/
def takeResponse (r : Response) (s : State) : State :=
  { s with
    port := .idle, responses := s.responses ++ [r], cause := s.cause.or ((failureKind r.rc).map .failure) }

/-- Why the invocation's output is to be discarded, if it is: what happened in the invocation, else the pin `fault`. A fault
is "never silently turned into success", whatever reads or CLR came after it (60_exceptions.md R265, R269). -/
def invocationCause (s : State) : Option Cause :=
  s.cause.or (if faultPin s then some .stillFaulted else none)

/-- How an invocation that ends here has ended (45_system.md R234; 60_exceptions.md R269). -/
def invocationOutcome (s : State) : Invocation :=
  match invocationCause s with
  | some c => .discarded c
  | none => .kept (s.bytesOut.drop s.bytesEnded) (s.bitsOut.drop s.bitsEnded)

/-- The host ends an invocation; what the sinks accept later belongs to the next one (45_system.md R234, R237). -/
def concludeInvocation (s : State) : State :=
  { s with
    outcomes := s.outcomes ++ [invocationOutcome s], bytesEnded := s.bytesOut.length, bitsEnded := s.bitsOut.length
    cause := none }

/-- One action of the host in one state of the port (20_memory.md R76, R78; 70_reset_and_hazards.md R283, R288). A command
offered while the block is busy is not taken until it is idle; a host that waits for a response the block does not owe
waits; nothing but `rst` moves a command whose stream never answers. An action that does not happen stays the next one. -/
def hostMove (s : State) : Move :=
  match s.script with
  | [] => .settled s
  | .reset :: rest => .settled (pulseReset { s with script := rest })
  | act :: rest =>
    match s.port, act with
    | .idle, .send w d => acceptWord w d { s with script := rest }
    | .responding r, .take => .settled (takeResponse r { s with script := rest })
    | .responding r, .takeOk skip =>
      .settled (takeResponse r { s with script := if r.rc = .ok then rest else rest.drop skip })
    | .idle, .conclude => .settled (concludeInvocation { s with script := rest })
    | .idle, .byteSource l => .settled { s with script := rest, byteSource := l }
    | .idle, .bitSource l => .settled { s with script := rest, bitSource := l }
    | .idle, .byteSink k => .settled { s with script := rest, byteSink := k }
    | .idle, .bitSink k => .settled { s with script := rest, bitSink := k }
    | _, _ => .settled s

/-- The index of the next command of a command program: 0 at the start, one more after each response (10_state.md R21). -/
def nextCommandIndex (s : State) : Nat := s.responses.length

/-- The run has ended: the host has nothing more to do and the last response has been delivered (45_system.md R236). -/
def runEnded (s : State) : Bool := s.script.isEmpty && s.port == .idle

end Sys2Proof.Machine
end

