-- ==== Sys2Proof/Machine/Step.lean ====
section
/-! DEFINITION. One step of the machine: the next action of the host, and where that is a command the block accepts, the
command's execution (spec/20_memory.md R76). -/

namespace Sys2Proof.Machine

/-- One step. -/
def step (s : State) : Host.Outcome State Fault Refusal :=
  match hostMove s with
  | .settled s' => .next s'
  | .run i s' => exec i s'

/-- `s` with the command word the host of this package numbers `w` offered next to an idle block; the write operand is 0
(log entry 13). -/
def State.withFetchWord (s : State) (nbits w : Nat) : State :=
  { s with port := .idle, script := .send (tableWord nbits w) 0 :: s.script }

end Sys2Proof.Machine
end

