-- ==== Sys2Proof/Safety.lean ====
section
/-! DEFINITION. The terms claims are stated in: the shape and the laws of a built tree (spec/10_state.md R27,
41_tree_build.md R147), paths and codes (42_code_table.md R173 to R178), the reset values (10_state.md R40), what a host's
streams must be for a command to complete, and the invariant of the machine. -/

namespace Sys2Proof.Machine

/-- The answer of a refused command: the response (rc, 0), nothing else changed (60_exceptions.md R252). -/
def refusedWith (r : RefusalKind) (s : State) : Result :=
  .next { s with port := .responding ⟨.refusal r, 0⟩ }

/-! ### Trees -/

/-- The indices that occur among the left and right fields of the internal nodes L..2L-2. -/
def childIndices (s : State) : List Nat :=
  (List.range' s.leafcnt.toNat (s.leafcnt.toNat - 1)).flatMap fun n =>
    match arenaNode n s with
    | some e => [e.left.toNat, e.right.toNat]
    | none => []

/-- The shape of a built tree (10_state.md R27). -/
structure TreeShape (s : State) : Prop where
  leaves_pos : 1 ≤ s.leafcnt.toNat
  leaves_le : s.leafcnt.toNat ≤ 257
  nodecnt_eq : s.nodecnt.toNat = 2 * s.leafcnt.toNat - 1
  root_eq : s.root.toNat = 2 * s.leafcnt.toNat - 2
  leaf_nodes : ∀ n, n < s.leafcnt.toNat →
    ∃ e, arenaNode n s = some e ∧ e.isLeaf = true ∧ e.left = Config.nil ∧ e.right = Config.nil
  leaves_ascending : ∀ m n, m < n → n < s.leafcnt.toNat → ∀ e f, arenaNode m s = some e → arenaNode n s = some f →
    e.sym.number < f.sym.number
  internal_nodes : ∀ n, s.leafcnt.toNat ≤ n → n < s.nodecnt.toNat →
    ∃ e, arenaNode n s = some e ∧ e.sym = .internal ∧ e.left.toNat < n ∧ e.right.toNat < n ∧ e.left ≠ e.right
  one_parent : ∀ k, k < s.root.toNat → (childIndices s).count k = 1

/-- The laws of BUILD's result, beside its shape: the table has the END_OF_DATA entry, (b) one leaf per entry with the
entry's count, (c) the weight of an internal node, (f) the weight of the root, (g) weights not decreasing in order of
creation, (h) the left child before the right (41_tree_build.md R140, R147), and no weight zero (R148). -/
structure TreeLaws (s : State) : Prop extends TreeShape s where
  table_valid : readFreq eodIndex s ≠ 0
  leaf_of_entry : ∀ i, readFreq i s ≠ 0 → ∃ n e, n < s.leafcnt.toNat ∧ arenaNode n s = some e ∧ e.sym = symbolAt i
  entry_of_leaf : ∀ n e, n < s.leafcnt.toNat → arenaNode n s = some e →
    ∃ i, e.sym = symbolAt i ∧ readFreq i s ≠ 0 ∧ e.weight.toNat = (readFreq i s).toNat
  weight_sum : ∀ n e l r, s.leafcnt.toNat ≤ n → n < s.nodecnt.toNat → arenaNode n s = some e →
    arenaNode e.left.toNat s = some l → arenaNode e.right.toNat s = some r →
    e.weight.toNat = l.weight.toNat + r.weight.toNat
  root_weight : ∀ e, arenaNode s.root.toNat s = some e → e.weight.toNat = (s.freq.toList.map BitVec.toNat).sum
  weights_ordered : ∀ m n e f, s.leafcnt.toNat ≤ m → m ≤ n → n < s.nodecnt.toNat → arenaNode m s = some e →
    arenaNode n s = some f → e.weight.toNat ≤ f.weight.toNat
  children_ordered : ∀ n e, s.leafcnt.toNat ≤ n → n < s.nodecnt.toNat → arenaNode n s = some e →
    before e.left e.right s = true
  weights_pos : ∀ n e, n < s.nodecnt.toNat → arenaNode n s = some e → 0 < e.weight.toNat

/-- Where a bit string leads from a node, left on 0 and right on 1, through internal nodes of the tree only; the last node
may be a leaf (44_decoder.md R211, 42_code_table.md R178). -/
def descend (s : State) : NodeIndex → List Bool → Option NodeIndex
  | n, [] => some n
  | n, b :: bs =>
    match treeNode n s with
    | none => none
    | some e => if e.isLeaf then none else descend s (if b then e.right else e.left) bs

/-! ### Codes -/

/-- Every code fits the table's entry: at most 256 steps, and 0 in every bit at or beyond its length (10_state.md R29). -/
def CodesPadded (s : State) : Prop :=
  ∀ i, (readCode i s).len.toNat ≤ 256 ∧ ∀ k, (readCode i s).len.toNat ≤ k → (readCode i s).bits.getLsbD k = false

/-- No code is a prefix of another (42_code_table.md R177). -/
def PrefixFree (s : State) : Prop :=
  ∀ i j, i ≠ j → (readCode i s).len ≠ 0 → (readCode j s).len ≠ 0 →
    ¬ codeString (readCode i s) <+: codeString (readCode j s)

/-- CODE is the map of the tree in NODE: each leaf's code is the path from ROOT to it (R178), a root leaf's is "0" (R172),
a symbol without a leaf has none (42_code_table.md R173). -/
structure MapOfTree (s : State) : Prop where
  padded : CodesPadded s
  path : 2 ≤ s.leafcnt.toNat → ∀ n e i, n < s.leafcnt.toNat → arenaNode n s = some e → e.sym = symbolAt i →
    descend s s.root (codeString (readCode i s)) = some (BitVec.ofNat 10 n)
  root_leaf : s.leafcnt.toNat = 1 → ∀ e i, arenaNode 0 s = some e → e.sym = symbolAt i → readCode i s = ⟨1, 0⟩
  no_leaf : ∀ i, (∀ n e, n < s.leafcnt.toNat → arenaNode n s = some e → e.sym ≠ symbolAt i) → readCode i s = ⟨0, 0⟩

/-- The symbols that have a code. -/
def codedSymbols (s : State) : List TableIndex :=
  (List.finRange 257).filter fun i => (readCode i s).len != 0

/-- The sum over all codes of 2^(-len), in units of 2^(-256) (42_code_table.md R178). -/
def kraftSum (s : State) : Nat :=
  ((codedSymbols s).map fun i => 2 ^ (256 - (readCode i s).len.toNat)).sum

/-- The concatenated codes of a byte sequence, without the terminator (43_encoder.md R190). -/
def encoded (s : State) (bs : List Byte) : List Bool :=
  bs.flatMap fun b => codeString (readCode (byteIndex b) s)

/-- The bits ENC emits for a byte sequence: the codes, then the code of END_OF_DATA once (43_encoder.md R190, R192). -/
def encodedWithEnd (s : State) (bs : List Byte) : List Bool :=
  encoded s bs ++ codeString (readCode eodIndex s)

/-! ### Tables and streams -/

/-- The table COUNT builds from a byte sequence (40_freq_table.md R122). -/
def histogram (bs : List Byte) : Vector FreqCount 257 :=
  Vector.ofFn fun i => if i.val = 256 then 1 else BitVec.ofNat 32 (bs.count (BitVec.ofNat 8 i.val))

/-- Every byte occurs at most 2^32 - 1 times, so that its count fits (40_freq_table.md R122). -/
def CountsFit (bs : List Byte) : Prop := ∀ b, bs.count b ≤ 4294967295

/-- What a sink answers to its transfer number `n`, from 0 (20_memory.md R77). -/
def sinkAnswer (k : Sink) (n : Nat) : SinkAnswer := k.answers[n]?.getD k.thereafter

/-- A sink that answers Ok to its next `n` transfers, whatever it answers later. -/
def SinkAccepts (k : Sink) (n : Nat) : Prop := ∀ m, m < n → sinkAnswer k m = .ok

/-- A sink after `n` transfers. -/
def sinkAfter (k : Sink) (n : Nat) : Sink := { k with answers := k.answers.drop n }

/-- A bit string that leads from ROOT to the leaf of a byte. -/
def SpellsByte (s : State) (bits : List Bool) (b : Byte) : Prop :=
  bits ≠ [] ∧ ∃ n e, descend s s.root bits = some n ∧ treeNode n s = some e ∧ e.sym = .byte b

/-- A bit string that leads from ROOT to a code boundary (the empty one) or into a code, to an internal node. -/
def Partway (s : State) (part : List Bool) (n : NodeIndex) : Prop :=
  descend s s.root part = some n ∧ (part = [] ∨ ∃ e, treeNode n s = some e ∧ e.sym = .internal)

/-- The symbol ENC emits for an item of its source: a byte's own, END_OF_DATA at End (43_encoder.md R190). -/
def Encodes (item : ByteAnswer) (i : TableIndex) : Prop :=
  (∃ b, item = .byte b ∧ i = byteIndex b) ∨ (item = .eof ∧ i = eodIndex)

/-! ### Reset and the invariant -/

/-- The block's registers are at the values of 10_state.md R40; NODE and CODE are unspecified there and unobservable. -/
structure AtReset (s : State) : Prop where
  freq : s.freq = Vector.replicate 257 0
  pq : s.pq = []
  leafcnt : s.leafcnt = 0
  nodecnt : s.nodecnt = 0
  root : s.root = 0x3FF#10
  cur : s.cur = 0x3FF#10
  bitcnt : s.bitcnt = 0
  bytecnt : s.bytecnt = 0
  treeV : s.treeV = false
  codeV : s.codeV = false
  fault : s.fault = false
  errcode : s.errcode = 0
  errinfo : s.errinfo = 0

/-- The host's side of the state is the same in both, but for the port, the script and the cause to discard. -/
structure SameHost (s t : State) : Prop where
  byteSource : t.byteSource = s.byteSource
  bitSource : t.bitSource = s.bitSource
  byteSink : t.byteSink = s.byteSink
  bitSink : t.bitSink = s.bitSink
  bytesOut : t.bytesOut = s.bytesOut
  bitsOut : t.bitsOut = s.bitsOut
  responses : t.responses = s.responses
  outcomes : t.outcomes = s.outcomes
  bytesEnded : t.bytesEnded = s.bytesEnded
  bitsEnded : t.bitsEnded = s.bitsEnded

/-- What holds of every reachable state: PQ is empty between commands (10_state.md R30); ERRCODE and ERRINFO are 0 without a
fault and hold a fault's code with one (R35); without a tree its registers are cleared (R31, R32), with one the tree has the
laws of BUILD (41_tree_build.md R147) and CUR is NIL or one of its nodes (70_reset_and_hazards.md R292); with a map, codes
are padded and prefix-free and exactly the entries of FREQ have one (42_code_table.md R173, R177); with both, the map is the
tree's (R178). -/
structure Inv (s : State) : Prop where
  queue_empty : s.pq = []
  no_fault : s.fault = false → s.errcode = 0 ∧ s.errinfo = 0
  fault_code : s.fault = true → 8 ≤ s.errcode.toNat ∧ s.errcode.toNat ≤ 13
  no_tree : s.treeV = false → s.leafcnt = 0 ∧ s.nodecnt = 0 ∧ s.root = Config.nil ∧ s.cur = Config.nil
  tree : s.treeV = true → TreeLaws s
  cursor : s.treeV = true → s.cur = Config.nil ∨ s.cur.toNat < s.nodecnt.toNat
  codes_padded : s.codeV = true → CodesPadded s
  codes_of_entries : s.codeV = true → ∀ i, (readCode i s).len ≠ 0 ↔ readFreq i s ≠ 0
  codes_prefix_free : s.codeV = true → PrefixFree s
  terminator : s.codeV = true → readFreq eodIndex s ≠ 0
  map_of_tree : s.treeV = true → s.codeV = true → MapOfTree s

end Sys2Proof.Machine
end

