-- ==== Sys2Proof/Certificates/Slice0/Obligations.lean ====
section
/-! DEFINITION. The statements about HUFCORE, each from the numbered rules of spec/ named in its docstring. A conclusion
`exec i s = .next { s with ... }` states the command's whole effect and its frame at once: every field not written there is
as in `s`, the host's side included. -/

open Sys2Proof Sys2Proof.Machine

/-! ### Command words -/

/-- 30_encoding.md R94: the spec's five example words, each decoded and assembled. -/
def Obligations.SpecExampleWords : Prop :=
  decode 0x10061000 4 = .ok (.ftw 97 4) ∧ encode (.ftw 97 4) = ⟨0x10061000, 4⟩ ∧
  decode 0x10100000 1 = .ok (.ftw 256 1) ∧ encode (.ftw 256 1) = ⟨0x10100000, 1⟩ ∧
  decode 0x21002003 0 = .ok (.ndr 2 3) ∧ encode (.ndr 2 3) = ⟨0x21002003, 0⟩ ∧
  decode 0x31100008 0 = .ok (.ctr 256 8) ∧ encode (.ctr 256 8) = ⟨0x31100008, 0⟩ ∧
  decode 0x60007000 0 = .ok (.csrr 7) ∧ encode (.csrr 7) = ⟨0x60007000, 0⟩

/-- 30_encoding.md R91, R94, R106: decoding the word of any command, with every operand value, gives that command back;
the write operand matters to FTW alone. -/
def Obligations.DecodeEncode : Prop :=
  ∀ i : Instr, decode (encode i).word (encode i).wdata = .ok i ∧
    ∀ d : Word, (∀ a c, i ≠ .ftw a c) → decode (encode i).word d = .ok i

/-- 30_encoding.md R94, R106: a word that decodes to a command is that command's word, and FTW carries the write operand
that came with it: no bit of a legal word is dropped. -/
def Obligations.EncodeDecode : Prop :=
  ∀ (w d : Word) (i : Instr), decode w d = .ok i → (encode i).word = w ∧ ∀ a c, i = .ftw a c → c = d

/-- 30_encoding.md R93, R97, R106: every 32-bit word matches exactly the row of the command it decodes to, or, when it is
illegal, no row at all. -/
def Obligations.WordMatchesItsRowOnly : Prop :=
  ∀ w d : Word, (opcodeMap.filter (·.matches w)).map (·.mnemonic) =
    match decode w d with
    | .ok i => [i.mnemonic]
    | .error _ => []

/-! ### Ports and steps -/

/-- 20_memory.md R76, 10_state.md R21: where an idle block is offered a word that decodes to a command, the step is the
execution of that command, in the state in which the host has made its offer. -/
def Obligations.StepRunsDecodedCommand : Prop :=
  ∀ (s : State) (w d : Word) (rest : List HostAct) (i : Instr),
    s.port = .idle → s.script = .send w d :: rest → decode w d = .ok i →
    step s = exec i { s with script := rest }

/-- 60_exceptions.md R253: an illegal word is E_ILLEGAL from the word alone, in every state, FAULT = 1 included, and
changes nothing else. -/
def Obligations.IllegalWordRefused : Prop :=
  ∀ (s : State) (w d : Word) (rest : List HostAct) (e : Illegal),
    s.port = .idle → s.script = .send w d :: rest → decode w d = .error e →
    step s = .next { s with script := rest, port := .responding ⟨.refusal .illegal, 0⟩ }

/-- 20_memory.md R76, 70_reset_and_hazards.md R283, R288, 30_encoding.md R105, 45_system.md R234, 60_exceptions.md R265,
R269: a response is delivered once, after which the block is idle; a command offered while the block is busy is not taken; a
host that stops at a response that is not OK leaves out the rest of its sequence. At the end of an invocation the host keeps
what the sinks received only where every response taken in it was OK, no `rst` met a busy block and the block is not
FAULTED; the first cause to discard it stays until then, whatever else happens. (How the host's stop and report are written
as actions is the model's choice, log entry 21.) -/
def Obligations.ResponseBeforeNextCommand : Prop :=
  (∀ (s : State) (r : Response) (rest : List HostAct), s.port = .responding r → s.script = .take :: rest →
    step s = .next
      { s with
        script := rest, port := .idle, responses := s.responses ++ [r]
        cause := s.cause.or ((failureKind r.rc).map .failure) }) ∧
  (∀ (s : State) (w d : Word) (rest : List HostAct), s.port ≠ .idle → s.script = .send w d :: rest →
    step s = .next s) ∧
  (∀ (s : State) (r : Response) (skip : Nat) (rest : List HostAct), s.port = .responding r →
    s.script = .takeOk skip :: rest →
    step s = .next
      { s with
        script := if r.rc = .ok then rest else rest.drop skip, port := .idle, responses := s.responses ++ [r]
        cause := s.cause.or ((failureKind r.rc).map .failure) }) ∧
  (∀ k : Completion, failureKind k = none ↔ k = .ok) ∧
  (∀ (s : State) (rest : List HostAct), s.port = .idle → s.script = .conclude :: rest →
    step s = .next
      { s with
        script := rest, bytesEnded := s.bytesOut.length, bitsEnded := s.bitsOut.length, cause := none
        outcomes := s.outcomes ++ [match s.cause, s.fault with
          | some c, _ => .discarded c
          | none, true => .discarded .stillFaulted
          | none, false => .kept (s.bytesOut.drop s.bytesEnded) (s.bitsOut.drop s.bitsEnded)] }) ∧
  (∀ (s t : State) (c : Cause), s.cause = some c → (∀ rest, s.script ≠ .conclude :: rest) → step s = .next t →
    t.cause = some c)

/-- 70_reset_and_hazards.md R280, R281, R288: `rst` in any state, a busy block included, gives the reset state and an idle
port with no response; stream items already moved stay moved, and where the block was busy the host has cause to discard
what the sinks received. -/
def Obligations.ResetPulse : Prop :=
  ∀ (s : State) (rest : List HostAct), s.script = .reset :: rest →
    ∃ t, step s = .next t ∧ AtReset t ∧ t.port = .idle ∧ t.script = rest ∧ SameHost s t ∧
      t.cause = (if s.port = .idle then s.cause else s.cause.or (some .abandoned))

/-- 20_memory.md R78: a command whose stream never answers waits for ever: nothing but `rst` moves the block. (The port
that waits is how the model writes that hang, log entry 3, DEDUCED; that a host which repositions a stream meanwhile
changes nothing is log entry 17, DEDUCED.) -/
def Obligations.NothingButResetEndsAHang : Prop :=
  ∀ (s : State) (on : Stream), s.port = .waiting on → (∀ rest, s.script ≠ .reset :: rest) → step s = .next s

/-- 20_memory.md R78: COUNT over a source that delivers bytes and then never answers ends in no response. (That a list
of answers which has run out is a source that never answers is the model's, log entry 3, DEDUCED: R78 itself says that a
model with finite lists has no such run.) -/
def Obligations.CountHangs : Prop :=
  ∀ (s : State) (bs : List Byte), s.fault = false → s.treeV = false → s.codeV = false →
    s.byteSource = bs.map ByteAnswer.byte → CountsFit bs →
    ∃ t, exec .count s = .next t ∧ (∀ b, (readFreq (byteIndex b) t).toNat = bs.count b) ∧ readFreq eodIndex t = 0 ∧
      t = { s with
            freq := t.freq, bytecnt := BitVec.ofNat 64 bs.length, byteSource := [], port := .waiting .byteSource }

/-- 20_memory.md R78: ENC and DEC over a source that stops answering, and into a sink that does not become ready, end in
no response, with the items given and counted so far. (That a list which has run out is a source that never answers, and
that a sink's answer may be `never`, is the model's, log entries 3 and 4, DEDUCED.) -/
def Obligations.EncAndDecHang : Prop :=
  (∀ (s : State) (bs : List Byte), s.fault = false → s.codeV = true → s.byteSource = bs.map ByteAnswer.byte →
    (∀ c ∈ bs, (readCode (byteIndex c) s).len ≠ 0) → SinkAccepts s.bitSink (encoded s bs).length →
    exec .enc s = .next
      { s with
        bitsOut := s.bitsOut ++ encoded s bs, bitcnt := BitVec.ofNat 64 (encoded s bs).length
        bytecnt := BitVec.ofNat 64 bs.length, byteSource := []
        bitSink := sinkAfter s.bitSink (encoded s bs).length, port := .waiting .byteSource }) ∧
  (∀ (s : State) (bs : List Byte) (item : ByteAnswer) (i : TableIndex) (rest : List ByteAnswer) (k : Nat),
    s.fault = false → s.codeV = true → s.byteSource = bs.map ByteAnswer.byte ++ item :: rest →
    (∀ c ∈ bs, (readCode (byteIndex c) s).len ≠ 0) → Encodes item i → k < (codeString (readCode i s)).length →
    SinkAccepts s.bitSink ((encoded s bs).length + k) →
    sinkAnswer s.bitSink ((encoded s bs).length + k) = .never →
    exec .enc s = .next
      { s with
        bitsOut := s.bitsOut ++ encoded s bs ++ (codeString (readCode i s)).take k
        bitcnt := BitVec.ofNat 64 ((encoded s bs).length + k), bytecnt := BitVec.ofNat 64 bs.length, byteSource := rest
        bitSink := sinkAfter s.bitSink ((encoded s bs).length + k + 1), port := .waiting .bitSink }) ∧
  (∀ (s : State) (words : List (List Bool × Byte)) (part : List Bool) (at_ : NodeIndex),
    s.fault = false → s.treeV = true → (∀ w ∈ words, SpellsByte s w.1 w.2) → Partway s part at_ →
    s.bitSource = ((words.flatMap (·.1)) ++ part).map BitAnswer.bit → SinkAccepts s.byteSink words.length →
    exec .dec s = .next
      { s with
        bytesOut := s.bytesOut ++ words.map (·.2), bytecnt := BitVec.ofNat 64 words.length
        bitcnt := BitVec.ofNat 64 ((words.flatMap (·.1)).length + part.length), cur := at_, bitSource := []
        byteSink := sinkAfter s.byteSink words.length, port := .waiting .bitSource }) ∧
  (∀ (s : State) (words : List (List Bool × Byte)) (last : List Bool) (leaf : NodeIndex) (e : Node) (b : Byte)
    (rest : List BitAnswer),
    s.fault = false → s.treeV = true → (∀ w ∈ words, SpellsByte s w.1 w.2) →
    last ≠ [] → descend s s.root last = some leaf → treeNode leaf s = some e → e.sym = .byte b →
    s.bitSource = ((words.flatMap (·.1)) ++ last).map BitAnswer.bit ++ rest →
    SinkAccepts s.byteSink words.length → sinkAnswer s.byteSink words.length = .never →
    exec .dec s = .next
      { s with
        bytesOut := s.bytesOut ++ words.map (·.2), bytecnt := BitVec.ofNat 64 words.length
        bitcnt := BitVec.ofNat 64 ((words.flatMap (·.1)).length + last.length), cur := leaf, bitSource := rest
        byteSink := sinkAfter s.byteSink (words.length + 1), port := .waiting .byteSink })

/-- 10_state.md R40: the values after reset, in the registers, through CSRR, and NODE and CODE not observable. (What NODE
and CODE hold and the host's side of the state are the model's choice, log entries 5, 6, 14, and not stated.) -/
def Obligations.ResetValues : Prop :=
  AtReset State.reset ∧ State.reset.port = .idle ∧
  (∀ a b, exec (.ndr a b) State.reset = refusedWith .seq State.reset) ∧
  (∀ a b, exec (.ctr a b) State.reset = refusedWith .seq State.reset) ∧
  exec (.csrr 0) State.reset = .next { State.reset with port := .responding ⟨.ok, 0x48554631⟩ } ∧
  exec (.csrr 1) State.reset = .next { State.reset with port := .responding ⟨.ok, 0⟩ } ∧
  exec (.csrr 5) State.reset = .next { State.reset with port := .responding ⟨.ok, 0x3FF⟩ } ∧
  exec (.csrr 6) State.reset = .next { State.reset with port := .responding ⟨.ok, 0x3FF⟩ }

/-- 20_memory.md R75: in one source transfer err comes before end and end before data; a sink transfer is Err or Ok. -/
def Obligations.SignalPriority : Prop :=
  (∀ (b : Byte) (e : Bool), byteAnswerOfSignals b e true = .err) ∧
  (∀ b : Byte, byteAnswerOfSignals b true false = .eof ∧ byteAnswerOfSignals b false false = .byte b) ∧
  (∀ b e : Bool, bitAnswerOfSignals b e true = .err) ∧
  (∀ b : Bool, bitAnswerOfSignals b true false = .eof ∧ bitAnswerOfSignals b false false = .bit b) ∧
  sinkAnswerOfSignal true = .err ∧ sinkAnswerOfSignal false = .ok

/-! ### Refusals -/

/-- 60_exceptions.md R254: while FAULT = 1 the seven state-changing commands other than CLR are E_FAULTED; the reads, NOP
and CLR never are, though NDR and CTR still need their validity flag. -/
def Obligations.FaultedRefusals : Prop :=
  (∀ s : State, s.fault = true →
    (∀ a c, exec (.ftw a c) s = refusedWith .faulted s) ∧ exec .count s = refusedWith .faulted s ∧
    exec .build s = refusedWith .faulted s ∧ exec .free s = refusedWith .faulted s ∧
    exec .gen s = refusedWith .faulted s ∧ exec .enc s = refusedWith .faulted s ∧
    exec .dec s = refusedWith .faulted s ∧
    (s.treeV = false → ∀ a b, exec (.ndr a b) s = refusedWith .seq s) ∧
    (s.codeV = false → ∀ a b, exec (.ctr a b) s = refusedWith .seq s)) ∧
  (∀ (s t : State) (i : Instr), (i = .nop ∨ i = .clr ∨ (∃ a, i = .ftr a) ∨ (∃ a b, i = .ndr a b) ∨
      (∃ a b, i = .ctr a b) ∨ (∃ a, i = .csrr a)) →
    exec i s = .next t → ∀ d, t.port ≠ .responding ⟨.refusal .faulted, d⟩)

/-- 60_exceptions.md R255: what each command needs of TREE_V and CODE_V; the commands not listed there are never E_SEQ.
The commands R254 names are E_FAULTED first. -/
def Obligations.PhaseRefusals : Prop :=
  (∀ s : State, s.fault = false → s.treeV = true ∨ s.codeV = true →
    (∀ a c, exec (.ftw a c) s = refusedWith .seq s) ∧ exec .count s = refusedWith .seq s ∧
    exec .build s = refusedWith .seq s) ∧
  (∀ s : State, s.treeV = false → ∀ a b, exec (.ndr a b) s = refusedWith .seq s) ∧
  (∀ s : State, s.fault = false → s.treeV = false →
    exec .free s = refusedWith .seq s ∧ exec .dec s = refusedWith .seq s) ∧
  (∀ s : State, s.fault = false → s.treeV = false ∨ s.codeV = true → exec .gen s = refusedWith .seq s) ∧
  (∀ s : State, s.codeV = false → ∀ a b, exec (.ctr a b) s = refusedWith .seq s) ∧
  (∀ s : State, s.fault = false → s.codeV = false → exec .enc s = refusedWith .seq s) ∧
  (∀ (s t : State) (i : Instr), (i = .nop ∨ i = .clr ∨ (∃ a, i = .ftr a) ∨ (∃ a, i = .csrr a)) →
    exec i s = .next t → ∀ d, t.port ≠ .responding ⟨.refusal .seq, d⟩)

/-- 60_exceptions.md R256, R257: an operand out of range is E_RANGE in every state in which no earlier check fails. -/
def Obligations.RangeRefusals : Prop :=
  (∀ (s : State) (a : Operand) (c : Word), s.fault = false → s.treeV = false → s.codeV = false → 256 < a.toNat →
    exec (.ftw a c) s = refusedWith .range s) ∧
  (∀ (s : State) (a : Operand), 256 < a.toNat → exec (.ftr a) s = refusedWith .range s) ∧
  (∀ (s : State) (a b : Operand), s.treeV = true → s.nodecnt.toNat ≤ a.toNat ∨ 4 < b.toNat →
    exec (.ndr a b) s = refusedWith .range s) ∧
  (∀ (s : State) (a b : Operand), s.codeV = true → 256 < a.toNat ∨ 8 < b.toNat →
    exec (.ctr a b) s = refusedWith .range s) ∧
  (∀ (s : State) (a : Operand), 10 < a.toNat → exec (.csrr a) s = refusedWith .range s)

/-- 60_exceptions.md R252: a command that answers with a refusal, an illegal word included, has changed nothing and
moved no stream item: as the execution of a command, and as the step in which an idle block is offered a word. -/
def Obligations.RefusalChangesNothing : Prop :=
  (∀ (i : Instr) (s t : State) (r : RefusalKind) (d : Word), exec i s = .next t →
    t.port = .responding ⟨.refusal r, d⟩ → d = 0 ∧ t = { s with port := t.port }) ∧
  (∀ (s t : State) (w d d' : Word) (rest : List HostAct) (r : RefusalKind), s.port = .idle →
    s.script = .send w d :: rest → step s = .next t → t.port = .responding ⟨.refusal r, d'⟩ →
    d' = 0 ∧ t = { s with script := rest, port := t.port })

/-- 60_exceptions.md R256, 30_encoding.md R93: a command with an operand outside its index space is refused in every state
in which NODECNT is a size the arena can have. (That the refusal of a term that is not well-formed needs no check of
`Instr.wellFormed` is the model's way of writing it, log entry 15.) -/
def Obligations.IllFormedAlwaysRefused : Prop :=
  ∀ (i : Instr) (s : State), i.wellFormed = false → s.nodecnt.toNat ≤ 513 → ∃ r, exec i s = refusedWith r s

/-! ### Sequencer -/

/-- 45_system.md R230: NOP answers (OK, 0) in every state and changes nothing. -/
def Obligations.NopEffect : Prop :=
  ∀ s : State, exec .nop s = .next { s with port := .responding ⟨.ok, 0⟩ }

/-- 45_system.md R231, 60_exceptions.md R263: CLR completes in every state, faulted ones included, and leaves the reset
state; the host's side is untouched. -/
def Obligations.ClrEffect : Prop :=
  ∀ s : State, ∃ t, exec .clr s = .next t ∧ AtReset t ∧ t.port = .responding ⟨.ok, 0⟩ ∧ SameHost s t ∧
    t.script = s.script ∧ t.cause = s.cause

/-- 45_system.md R232, 10_state.md R36: what CSRR of each of the eleven registers answers, in every state, changing
nothing. -/
def Obligations.CsrrEffect : Prop :=
  ∀ s : State,
    let answers := fun (a : Operand) (d : Word) => exec (.csrr a) s = .next { s with port := .responding ⟨.ok, d⟩ }
    answers 0 0x48554631 ∧
    answers 1 ((s.errcode.setWidth 32 <<< 4) ||| (if s.fault then 4 else 0) ||| (if s.codeV then 2 else 0) |||
      (if s.treeV then 1 else 0)) ∧
    answers 2 s.errinfo ∧ answers 3 (s.leafcnt.setWidth 32) ∧ answers 4 (s.nodecnt.setWidth 32) ∧
    answers 5 (s.root.setWidth 32) ∧ answers 6 (s.cur.setWidth 32) ∧
    answers 7 (s.bitcnt.extractLsb' 0 32) ∧ answers 8 (s.bitcnt.extractLsb' 32 32) ∧
    answers 9 (s.bytecnt.extractLsb' 0 32) ∧ answers 10 (s.bytecnt.extractLsb' 32 32)

/-- 10_state.md R37: STATUS bit by bit; bit 3 and bits 31:8 read 0. -/
def Obligations.StatusBits : Prop :=
  ∀ (s : State) (k : Nat), (statusWord s).getLsbD k =
    if k = 0 then s.treeV else if k = 1 then s.codeV else if k = 2 then s.fault
    else if 4 ≤ k ∧ k ≤ 7 then s.errcode.getLsbD (k - 4) else false

/-! ### Frequency table -/

/-- 40_freq_table.md R120: in phase TABLE, FTW of a symbol 0..256 writes that entry and nothing else, whatever the
count. -/
def Obligations.FtwEffect : Prop :=
  ∀ (s : State) (a : Operand) (c : Word) (h : a.toNat < 257), s.fault = false → s.treeV = false → s.codeV = false →
    exec (.ftw a c) s = .next { s with freq := s.freq.set a.toNat c h, port := .responding ⟨.ok, 0⟩ }

/-- 40_freq_table.md R121: FTR of a symbol 0..256 answers its count in every state, FAULTED included, and changes
nothing. -/
def Obligations.FtrEffect : Prop :=
  ∀ (s : State) (a : Operand) (h : a.toNat < 257),
    exec (.ftr a) s = .next { s with port := .responding ⟨.ok, s.freq[a.toNat]⟩ }

/-- 40_freq_table.md R122: COUNT of a source that ends, no byte too frequent, leaves the histogram with FREQ[256] = 1,
whatever the table held before. -/
def Obligations.CountEffect : Prop :=
  ∀ (s : State) (bs : List Byte) (rest : List ByteAnswer), s.fault = false → s.treeV = false → s.codeV = false →
    s.byteSource = bs.map ByteAnswer.byte ++ .eof :: rest → CountsFit bs →
    exec .count s = .next
      { s with
        freq := histogram bs, bytecnt := BitVec.ofNat 64 bs.length, byteSource := rest
        port := .responding ⟨.ok, 0⟩ }

/-- 40_freq_table.md R122: COUNT of a source that answers Err faults with E_IO(0), and the 2^32-th occurrence of a byte
faults with E_CNTOVF of that byte; either leaves no partial table, and BYTECNT at the bytes counted. -/
def Obligations.CountFaults : Prop :=
  (∀ (s : State) (bs : List Byte) (rest : List ByteAnswer), s.fault = false → s.treeV = false → s.codeV = false →
    s.byteSource = bs.map ByteAnswer.byte ++ .err :: rest → CountsFit bs →
    exec .count s = .next
      { s with
        freq := Vector.replicate 257 0, bytecnt := BitVec.ofNat 64 bs.length, byteSource := rest
        fault := true, errcode := 8, errinfo := 0, port := .responding ⟨.fault .io, 0⟩ }) ∧
  (∀ (s : State) (bs : List Byte) (b : Byte) (rest : List ByteAnswer), s.fault = false → s.treeV = false →
    s.codeV = false → s.byteSource = bs.map ByteAnswer.byte ++ .byte b :: rest → CountsFit bs →
    bs.count b = 4294967295 →
    exec .count s = .next
      { s with
        freq := Vector.replicate 257 0, bytecnt := BitVec.ofNat 64 bs.length, byteSource := rest
        fault := true, errcode := 13, errinfo := b.setWidth 32, port := .responding ⟨.fault .cntovf, 0⟩ })

/-! ### Tree builder -/

/-- 41_tree_build.md R140: BUILD of an empty table faults with E_TABLE(0), of a table without END_OF_DATA with E_TABLE(1);
nothing else changes. -/
def Obligations.BuildFaults : Prop :=
  (∀ s : State, s.fault = false → s.treeV = false → s.codeV = false → (∀ i : TableIndex, s.freq[i] = 0) →
    exec .build s = .next
      { s with fault := true, errcode := 9, errinfo := 0, port := .responding ⟨.fault .table, 0⟩ }) ∧
  (∀ (s : State) (i : TableIndex), s.fault = false → s.treeV = false → s.codeV = false → s.freq[i] ≠ 0 →
    s.freq[256] = 0 →
    exec .build s = .next
      { s with fault := true, errcode := 9, errinfo := 1, port := .responding ⟨.fault .table, 0⟩ })

/-- 41_tree_build.md R146, R147, R148: in phase TABLE, BUILD of a valid table completes with a tree that has the laws of
R147, and changes nothing but the tree's registers.
R147 marks (a), (b), (d), (e), (g), (h) as the spec's own inference: "[derived: from rules R141, R143, R144 and R145]". -/
def Obligations.BuildCompletesWithTreeLaws : Prop :=
  ∀ s : State, s.fault = false → s.treeV = false → s.codeV = false → s.freq[256] ≠ 0 →
    ∃ t, exec .build s = .next t ∧ TreeLaws t ∧
      t = { s with
            node := t.node, pq := [], leafcnt := t.leafcnt, nodecnt := t.nodecnt, root := t.root, cur := 0x3FF#10
            treeV := true, port := .responding ⟨.ok, 0⟩ }

/-- 41_tree_build.md R149: a table with the END_OF_DATA entry alone gives the one-leaf tree. -/
def Obligations.BuildOneEntry : Prop :=
  ∀ s : State, s.fault = false → s.treeV = false → s.codeV = false → s.freq[256] ≠ 0 →
    (∀ i : TableIndex, i.val ≠ 256 → s.freq[i] = 0) →
    ∃ t, exec .build s = .next t ∧ t.port = .responding ⟨.ok, 0⟩ ∧ t.root = 0 ∧ t.nodecnt = 1 ∧ t.leafcnt = 1 ∧
      arenaNode 0 t = some ⟨.endOfData, s.freq[256].setWidth 64, 0x3FF, 0x3FF⟩

/-- 41_tree_build.md R143: `PQ.pop()` removes and returns the member before which, by weight and then by index, no other
member comes. -/
def Obligations.PopTakesLeast : Prop :=
  (∀ (s t : State) (n : NodeIndex), pqPop s = some (n, t) →
    n ∈ s.pq ∧ t = { s with pq := s.pq.erase n } ∧
    ∀ m ∈ s.pq, m ≠ n →
      queueWeight n s < queueWeight m s ∨ (queueWeight n s = queueWeight m s ∧ n < m)) ∧
  (∀ s : State, s.pq ≠ [] → ∃ n t, pqPop s = some (n, t))

/-- 41_tree_build.md R152: the tree is a function of FREQ alone.
The spec's own inference: "[derived: from rules R141 and R143]". -/
def Obligations.BuildDependsOnTableAlone : Prop :=
  ∀ s1 s2 t1 t2 : State, s1.freq = s2.freq → exec .build s1 = .next t1 → exec .build s2 = .next t2 →
    t1.port = .responding ⟨.ok, 0⟩ → t2.port = .responding ⟨.ok, 0⟩ →
    t1.leafcnt = t2.leafcnt ∧ t1.nodecnt = t2.nodecnt ∧ t1.root = t2.root ∧
    ∀ n, n < t1.nodecnt.toNat → arenaNode n t1 = arenaNode n t2

/-- 41_tree_build.md R150: NDR of a node below NODECNT answers each of its five fields and changes nothing, FAULTED
included. -/
def Obligations.NdrEffect : Prop :=
  ∀ (s : State) (a : Operand) (h : a.toNat < 513), s.treeV = true → a.toNat < s.nodecnt.toNat →
    let answers := fun (b : Operand) (d : Word) => exec (.ndr a b) s = .next { s with port := .responding ⟨.ok, d⟩ }
    answers 0 (s.node[a.toNat].sym.number.setWidth 32) ∧
    answers 1 (s.node[a.toNat].weight.extractLsb' 0 32) ∧
    answers 2 (s.node[a.toNat].weight.extractLsb' 32 32) ∧
    answers 3 (s.node[a.toNat].left.setWidth 32) ∧
    answers 4 (s.node[a.toNat].right.setWidth 32)

/-- 41_tree_build.md R151, 42_code_table.md R175: FREE with a tree releases it and leaves FREQ, CODE, CODE_V and the
counters alone; what NODE holds afterwards is not stated. -/
def Obligations.FreeEffect : Prop :=
  ∀ s : State, s.fault = false → s.treeV = true →
    ∃ t, exec .free s = .next t ∧
      t = { s with
            treeV := false, leafcnt := 0, nodecnt := 0, root := 0x3FF#10, cur := 0x3FF#10, node := t.node
            draws := t.draws, port := .responding ⟨.ok, 0⟩ }

/-! ### Code table -/

/-- 42_code_table.md R170, R171, R172, R173, R178: GEN on a tree completes with the tree's map, and changes nothing but
CODE and CODE_V; as many symbols have a code as the tree has leaves. -/
def Obligations.GenCompletesWithMapOfTree : Prop :=
  ∀ s : State, s.fault = false → s.treeV = true → s.codeV = false → TreeShape s →
    ∃ t, exec .gen s = .next t ∧ MapOfTree t ∧ (codedSymbols t).length = s.leafcnt.toNat ∧
      t = { s with code := t.code, codeV := true, port := .responding ⟨.ok, 0⟩ }

/-- 42_code_table.md R177: after GEN no code is a prefix of another. -/
def Obligations.GenPrefixFree : Prop :=
  ∀ s t : State, TreeShape s → exec .gen s = .next t → t.port = .responding ⟨.ok, 0⟩ → PrefixFree t

/-- 42_code_table.md R178: the Kraft equality, 1 with two leaves or more and 1/2 with one.
The spec's own inference: "[derived: from 10_state.md rule R27]". -/
def Obligations.GenKraftEquality : Prop :=
  ∀ s t : State, TreeShape s → exec .gen s = .next t → t.port = .responding ⟨.ok, 0⟩ →
    kraftSum t = if s.leafcnt.toNat = 1 then 2 ^ 255 else 2 ^ 256

/-- 42_code_table.md R176: no code of a tree with L >= 2 leaves is longer than L - 1 bits.
The spec's own inference: "[derived: from 10_state.md rule R27]". -/
def Obligations.GenCodeLength : Prop :=
  ∀ (s t : State) (i : TableIndex), TreeShape s → 2 ≤ s.leafcnt.toNat → exec .gen s = .next t →
    t.port = .responding ⟨.ok, 0⟩ → (readCode i t).len.toNat ≤ s.leafcnt.toNat - 1

/-- 42_code_table.md R174: CTR of a symbol answers its length and each of its eight chunks and changes nothing, FAULTED
included; step i of the code is bit (i mod 32) of chunk (i div 32). -/
def Obligations.CtrEffect : Prop :=
  (∀ (s : State) (a : Operand) (h : a.toNat < 257), s.codeV = true →
    exec (.ctr a 8) s = .next { s with port := .responding ⟨.ok, s.code[a.toNat].len.setWidth 32⟩ } ∧
    ∀ b : Operand, b.toNat < 8 →
      exec (.ctr a b) s = .next
        { s with port := .responding ⟨.ok, s.code[a.toNat].bits.extractLsb' (32 * b.toNat) 32⟩ }) ∧
  (∀ (s t : State) (a b : Operand) (d : Word) (h : a.toNat < 257) (k : Nat), b.toNat < 8 → k < 32 →
    exec (.ctr a b) s = .next t → t.port = .responding ⟨.ok, d⟩ →
    d.getLsbD k = s.code[a.toNat].bits.getLsbD (32 * b.toNat + k))

/-! ### Encoder -/

/-- 43_encoder.md R190, R192, R193: with a map that codes every source byte, and a sink that accepts as many bits, ENC
emits the codes in order and then the code of END_OF_DATA once, and counts bits and bytes. -/
def Obligations.EncEffect : Prop :=
  ∀ (s : State) (bs : List Byte) (rest : List ByteAnswer), s.fault = false → s.codeV = true →
    s.byteSource = bs.map ByteAnswer.byte ++ .eof :: rest →
    (∀ b ∈ bs, (readCode (byteIndex b) s).len ≠ 0) → (readCode eodIndex s).len ≠ 0 →
    SinkAccepts s.bitSink (encodedWithEnd s bs).length →
    exec .enc s = .next
      { s with
        bitsOut := s.bitsOut ++ encodedWithEnd s bs, bitcnt := BitVec.ofNat 64 (encodedWithEnd s bs).length
        bytecnt := BitVec.ofNat 64 bs.length, byteSource := rest
        bitSink := sinkAfter s.bitSink (encodedWithEnd s bs).length, port := .responding ⟨.ok, 0⟩ }

/-- 43_encoder.md R191: a source byte without a code faults with E_NOCODE of that byte before any bit of it; a missing
code of END_OF_DATA with E_NOCODE(256). -/
def Obligations.EncNoCodeFault : Prop :=
  (∀ (s : State) (bs : List Byte) (b : Byte) (rest : List ByteAnswer), s.fault = false → s.codeV = true →
    s.byteSource = bs.map ByteAnswer.byte ++ .byte b :: rest →
    (∀ c ∈ bs, (readCode (byteIndex c) s).len ≠ 0) → (readCode (byteIndex b) s).len = 0 →
    SinkAccepts s.bitSink (encoded s bs).length →
    exec .enc s = .next
      { s with
        bitsOut := s.bitsOut ++ encoded s bs, bitcnt := BitVec.ofNat 64 (encoded s bs).length
        bytecnt := BitVec.ofNat 64 bs.length, byteSource := rest
        bitSink := sinkAfter s.bitSink (encoded s bs).length
        fault := true, errcode := 11, errinfo := b.setWidth 32, port := .responding ⟨.fault .nocode, 0⟩ }) ∧
  (∀ (s : State) (bs : List Byte) (rest : List ByteAnswer), s.fault = false → s.codeV = true →
    s.byteSource = bs.map ByteAnswer.byte ++ .eof :: rest →
    (∀ c ∈ bs, (readCode (byteIndex c) s).len ≠ 0) → (readCode eodIndex s).len = 0 →
    SinkAccepts s.bitSink (encoded s bs).length →
    exec .enc s = .next
      { s with
        bitsOut := s.bitsOut ++ encoded s bs, bitcnt := BitVec.ofNat 64 (encoded s bs).length
        bytecnt := BitVec.ofNat 64 bs.length, byteSource := rest
        bitSink := sinkAfter s.bitSink (encoded s bs).length
        fault := true, errcode := 11, errinfo := 256, port := .responding ⟨.fault .nocode, 0⟩ })

/-- 43_encoder.md R190, R192: a source that answers Err ends ENC with E_IO(0) after the codes of the bytes before it, and
without the terminator. -/
def Obligations.EncSourceFault : Prop :=
  ∀ (s : State) (bs : List Byte) (rest : List ByteAnswer), s.fault = false → s.codeV = true →
    s.byteSource = bs.map ByteAnswer.byte ++ .err :: rest →
    (∀ c ∈ bs, (readCode (byteIndex c) s).len ≠ 0) →
    SinkAccepts s.bitSink (encoded s bs).length →
    exec .enc s = .next
      { s with
        bitsOut := s.bitsOut ++ encoded s bs, bitcnt := BitVec.ofNat 64 (encoded s bs).length
        bytecnt := BitVec.ofNat 64 bs.length, byteSource := rest
        bitSink := sinkAfter s.bitSink (encoded s bs).length
        fault := true, errcode := 8, errinfo := 0, port := .responding ⟨.fault .io, 0⟩ }

/-- 43_encoder.md R190, R194, 20_memory.md R72: a sink that answers Err to bit `k` (from 0) of the code of a byte, or of
END_OF_DATA at End, ends ENC with E_IO(3): exactly the bits before it were accepted and counted, BYTECNT counts the bytes
whose codes were complete, and the source has lost the items up to that byte or End and no more. -/
def Obligations.EncSinkFault : Prop :=
  ∀ (s : State) (bs : List Byte) (item : ByteAnswer) (i : TableIndex) (rest : List ByteAnswer) (k : Nat),
    s.fault = false → s.codeV = true → s.byteSource = bs.map ByteAnswer.byte ++ item :: rest →
    (∀ c ∈ bs, (readCode (byteIndex c) s).len ≠ 0) → Encodes item i → k < (codeString (readCode i s)).length →
    SinkAccepts s.bitSink ((encoded s bs).length + k) →
    sinkAnswer s.bitSink ((encoded s bs).length + k) = .err →
    exec .enc s = .next
      { s with
        bitsOut := s.bitsOut ++ encoded s bs ++ (codeString (readCode i s)).take k
        bitcnt := BitVec.ofNat 64 ((encoded s bs).length + k), bytecnt := BitVec.ofNat 64 bs.length, byteSource := rest
        bitSink := sinkAfter s.bitSink ((encoded s bs).length + k + 1)
        fault := true, errcode := 8, errinfo := 3, port := .responding ⟨.fault .io, 0⟩ }

/-- 43_encoder.md R195: on success BITCNT is the sum of the code lengths of the source bytes and of END_OF_DATA; when the
bytes are those that were counted, it is the sum of FREQ[s] times the length over all symbols.
The spec's own inference: "[derived: from rule R190]". -/
def Obligations.EncLengthLaw : Prop :=
  ∀ (s t : State) (bs : List Byte) (rest : List ByteAnswer), exec .enc s = .next t →
    t.port = .responding ⟨.ok, 0⟩ → s.byteSource = bs.map ByteAnswer.byte ++ .eof :: rest →
    t.bitcnt = BitVec.ofNat 64 ((readCode eodIndex s).len.toNat +
      (bs.map fun b => (readCode (byteIndex b) s).len.toNat).sum) ∧
    (s.freq = histogram bs → CountsFit bs →
      t.bitcnt = BitVec.ofNat 64
        ((List.finRange 257).map fun i => (readFreq i s).toNat * (readCode i s).len.toNat).sum)

/-! ### Decoder -/

/-- 44_decoder.md R210, R211, R212, R213, R216: a bit source that spells bytes and then END_OF_DATA makes DEC emit those
bytes and answer OK at the last bit of END_OF_DATA, leaving CUR at its leaf and every later bit in the source. -/
def Obligations.DecEffect : Prop :=
  ∀ (s : State) (words : List (List Bool × Byte)) (last : List Bool) (leaf : NodeIndex) (e : Node)
    (rest : List BitAnswer),
    s.fault = false → s.treeV = true → (∀ w ∈ words, SpellsByte s w.1 w.2) →
    last ≠ [] → descend s s.root last = some leaf → treeNode leaf s = some e → e.sym = .endOfData →
    s.bitSource = ((words.flatMap (·.1)) ++ last).map BitAnswer.bit ++ rest →
    SinkAccepts s.byteSink words.length →
    exec .dec s = .next
      { s with
        bytesOut := s.bytesOut ++ words.map (·.2), bytecnt := BitVec.ofNat 64 words.length
        bitcnt := BitVec.ofNat 64 ((words.flatMap (·.1)).length + last.length), cur := leaf, bitSource := rest
        byteSink := sinkAfter s.byteSink words.length, port := .responding ⟨.ok, 0⟩ }

/-- 44_decoder.md R210, R212, R214, 60_exceptions.md R261: a source that ends (E_TRUNC) or answers Err (E_IO(2)) before
END_OF_DATA, between codes or inside one, the empty source included, is a fault, with CUR at the node reached; the sink
need accept only the bytes given. -/
def Obligations.DecSourceEndsEarly : Prop :=
  ∀ (s : State) (words : List (List Bool × Byte)) (part : List Bool) (at_ : NodeIndex) (rest : List BitAnswer),
    s.fault = false → s.treeV = true → (∀ w ∈ words, SpellsByte s w.1 w.2) →
    Partway s part at_ → SinkAccepts s.byteSink words.length →
    (s.bitSource = ((words.flatMap (·.1)) ++ part).map BitAnswer.bit ++ .eof :: rest →
      exec .dec s = .next
        { s with
          bytesOut := s.bytesOut ++ words.map (·.2), bytecnt := BitVec.ofNat 64 words.length
          bitcnt := BitVec.ofNat 64 ((words.flatMap (·.1)).length + part.length), cur := at_, bitSource := rest
          byteSink := sinkAfter s.byteSink words.length
          fault := true, errcode := 10, errinfo := 0, port := .responding ⟨.fault .trunc, 0⟩ }) ∧
    (s.bitSource = ((words.flatMap (·.1)) ++ part).map BitAnswer.bit ++ .err :: rest →
      exec .dec s = .next
        { s with
          bytesOut := s.bytesOut ++ words.map (·.2), bytecnt := BitVec.ofNat 64 words.length
          bitcnt := BitVec.ofNat 64 ((words.flatMap (·.1)).length + part.length), cur := at_, bitSource := rest
          byteSink := sinkAfter s.byteSink words.length
          fault := true, errcode := 8, errinfo := 2, port := .responding ⟨.fault .io, 0⟩ })

/-- 44_decoder.md R210: a byte sink that answers Err ends DEC with E_IO(1), the refused byte not counted, CUR at its
leaf. -/
def Obligations.DecSinkFault : Prop :=
  ∀ (s : State) (words : List (List Bool × Byte)) (last : List Bool) (leaf : NodeIndex) (e : Node) (b : Byte)
    (rest : List BitAnswer),
    s.fault = false → s.treeV = true → (∀ w ∈ words, SpellsByte s w.1 w.2) →
    last ≠ [] → descend s s.root last = some leaf → treeNode leaf s = some e → e.sym = .byte b →
    s.bitSource = ((words.flatMap (·.1)) ++ last).map BitAnswer.bit ++ rest →
    SinkAccepts s.byteSink words.length → sinkAnswer s.byteSink words.length = .err →
    exec .dec s = .next
      { s with
        bytesOut := s.bytesOut ++ words.map (·.2), bytecnt := BitVec.ofNat 64 words.length
        bitcnt := BitVec.ofNat 64 ((words.flatMap (·.1)).length + last.length), cur := leaf, bitSource := rest
        byteSink := sinkAfter s.byteSink (words.length + 1)
        fault := true, errcode := 8, errinfo := 1, port := .responding ⟨.fault .io, 0⟩ }

/-- 44_decoder.md R215: on the one-leaf tree a bit 0 decodes to END_OF_DATA, and a bit 1 faults with E_CORRUPT, CUR at
ROOT; in a tree with two leaves or more E_CORRUPT cannot occur. -/
def Obligations.DecOneLeafTree : Prop :=
  (∀ (s : State) (e : Node) (b : Bool) (rest : List BitAnswer), s.fault = false → s.treeV = true →
    treeNode s.root s = some e → e.sym = .endOfData → s.bitSource = .bit b :: rest →
    exec .dec s = .next
      (if b then
        { s with
          bytecnt := 0, bitcnt := 1, cur := s.root, bitSource := rest
          fault := true, errcode := 12, errinfo := 0, port := .responding ⟨.fault .corrupt, 0⟩ }
      else
        { s with bytecnt := 0, bitcnt := 1, cur := s.root, bitSource := rest, port := .responding ⟨.ok, 0⟩ })) ∧
  (∀ (s t : State) (d : Word), TreeShape s → 2 ≤ s.leafcnt.toNat → exec .dec s = .next t →
    t.port ≠ .responding ⟨.fault .corrupt, d⟩)

/-- 44_decoder.md R213: whenever DEC answers OK, CUR is at a leaf of END_OF_DATA. -/
def Obligations.DecOkOnlyAtEndOfData : Prop :=
  ∀ (s t : State) (d : Word), exec .dec s = .next t → t.port = .responding ⟨.ok, d⟩ →
    ∃ e, treeNode t.cur t = some e ∧ e.sym = .endOfData

/-- 44_decoder.md R216, R218, 20_memory.md R72: on success the items DEC took from its source are bits alone, and BITCNT
is their number; BYTECNT is the number of bytes it gave. -/
def Obligations.DecTakesCountedBits : Prop :=
  ∀ s t : State, exec .dec s = .next t → t.port = .responding ⟨.ok, 0⟩ →
    ∃ (bits : List Bool) (bytes : List Byte), s.bitSource = bits.map BitAnswer.bit ++ t.bitSource ∧
      t.bitcnt = BitVec.ofNat 64 bits.length ∧ t.bytesOut = s.bytesOut ++ bytes ∧
      t.bytecnt = BitVec.ofNat 64 bytes.length

/-- 44_decoder.md R217, 43_encoder.md R197: THE ROUND TRIP. Build a tree and its map from a table; encode bytes with that
map; decode, with a tree built from an equal table, a source that delivers the emitted bits followed by anything: DEC
answers OK, emits exactly those bytes, takes exactly those bits. With the table COUNT makes of those bytes, ENC has a code
for each of them and for END_OF_DATA.
The spec's own inference: "[derived: from 42_code_table.md rules R177, R178 and 43_encoder.md rule R190]". -/
def Obligations.RoundTrip : Prop :=
  (∀ (s0 s1 s2 e0 e1 d0 d1 d2 : State) (bs : List Byte) (sent : List Bool) (rest : List ByteAnswer)
    (after : List BitAnswer),
    exec .build s0 = .next s1 → s1.port = .responding ⟨.ok, 0⟩ →
    exec .gen s1 = .next s2 → s2.port = .responding ⟨.ok, 0⟩ →
    e0.code = s2.code → e0.byteSource = bs.map ByteAnswer.byte ++ .eof :: rest →
    exec .enc e0 = .next e1 → e1.port = .responding ⟨.ok, 0⟩ → e1.bitsOut = e0.bitsOut ++ sent →
    d0.freq = s0.freq → exec .build d0 = .next d1 → d1.port = .responding ⟨.ok, 0⟩ →
    d2.node = d1.node → d2.nodecnt = d1.nodecnt → d2.root = d1.root → d2.treeV = true → d2.fault = false →
    d2.bitSource = sent.map BitAnswer.bit ++ after → SinkAccepts d2.byteSink bs.length →
    ∃ t, exec .dec d2 = .next t ∧ t.port = .responding ⟨.ok, 0⟩ ∧ t.bytesOut = d2.bytesOut ++ bs ∧
      t.bitSource = after ∧ t.bitcnt = BitVec.ofNat 64 sent.length ∧ t.bytecnt = BitVec.ofNat 64 bs.length) ∧
  (∀ (s0 s1 s2 : State) (bs : List Byte),
    CountsFit bs → s0.freq = histogram bs →
    exec .build s0 = .next s1 → s1.port = .responding ⟨.ok, 0⟩ →
    exec .gen s1 = .next s2 → s2.port = .responding ⟨.ok, 0⟩ →
    (∀ b ∈ bs, (readCode (byteIndex b) s2).len ≠ 0) ∧ (readCode eodIndex s2).len ≠ 0)

/-! ### Whole machine -/

/-- 60_exceptions.md R260, R262: a command that answers with a fault has set FAULT and ERRCODE to that fault's code, left
TREE_V and CODE_V alone, and is one of the commands that can raise it. -/
def Obligations.FaultEntry : Prop :=
  ∀ (i : Instr) (s t : State) (f : FaultKind) (d : Word), exec i s = .next t → t.port = .responding ⟨.fault f, d⟩ →
    d = 0 ∧ t.fault = true ∧ t.errcode = (Completion.fault f).number ∧ t.treeV = s.treeV ∧ t.codeV = s.codeV ∧
    (match f with
     | .io => i = .count ∨ i = .enc ∨ i = .dec
     | .table => i = .build
     | .trunc => i = .dec
     | .nocode => i = .enc
     | .corrupt => i = .dec
     | .cntovf => i = .count)

/-- 60_exceptions.md R263, R264: while FAULT = 1 no command but CLR changes FAULT, ERRCODE or ERRINFO, and none answers
with a fault. -/
def Obligations.OnlyClrLeavesFaulted : Prop :=
  ∀ (i : Instr) (s t : State), s.fault = true → i ≠ .clr → exec i s = .next t →
    t.fault = true ∧ t.errcode = s.errcode ∧ t.errinfo = s.errinfo ∧ ∀ f d, t.port ≠ .responding ⟨.fault f, d⟩

/-- 20_memory.md R64, 45_system.md R230: FTR, NDR, CTR, CSRR and NOP change nothing but the port. -/
def Obligations.ReadsHaveNoSideEffect : Prop :=
  ∀ (i : Instr) (s t : State), (i = .nop ∨ (∃ a, i = .ftr a) ∨ (∃ a b, i = .ndr a b) ∨ (∃ a b, i = .ctr a b) ∨
      (∃ a, i = .csrr a)) →
    exec i s = .next t → t = { s with port := t.port }

/-- 30_encoding.md R95: the response data is 0 unless a read answers OK. -/
def Obligations.DataOnlyFromReads : Prop :=
  ∀ (i : Instr) (s t : State) (r : Response), exec i s = .next t → t.port = .responding r →
    r.rdata = 0 ∨ (r.rc = .ok ∧ ((∃ a, i = .ftr a) ∨ (∃ a b, i = .ndr a b) ∨ (∃ a b, i = .ctr a b) ∨
      (∃ a, i = .csrr a)))

/-- 20_memory.md R60, R61, 10_state.md R31 to R34, 60_exceptions.md R270: which commands write FREQ, NODE and CODE (CLR
and FREE by leaving them unspecified), the counters, and the tree's registers. -/
def Obligations.StateWriters : Prop :=
  ∀ (i : Instr) (s t : State), exec i s = .next t →
    (t.freq ≠ s.freq → (∃ a c, i = .ftw a c) ∨ i = .count ∨ i = .clr) ∧
    (t.node ≠ s.node → i = .build ∨ i = .free ∨ i = .clr) ∧
    (t.code ≠ s.code → i = .gen ∨ i = .clr) ∧
    (t.bitcnt ≠ s.bitcnt → i = .enc ∨ i = .dec ∨ i = .clr) ∧
    (t.bytecnt ≠ s.bytecnt → i = .count ∨ i = .enc ∨ i = .dec ∨ i = .clr) ∧
    (t.leafcnt ≠ s.leafcnt ∨ t.nodecnt ≠ s.nodecnt ∨ t.root ≠ s.root → i = .build ∨ i = .free ∨ i = .clr) ∧
    (t.cur ≠ s.cur → i = .build ∨ i = .free ∨ i = .clr ∨ i = .dec)

/-- 10_state.md R22: what sets and what clears each flag. -/
def Obligations.FlagWriters : Prop :=
  ∀ (i : Instr) (s t : State), exec i s = .next t →
    (s.treeV = false → t.treeV = true → i = .build ∧ t.port = .responding ⟨.ok, 0⟩) ∧
    (s.treeV = true → t.treeV = false → i = .free ∨ i = .clr) ∧
    (s.codeV = false → t.codeV = true → i = .gen ∧ t.port = .responding ⟨.ok, 0⟩) ∧
    (s.codeV = true → t.codeV = false → i = .clr) ∧
    (s.fault = false → t.fault = true → ∃ f, t.port = .responding ⟨.fault f, 0⟩) ∧
    (s.fault = true → t.fault = false → i = .clr)

/-- 20_memory.md R60, R66 to R72, R79: which command uses which stream; sources only lose items from the front and what a
sink has accepted stays accepted. -/
def Obligations.StreamUse : Prop :=
  ∀ (i : Instr) (s t : State), exec i s = .next t →
    (i ≠ .count → i ≠ .enc → t.byteSource = s.byteSource) ∧
    (i ≠ .enc → t.bitSink = s.bitSink ∧ t.bitsOut = s.bitsOut) ∧
    (i ≠ .dec → t.bitSource = s.bitSource ∧ t.byteSink = s.byteSink ∧ t.bytesOut = s.bytesOut) ∧
    t.byteSource <:+ s.byteSource ∧ t.bitSource <:+ s.bitSource ∧
    s.bytesOut <+: t.bytesOut ∧ s.bitsOut <+: t.bitsOut ∧ t.script = s.script ∧
    t.responses = s.responses ∧ t.outcomes = s.outcomes ∧ t.bytesEnded = s.bytesEnded ∧ t.bitsEnded = s.bitsEnded ∧
    t.cause = s.cause

/-- 10_state.md R27, R30, R35, 41_tree_build.md R147, 42_code_table.md R173, R177, 70_reset_and_hazards.md R292: the
invariant holds at reset. -/
def Obligations.ResetHasInvariant : Prop := Inv State.reset

/-- 10_state.md R27, R30, R35, 41_tree_build.md R147, 42_code_table.md R173, R177, 70_reset_and_hazards.md R292: every
step keeps the invariant. -/
def Obligations.StepKeepsInvariant : Prop :=
  ∀ s t : State, Inv s → step s = .next t → Inv t

/-- 70_reset_and_hazards.md R292, 42_code_table.md R170, 41_tree_build.md R143, 44_decoder.md R211: from a state with the
invariant the machine never stops: no node that does not exist is followed, no walk is too deep, no empty queue is popped,
and no command is without a meaning. -/
def Obligations.StepNeverStops : Prop :=
  ∀ s : State, Inv s → ∃ t, step s = .next t
end

