-- ==== Sys2Proof/Laws/State.lean ====
section
/-! SUPPORT. What every named update of the state does to every field: one lemma per field per update, all by rfl. -/

namespace Sys2Proof.Machine

variable (s : State)


/-! ### respond -/

@[simp] theorem respond_freq (rdata : Word) : (respond rdata s).freq = s.freq := rfl
@[simp] theorem respond_node (rdata : Word) : (respond rdata s).node = s.node := rfl
@[simp] theorem respond_code (rdata : Word) : (respond rdata s).code = s.code := rfl
@[simp] theorem respond_pq (rdata : Word) : (respond rdata s).pq = s.pq := rfl
@[simp] theorem respond_leafcnt (rdata : Word) : (respond rdata s).leafcnt = s.leafcnt := rfl
@[simp] theorem respond_nodecnt (rdata : Word) : (respond rdata s).nodecnt = s.nodecnt := rfl
@[simp] theorem respond_root (rdata : Word) : (respond rdata s).root = s.root := rfl
@[simp] theorem respond_cur (rdata : Word) : (respond rdata s).cur = s.cur := rfl
@[simp] theorem respond_bitcnt (rdata : Word) : (respond rdata s).bitcnt = s.bitcnt := rfl
@[simp] theorem respond_bytecnt (rdata : Word) : (respond rdata s).bytecnt = s.bytecnt := rfl
@[simp] theorem respond_treeV (rdata : Word) : (respond rdata s).treeV = s.treeV := rfl
@[simp] theorem respond_codeV (rdata : Word) : (respond rdata s).codeV = s.codeV := rfl
@[simp] theorem respond_fault (rdata : Word) : (respond rdata s).fault = s.fault := rfl
@[simp] theorem respond_errcode (rdata : Word) : (respond rdata s).errcode = s.errcode := rfl
@[simp] theorem respond_errinfo (rdata : Word) : (respond rdata s).errinfo = s.errinfo := rfl
@[simp] theorem respond_port (rdata : Word) : (respond rdata s).port = .responding ⟨.ok, rdata⟩ := rfl
@[simp] theorem respond_byteSource (rdata : Word) : (respond rdata s).byteSource = s.byteSource := rfl
@[simp] theorem respond_bitSource (rdata : Word) : (respond rdata s).bitSource = s.bitSource := rfl
@[simp] theorem respond_byteSink (rdata : Word) : (respond rdata s).byteSink = s.byteSink := rfl
@[simp] theorem respond_bitSink (rdata : Word) : (respond rdata s).bitSink = s.bitSink := rfl
@[simp] theorem respond_bytesOut (rdata : Word) : (respond rdata s).bytesOut = s.bytesOut := rfl
@[simp] theorem respond_bitsOut (rdata : Word) : (respond rdata s).bitsOut = s.bitsOut := rfl
@[simp] theorem respond_script (rdata : Word) : (respond rdata s).script = s.script := rfl
@[simp] theorem respond_responses (rdata : Word) : (respond rdata s).responses = s.responses := rfl
@[simp] theorem respond_outcomes (rdata : Word) : (respond rdata s).outcomes = s.outcomes := rfl
@[simp] theorem respond_bytesEnded (rdata : Word) : (respond rdata s).bytesEnded = s.bytesEnded := rfl
@[simp] theorem respond_bitsEnded (rdata : Word) : (respond rdata s).bitsEnded = s.bitsEnded := rfl
@[simp] theorem respond_cause (rdata : Word) : (respond rdata s).cause = s.cause := rfl
@[simp] theorem respond_draws (rdata : Word) : (respond rdata s).draws = s.draws := rfl

/-! ### refuse -/

@[simp] theorem refuse_freq (r : RefusalKind) : (refuse r s).freq = s.freq := rfl
@[simp] theorem refuse_node (r : RefusalKind) : (refuse r s).node = s.node := rfl
@[simp] theorem refuse_code (r : RefusalKind) : (refuse r s).code = s.code := rfl
@[simp] theorem refuse_pq (r : RefusalKind) : (refuse r s).pq = s.pq := rfl
@[simp] theorem refuse_leafcnt (r : RefusalKind) : (refuse r s).leafcnt = s.leafcnt := rfl
@[simp] theorem refuse_nodecnt (r : RefusalKind) : (refuse r s).nodecnt = s.nodecnt := rfl
@[simp] theorem refuse_root (r : RefusalKind) : (refuse r s).root = s.root := rfl
@[simp] theorem refuse_cur (r : RefusalKind) : (refuse r s).cur = s.cur := rfl
@[simp] theorem refuse_bitcnt (r : RefusalKind) : (refuse r s).bitcnt = s.bitcnt := rfl
@[simp] theorem refuse_bytecnt (r : RefusalKind) : (refuse r s).bytecnt = s.bytecnt := rfl
@[simp] theorem refuse_treeV (r : RefusalKind) : (refuse r s).treeV = s.treeV := rfl
@[simp] theorem refuse_codeV (r : RefusalKind) : (refuse r s).codeV = s.codeV := rfl
@[simp] theorem refuse_fault (r : RefusalKind) : (refuse r s).fault = s.fault := rfl
@[simp] theorem refuse_errcode (r : RefusalKind) : (refuse r s).errcode = s.errcode := rfl
@[simp] theorem refuse_errinfo (r : RefusalKind) : (refuse r s).errinfo = s.errinfo := rfl
@[simp] theorem refuse_port (r : RefusalKind) : (refuse r s).port = .responding ⟨.refusal r, 0⟩ := rfl
@[simp] theorem refuse_byteSource (r : RefusalKind) : (refuse r s).byteSource = s.byteSource := rfl
@[simp] theorem refuse_bitSource (r : RefusalKind) : (refuse r s).bitSource = s.bitSource := rfl
@[simp] theorem refuse_byteSink (r : RefusalKind) : (refuse r s).byteSink = s.byteSink := rfl
@[simp] theorem refuse_bitSink (r : RefusalKind) : (refuse r s).bitSink = s.bitSink := rfl
@[simp] theorem refuse_bytesOut (r : RefusalKind) : (refuse r s).bytesOut = s.bytesOut := rfl
@[simp] theorem refuse_bitsOut (r : RefusalKind) : (refuse r s).bitsOut = s.bitsOut := rfl
@[simp] theorem refuse_script (r : RefusalKind) : (refuse r s).script = s.script := rfl
@[simp] theorem refuse_responses (r : RefusalKind) : (refuse r s).responses = s.responses := rfl
@[simp] theorem refuse_outcomes (r : RefusalKind) : (refuse r s).outcomes = s.outcomes := rfl
@[simp] theorem refuse_bytesEnded (r : RefusalKind) : (refuse r s).bytesEnded = s.bytesEnded := rfl
@[simp] theorem refuse_bitsEnded (r : RefusalKind) : (refuse r s).bitsEnded = s.bitsEnded := rfl
@[simp] theorem refuse_cause (r : RefusalKind) : (refuse r s).cause = s.cause := rfl
@[simp] theorem refuse_draws (r : RefusalKind) : (refuse r s).draws = s.draws := rfl

/-! ### raise -/

@[simp] theorem raise_freq (f : FaultKind) (info : Word) : (raise f info s).freq = s.freq := rfl
@[simp] theorem raise_node (f : FaultKind) (info : Word) : (raise f info s).node = s.node := rfl
@[simp] theorem raise_code (f : FaultKind) (info : Word) : (raise f info s).code = s.code := rfl
@[simp] theorem raise_pq (f : FaultKind) (info : Word) : (raise f info s).pq = s.pq := rfl
@[simp] theorem raise_leafcnt (f : FaultKind) (info : Word) : (raise f info s).leafcnt = s.leafcnt := rfl
@[simp] theorem raise_nodecnt (f : FaultKind) (info : Word) : (raise f info s).nodecnt = s.nodecnt := rfl
@[simp] theorem raise_root (f : FaultKind) (info : Word) : (raise f info s).root = s.root := rfl
@[simp] theorem raise_cur (f : FaultKind) (info : Word) : (raise f info s).cur = s.cur := rfl
@[simp] theorem raise_bitcnt (f : FaultKind) (info : Word) : (raise f info s).bitcnt = s.bitcnt := rfl
@[simp] theorem raise_bytecnt (f : FaultKind) (info : Word) : (raise f info s).bytecnt = s.bytecnt := rfl
@[simp] theorem raise_treeV (f : FaultKind) (info : Word) : (raise f info s).treeV = s.treeV := rfl
@[simp] theorem raise_codeV (f : FaultKind) (info : Word) : (raise f info s).codeV = s.codeV := rfl
@[simp] theorem raise_fault (f : FaultKind) (info : Word) : (raise f info s).fault = true := rfl
@[simp] theorem raise_errcode (f : FaultKind) (info : Word) : (raise f info s).errcode = f.number := rfl
@[simp] theorem raise_errinfo (f : FaultKind) (info : Word) : (raise f info s).errinfo = info := rfl
@[simp] theorem raise_port (f : FaultKind) (info : Word) : (raise f info s).port = .responding ⟨.fault f, 0⟩ := rfl
@[simp] theorem raise_byteSource (f : FaultKind) (info : Word) : (raise f info s).byteSource = s.byteSource := rfl
@[simp] theorem raise_bitSource (f : FaultKind) (info : Word) : (raise f info s).bitSource = s.bitSource := rfl
@[simp] theorem raise_byteSink (f : FaultKind) (info : Word) : (raise f info s).byteSink = s.byteSink := rfl
@[simp] theorem raise_bitSink (f : FaultKind) (info : Word) : (raise f info s).bitSink = s.bitSink := rfl
@[simp] theorem raise_bytesOut (f : FaultKind) (info : Word) : (raise f info s).bytesOut = s.bytesOut := rfl
@[simp] theorem raise_bitsOut (f : FaultKind) (info : Word) : (raise f info s).bitsOut = s.bitsOut := rfl
@[simp] theorem raise_script (f : FaultKind) (info : Word) : (raise f info s).script = s.script := rfl
@[simp] theorem raise_responses (f : FaultKind) (info : Word) : (raise f info s).responses = s.responses := rfl
@[simp] theorem raise_outcomes (f : FaultKind) (info : Word) : (raise f info s).outcomes = s.outcomes := rfl
@[simp] theorem raise_bytesEnded (f : FaultKind) (info : Word) : (raise f info s).bytesEnded = s.bytesEnded := rfl
@[simp] theorem raise_bitsEnded (f : FaultKind) (info : Word) : (raise f info s).bitsEnded = s.bitsEnded := rfl
@[simp] theorem raise_cause (f : FaultKind) (info : Word) : (raise f info s).cause = s.cause := rfl
@[simp] theorem raise_draws (f : FaultKind) (info : Word) : (raise f info s).draws = s.draws := rfl

/-! ### waitFor -/

@[simp] theorem waitFor_freq (on : Stream) : (waitFor on s).freq = s.freq := rfl
@[simp] theorem waitFor_node (on : Stream) : (waitFor on s).node = s.node := rfl
@[simp] theorem waitFor_code (on : Stream) : (waitFor on s).code = s.code := rfl
@[simp] theorem waitFor_pq (on : Stream) : (waitFor on s).pq = s.pq := rfl
@[simp] theorem waitFor_leafcnt (on : Stream) : (waitFor on s).leafcnt = s.leafcnt := rfl
@[simp] theorem waitFor_nodecnt (on : Stream) : (waitFor on s).nodecnt = s.nodecnt := rfl
@[simp] theorem waitFor_root (on : Stream) : (waitFor on s).root = s.root := rfl
@[simp] theorem waitFor_cur (on : Stream) : (waitFor on s).cur = s.cur := rfl
@[simp] theorem waitFor_bitcnt (on : Stream) : (waitFor on s).bitcnt = s.bitcnt := rfl
@[simp] theorem waitFor_bytecnt (on : Stream) : (waitFor on s).bytecnt = s.bytecnt := rfl
@[simp] theorem waitFor_treeV (on : Stream) : (waitFor on s).treeV = s.treeV := rfl
@[simp] theorem waitFor_codeV (on : Stream) : (waitFor on s).codeV = s.codeV := rfl
@[simp] theorem waitFor_fault (on : Stream) : (waitFor on s).fault = s.fault := rfl
@[simp] theorem waitFor_errcode (on : Stream) : (waitFor on s).errcode = s.errcode := rfl
@[simp] theorem waitFor_errinfo (on : Stream) : (waitFor on s).errinfo = s.errinfo := rfl
@[simp] theorem waitFor_port (on : Stream) : (waitFor on s).port = .waiting on := rfl
@[simp] theorem waitFor_byteSource (on : Stream) : (waitFor on s).byteSource = s.byteSource := rfl
@[simp] theorem waitFor_bitSource (on : Stream) : (waitFor on s).bitSource = s.bitSource := rfl
@[simp] theorem waitFor_byteSink (on : Stream) : (waitFor on s).byteSink = s.byteSink := rfl
@[simp] theorem waitFor_bitSink (on : Stream) : (waitFor on s).bitSink = s.bitSink := rfl
@[simp] theorem waitFor_bytesOut (on : Stream) : (waitFor on s).bytesOut = s.bytesOut := rfl
@[simp] theorem waitFor_bitsOut (on : Stream) : (waitFor on s).bitsOut = s.bitsOut := rfl
@[simp] theorem waitFor_script (on : Stream) : (waitFor on s).script = s.script := rfl
@[simp] theorem waitFor_responses (on : Stream) : (waitFor on s).responses = s.responses := rfl
@[simp] theorem waitFor_outcomes (on : Stream) : (waitFor on s).outcomes = s.outcomes := rfl
@[simp] theorem waitFor_bytesEnded (on : Stream) : (waitFor on s).bytesEnded = s.bytesEnded := rfl
@[simp] theorem waitFor_bitsEnded (on : Stream) : (waitFor on s).bitsEnded = s.bitsEnded := rfl
@[simp] theorem waitFor_cause (on : Stream) : (waitFor on s).cause = s.cause := rfl
@[simp] theorem waitFor_draws (on : Stream) : (waitFor on s).draws = s.draws := rfl

/-! ### writeFreq -/

@[simp] theorem writeFreq_freq (i : TableIndex) (c : FreqCount) : (writeFreq i c s).freq = s.freq.set i c := rfl
@[simp] theorem writeFreq_node (i : TableIndex) (c : FreqCount) : (writeFreq i c s).node = s.node := rfl
@[simp] theorem writeFreq_code (i : TableIndex) (c : FreqCount) : (writeFreq i c s).code = s.code := rfl
@[simp] theorem writeFreq_pq (i : TableIndex) (c : FreqCount) : (writeFreq i c s).pq = s.pq := rfl
@[simp] theorem writeFreq_leafcnt (i : TableIndex) (c : FreqCount) : (writeFreq i c s).leafcnt = s.leafcnt := rfl
@[simp] theorem writeFreq_nodecnt (i : TableIndex) (c : FreqCount) : (writeFreq i c s).nodecnt = s.nodecnt := rfl
@[simp] theorem writeFreq_root (i : TableIndex) (c : FreqCount) : (writeFreq i c s).root = s.root := rfl
@[simp] theorem writeFreq_cur (i : TableIndex) (c : FreqCount) : (writeFreq i c s).cur = s.cur := rfl
@[simp] theorem writeFreq_bitcnt (i : TableIndex) (c : FreqCount) : (writeFreq i c s).bitcnt = s.bitcnt := rfl
@[simp] theorem writeFreq_bytecnt (i : TableIndex) (c : FreqCount) : (writeFreq i c s).bytecnt = s.bytecnt := rfl
@[simp] theorem writeFreq_treeV (i : TableIndex) (c : FreqCount) : (writeFreq i c s).treeV = s.treeV := rfl
@[simp] theorem writeFreq_codeV (i : TableIndex) (c : FreqCount) : (writeFreq i c s).codeV = s.codeV := rfl
@[simp] theorem writeFreq_fault (i : TableIndex) (c : FreqCount) : (writeFreq i c s).fault = s.fault := rfl
@[simp] theorem writeFreq_errcode (i : TableIndex) (c : FreqCount) : (writeFreq i c s).errcode = s.errcode := rfl
@[simp] theorem writeFreq_errinfo (i : TableIndex) (c : FreqCount) : (writeFreq i c s).errinfo = s.errinfo := rfl
@[simp] theorem writeFreq_port (i : TableIndex) (c : FreqCount) : (writeFreq i c s).port = s.port := rfl
@[simp] theorem writeFreq_byteSource (i : TableIndex) (c : FreqCount) : (writeFreq i c s).byteSource = s.byteSource := rfl
@[simp] theorem writeFreq_bitSource (i : TableIndex) (c : FreqCount) : (writeFreq i c s).bitSource = s.bitSource := rfl
@[simp] theorem writeFreq_byteSink (i : TableIndex) (c : FreqCount) : (writeFreq i c s).byteSink = s.byteSink := rfl
@[simp] theorem writeFreq_bitSink (i : TableIndex) (c : FreqCount) : (writeFreq i c s).bitSink = s.bitSink := rfl
@[simp] theorem writeFreq_bytesOut (i : TableIndex) (c : FreqCount) : (writeFreq i c s).bytesOut = s.bytesOut := rfl
@[simp] theorem writeFreq_bitsOut (i : TableIndex) (c : FreqCount) : (writeFreq i c s).bitsOut = s.bitsOut := rfl
@[simp] theorem writeFreq_script (i : TableIndex) (c : FreqCount) : (writeFreq i c s).script = s.script := rfl
@[simp] theorem writeFreq_responses (i : TableIndex) (c : FreqCount) : (writeFreq i c s).responses = s.responses := rfl
@[simp] theorem writeFreq_outcomes (i : TableIndex) (c : FreqCount) : (writeFreq i c s).outcomes = s.outcomes := rfl
@[simp] theorem writeFreq_bytesEnded (i : TableIndex) (c : FreqCount) : (writeFreq i c s).bytesEnded = s.bytesEnded := rfl
@[simp] theorem writeFreq_bitsEnded (i : TableIndex) (c : FreqCount) : (writeFreq i c s).bitsEnded = s.bitsEnded := rfl
@[simp] theorem writeFreq_cause (i : TableIndex) (c : FreqCount) : (writeFreq i c s).cause = s.cause := rfl
@[simp] theorem writeFreq_draws (i : TableIndex) (c : FreqCount) : (writeFreq i c s).draws = s.draws := rfl

/-! ### clearFreq -/

@[simp] theorem clearFreq_freq : (clearFreq s).freq = Vector.replicate 257 0 := rfl
@[simp] theorem clearFreq_node : (clearFreq s).node = s.node := rfl
@[simp] theorem clearFreq_code : (clearFreq s).code = s.code := rfl
@[simp] theorem clearFreq_pq : (clearFreq s).pq = s.pq := rfl
@[simp] theorem clearFreq_leafcnt : (clearFreq s).leafcnt = s.leafcnt := rfl
@[simp] theorem clearFreq_nodecnt : (clearFreq s).nodecnt = s.nodecnt := rfl
@[simp] theorem clearFreq_root : (clearFreq s).root = s.root := rfl
@[simp] theorem clearFreq_cur : (clearFreq s).cur = s.cur := rfl
@[simp] theorem clearFreq_bitcnt : (clearFreq s).bitcnt = s.bitcnt := rfl
@[simp] theorem clearFreq_bytecnt : (clearFreq s).bytecnt = s.bytecnt := rfl
@[simp] theorem clearFreq_treeV : (clearFreq s).treeV = s.treeV := rfl
@[simp] theorem clearFreq_codeV : (clearFreq s).codeV = s.codeV := rfl
@[simp] theorem clearFreq_fault : (clearFreq s).fault = s.fault := rfl
@[simp] theorem clearFreq_errcode : (clearFreq s).errcode = s.errcode := rfl
@[simp] theorem clearFreq_errinfo : (clearFreq s).errinfo = s.errinfo := rfl
@[simp] theorem clearFreq_port : (clearFreq s).port = s.port := rfl
@[simp] theorem clearFreq_byteSource : (clearFreq s).byteSource = s.byteSource := rfl
@[simp] theorem clearFreq_bitSource : (clearFreq s).bitSource = s.bitSource := rfl
@[simp] theorem clearFreq_byteSink : (clearFreq s).byteSink = s.byteSink := rfl
@[simp] theorem clearFreq_bitSink : (clearFreq s).bitSink = s.bitSink := rfl
@[simp] theorem clearFreq_bytesOut : (clearFreq s).bytesOut = s.bytesOut := rfl
@[simp] theorem clearFreq_bitsOut : (clearFreq s).bitsOut = s.bitsOut := rfl
@[simp] theorem clearFreq_script : (clearFreq s).script = s.script := rfl
@[simp] theorem clearFreq_responses : (clearFreq s).responses = s.responses := rfl
@[simp] theorem clearFreq_outcomes : (clearFreq s).outcomes = s.outcomes := rfl
@[simp] theorem clearFreq_bytesEnded : (clearFreq s).bytesEnded = s.bytesEnded := rfl
@[simp] theorem clearFreq_bitsEnded : (clearFreq s).bitsEnded = s.bitsEnded := rfl
@[simp] theorem clearFreq_cause : (clearFreq s).cause = s.cause := rfl
@[simp] theorem clearFreq_draws : (clearFreq s).draws = s.draws := rfl

/-! ### writeCode -/

@[simp] theorem writeCode_freq (i : TableIndex) (c : Code) : (writeCode i c s).freq = s.freq := rfl
@[simp] theorem writeCode_node (i : TableIndex) (c : Code) : (writeCode i c s).node = s.node := rfl
@[simp] theorem writeCode_code (i : TableIndex) (c : Code) : (writeCode i c s).code = s.code.set i c := rfl
@[simp] theorem writeCode_pq (i : TableIndex) (c : Code) : (writeCode i c s).pq = s.pq := rfl
@[simp] theorem writeCode_leafcnt (i : TableIndex) (c : Code) : (writeCode i c s).leafcnt = s.leafcnt := rfl
@[simp] theorem writeCode_nodecnt (i : TableIndex) (c : Code) : (writeCode i c s).nodecnt = s.nodecnt := rfl
@[simp] theorem writeCode_root (i : TableIndex) (c : Code) : (writeCode i c s).root = s.root := rfl
@[simp] theorem writeCode_cur (i : TableIndex) (c : Code) : (writeCode i c s).cur = s.cur := rfl
@[simp] theorem writeCode_bitcnt (i : TableIndex) (c : Code) : (writeCode i c s).bitcnt = s.bitcnt := rfl
@[simp] theorem writeCode_bytecnt (i : TableIndex) (c : Code) : (writeCode i c s).bytecnt = s.bytecnt := rfl
@[simp] theorem writeCode_treeV (i : TableIndex) (c : Code) : (writeCode i c s).treeV = s.treeV := rfl
@[simp] theorem writeCode_codeV (i : TableIndex) (c : Code) : (writeCode i c s).codeV = s.codeV := rfl
@[simp] theorem writeCode_fault (i : TableIndex) (c : Code) : (writeCode i c s).fault = s.fault := rfl
@[simp] theorem writeCode_errcode (i : TableIndex) (c : Code) : (writeCode i c s).errcode = s.errcode := rfl
@[simp] theorem writeCode_errinfo (i : TableIndex) (c : Code) : (writeCode i c s).errinfo = s.errinfo := rfl
@[simp] theorem writeCode_port (i : TableIndex) (c : Code) : (writeCode i c s).port = s.port := rfl
@[simp] theorem writeCode_byteSource (i : TableIndex) (c : Code) : (writeCode i c s).byteSource = s.byteSource := rfl
@[simp] theorem writeCode_bitSource (i : TableIndex) (c : Code) : (writeCode i c s).bitSource = s.bitSource := rfl
@[simp] theorem writeCode_byteSink (i : TableIndex) (c : Code) : (writeCode i c s).byteSink = s.byteSink := rfl
@[simp] theorem writeCode_bitSink (i : TableIndex) (c : Code) : (writeCode i c s).bitSink = s.bitSink := rfl
@[simp] theorem writeCode_bytesOut (i : TableIndex) (c : Code) : (writeCode i c s).bytesOut = s.bytesOut := rfl
@[simp] theorem writeCode_bitsOut (i : TableIndex) (c : Code) : (writeCode i c s).bitsOut = s.bitsOut := rfl
@[simp] theorem writeCode_script (i : TableIndex) (c : Code) : (writeCode i c s).script = s.script := rfl
@[simp] theorem writeCode_responses (i : TableIndex) (c : Code) : (writeCode i c s).responses = s.responses := rfl
@[simp] theorem writeCode_outcomes (i : TableIndex) (c : Code) : (writeCode i c s).outcomes = s.outcomes := rfl
@[simp] theorem writeCode_bytesEnded (i : TableIndex) (c : Code) : (writeCode i c s).bytesEnded = s.bytesEnded := rfl
@[simp] theorem writeCode_bitsEnded (i : TableIndex) (c : Code) : (writeCode i c s).bitsEnded = s.bitsEnded := rfl
@[simp] theorem writeCode_cause (i : TableIndex) (c : Code) : (writeCode i c s).cause = s.cause := rfl
@[simp] theorem writeCode_draws (i : TableIndex) (c : Code) : (writeCode i c s).draws = s.draws := rfl

/-! ### clearCode -/

@[simp] theorem clearCode_freq : (clearCode s).freq = s.freq := rfl
@[simp] theorem clearCode_node : (clearCode s).node = s.node := rfl
@[simp] theorem clearCode_code : (clearCode s).code = Vector.replicate 257 ⟨0, 0⟩ := rfl
@[simp] theorem clearCode_pq : (clearCode s).pq = s.pq := rfl
@[simp] theorem clearCode_leafcnt : (clearCode s).leafcnt = s.leafcnt := rfl
@[simp] theorem clearCode_nodecnt : (clearCode s).nodecnt = s.nodecnt := rfl
@[simp] theorem clearCode_root : (clearCode s).root = s.root := rfl
@[simp] theorem clearCode_cur : (clearCode s).cur = s.cur := rfl
@[simp] theorem clearCode_bitcnt : (clearCode s).bitcnt = s.bitcnt := rfl
@[simp] theorem clearCode_bytecnt : (clearCode s).bytecnt = s.bytecnt := rfl
@[simp] theorem clearCode_treeV : (clearCode s).treeV = s.treeV := rfl
@[simp] theorem clearCode_codeV : (clearCode s).codeV = s.codeV := rfl
@[simp] theorem clearCode_fault : (clearCode s).fault = s.fault := rfl
@[simp] theorem clearCode_errcode : (clearCode s).errcode = s.errcode := rfl
@[simp] theorem clearCode_errinfo : (clearCode s).errinfo = s.errinfo := rfl
@[simp] theorem clearCode_port : (clearCode s).port = s.port := rfl
@[simp] theorem clearCode_byteSource : (clearCode s).byteSource = s.byteSource := rfl
@[simp] theorem clearCode_bitSource : (clearCode s).bitSource = s.bitSource := rfl
@[simp] theorem clearCode_byteSink : (clearCode s).byteSink = s.byteSink := rfl
@[simp] theorem clearCode_bitSink : (clearCode s).bitSink = s.bitSink := rfl
@[simp] theorem clearCode_bytesOut : (clearCode s).bytesOut = s.bytesOut := rfl
@[simp] theorem clearCode_bitsOut : (clearCode s).bitsOut = s.bitsOut := rfl
@[simp] theorem clearCode_script : (clearCode s).script = s.script := rfl
@[simp] theorem clearCode_responses : (clearCode s).responses = s.responses := rfl
@[simp] theorem clearCode_outcomes : (clearCode s).outcomes = s.outcomes := rfl
@[simp] theorem clearCode_bytesEnded : (clearCode s).bytesEnded = s.bytesEnded := rfl
@[simp] theorem clearCode_bitsEnded : (clearCode s).bitsEnded = s.bitsEnded := rfl
@[simp] theorem clearCode_cause : (clearCode s).cause = s.cause := rfl
@[simp] theorem clearCode_draws : (clearCode s).draws = s.draws := rfl

/-! ### writeNode -/

@[simp] theorem writeNode_freq (n : Nat) (e : Node) : (writeNode n e s).freq = s.freq := rfl
@[simp] theorem writeNode_node (n : Nat) (e : Node) : (writeNode n e s).node = s.node.setIfInBounds n e := rfl
@[simp] theorem writeNode_code (n : Nat) (e : Node) : (writeNode n e s).code = s.code := rfl
@[simp] theorem writeNode_pq (n : Nat) (e : Node) : (writeNode n e s).pq = s.pq := rfl
@[simp] theorem writeNode_leafcnt (n : Nat) (e : Node) : (writeNode n e s).leafcnt = s.leafcnt := rfl
@[simp] theorem writeNode_nodecnt (n : Nat) (e : Node) : (writeNode n e s).nodecnt = s.nodecnt := rfl
@[simp] theorem writeNode_root (n : Nat) (e : Node) : (writeNode n e s).root = s.root := rfl
@[simp] theorem writeNode_cur (n : Nat) (e : Node) : (writeNode n e s).cur = s.cur := rfl
@[simp] theorem writeNode_bitcnt (n : Nat) (e : Node) : (writeNode n e s).bitcnt = s.bitcnt := rfl
@[simp] theorem writeNode_bytecnt (n : Nat) (e : Node) : (writeNode n e s).bytecnt = s.bytecnt := rfl
@[simp] theorem writeNode_treeV (n : Nat) (e : Node) : (writeNode n e s).treeV = s.treeV := rfl
@[simp] theorem writeNode_codeV (n : Nat) (e : Node) : (writeNode n e s).codeV = s.codeV := rfl
@[simp] theorem writeNode_fault (n : Nat) (e : Node) : (writeNode n e s).fault = s.fault := rfl
@[simp] theorem writeNode_errcode (n : Nat) (e : Node) : (writeNode n e s).errcode = s.errcode := rfl
@[simp] theorem writeNode_errinfo (n : Nat) (e : Node) : (writeNode n e s).errinfo = s.errinfo := rfl
@[simp] theorem writeNode_port (n : Nat) (e : Node) : (writeNode n e s).port = s.port := rfl
@[simp] theorem writeNode_byteSource (n : Nat) (e : Node) : (writeNode n e s).byteSource = s.byteSource := rfl
@[simp] theorem writeNode_bitSource (n : Nat) (e : Node) : (writeNode n e s).bitSource = s.bitSource := rfl
@[simp] theorem writeNode_byteSink (n : Nat) (e : Node) : (writeNode n e s).byteSink = s.byteSink := rfl
@[simp] theorem writeNode_bitSink (n : Nat) (e : Node) : (writeNode n e s).bitSink = s.bitSink := rfl
@[simp] theorem writeNode_bytesOut (n : Nat) (e : Node) : (writeNode n e s).bytesOut = s.bytesOut := rfl
@[simp] theorem writeNode_bitsOut (n : Nat) (e : Node) : (writeNode n e s).bitsOut = s.bitsOut := rfl
@[simp] theorem writeNode_script (n : Nat) (e : Node) : (writeNode n e s).script = s.script := rfl
@[simp] theorem writeNode_responses (n : Nat) (e : Node) : (writeNode n e s).responses = s.responses := rfl
@[simp] theorem writeNode_outcomes (n : Nat) (e : Node) : (writeNode n e s).outcomes = s.outcomes := rfl
@[simp] theorem writeNode_bytesEnded (n : Nat) (e : Node) : (writeNode n e s).bytesEnded = s.bytesEnded := rfl
@[simp] theorem writeNode_bitsEnded (n : Nat) (e : Node) : (writeNode n e s).bitsEnded = s.bitsEnded := rfl
@[simp] theorem writeNode_cause (n : Nat) (e : Node) : (writeNode n e s).cause = s.cause := rfl
@[simp] theorem writeNode_draws (n : Nat) (e : Node) : (writeNode n e s).draws = s.draws := rfl

/-! ### pqInsert -/

@[simp] theorem pqInsert_freq (n : NodeIndex) : (pqInsert n s).freq = s.freq := rfl
@[simp] theorem pqInsert_node (n : NodeIndex) : (pqInsert n s).node = s.node := rfl
@[simp] theorem pqInsert_code (n : NodeIndex) : (pqInsert n s).code = s.code := rfl
@[simp] theorem pqInsert_pq (n : NodeIndex) : (pqInsert n s).pq = s.pq ++ [n] := rfl
@[simp] theorem pqInsert_leafcnt (n : NodeIndex) : (pqInsert n s).leafcnt = s.leafcnt := rfl
@[simp] theorem pqInsert_nodecnt (n : NodeIndex) : (pqInsert n s).nodecnt = s.nodecnt := rfl
@[simp] theorem pqInsert_root (n : NodeIndex) : (pqInsert n s).root = s.root := rfl
@[simp] theorem pqInsert_cur (n : NodeIndex) : (pqInsert n s).cur = s.cur := rfl
@[simp] theorem pqInsert_bitcnt (n : NodeIndex) : (pqInsert n s).bitcnt = s.bitcnt := rfl
@[simp] theorem pqInsert_bytecnt (n : NodeIndex) : (pqInsert n s).bytecnt = s.bytecnt := rfl
@[simp] theorem pqInsert_treeV (n : NodeIndex) : (pqInsert n s).treeV = s.treeV := rfl
@[simp] theorem pqInsert_codeV (n : NodeIndex) : (pqInsert n s).codeV = s.codeV := rfl
@[simp] theorem pqInsert_fault (n : NodeIndex) : (pqInsert n s).fault = s.fault := rfl
@[simp] theorem pqInsert_errcode (n : NodeIndex) : (pqInsert n s).errcode = s.errcode := rfl
@[simp] theorem pqInsert_errinfo (n : NodeIndex) : (pqInsert n s).errinfo = s.errinfo := rfl
@[simp] theorem pqInsert_port (n : NodeIndex) : (pqInsert n s).port = s.port := rfl
@[simp] theorem pqInsert_byteSource (n : NodeIndex) : (pqInsert n s).byteSource = s.byteSource := rfl
@[simp] theorem pqInsert_bitSource (n : NodeIndex) : (pqInsert n s).bitSource = s.bitSource := rfl
@[simp] theorem pqInsert_byteSink (n : NodeIndex) : (pqInsert n s).byteSink = s.byteSink := rfl
@[simp] theorem pqInsert_bitSink (n : NodeIndex) : (pqInsert n s).bitSink = s.bitSink := rfl
@[simp] theorem pqInsert_bytesOut (n : NodeIndex) : (pqInsert n s).bytesOut = s.bytesOut := rfl
@[simp] theorem pqInsert_bitsOut (n : NodeIndex) : (pqInsert n s).bitsOut = s.bitsOut := rfl
@[simp] theorem pqInsert_script (n : NodeIndex) : (pqInsert n s).script = s.script := rfl
@[simp] theorem pqInsert_responses (n : NodeIndex) : (pqInsert n s).responses = s.responses := rfl
@[simp] theorem pqInsert_outcomes (n : NodeIndex) : (pqInsert n s).outcomes = s.outcomes := rfl
@[simp] theorem pqInsert_bytesEnded (n : NodeIndex) : (pqInsert n s).bytesEnded = s.bytesEnded := rfl
@[simp] theorem pqInsert_bitsEnded (n : NodeIndex) : (pqInsert n s).bitsEnded = s.bitsEnded := rfl
@[simp] theorem pqInsert_cause (n : NodeIndex) : (pqInsert n s).cause = s.cause := rfl
@[simp] theorem pqInsert_draws (n : NodeIndex) : (pqInsert n s).draws = s.draws := rfl

/-! ### releaseTree -/

@[simp] theorem releaseTree_freq : (releaseTree s).freq = s.freq := rfl
@[simp] theorem releaseTree_node : (releaseTree s).node = unspecifiedNodes s.draws := rfl
@[simp] theorem releaseTree_code : (releaseTree s).code = s.code := rfl
@[simp] theorem releaseTree_pq : (releaseTree s).pq = s.pq := rfl
@[simp] theorem releaseTree_leafcnt : (releaseTree s).leafcnt = 0 := rfl
@[simp] theorem releaseTree_nodecnt : (releaseTree s).nodecnt = 0 := rfl
@[simp] theorem releaseTree_root : (releaseTree s).root = Config.nil := rfl
@[simp] theorem releaseTree_cur : (releaseTree s).cur = Config.nil := rfl
@[simp] theorem releaseTree_bitcnt : (releaseTree s).bitcnt = s.bitcnt := rfl
@[simp] theorem releaseTree_bytecnt : (releaseTree s).bytecnt = s.bytecnt := rfl
@[simp] theorem releaseTree_treeV : (releaseTree s).treeV = false := rfl
@[simp] theorem releaseTree_codeV : (releaseTree s).codeV = s.codeV := rfl
@[simp] theorem releaseTree_fault : (releaseTree s).fault = s.fault := rfl
@[simp] theorem releaseTree_errcode : (releaseTree s).errcode = s.errcode := rfl
@[simp] theorem releaseTree_errinfo : (releaseTree s).errinfo = s.errinfo := rfl
@[simp] theorem releaseTree_port : (releaseTree s).port = s.port := rfl
@[simp] theorem releaseTree_byteSource : (releaseTree s).byteSource = s.byteSource := rfl
@[simp] theorem releaseTree_bitSource : (releaseTree s).bitSource = s.bitSource := rfl
@[simp] theorem releaseTree_byteSink : (releaseTree s).byteSink = s.byteSink := rfl
@[simp] theorem releaseTree_bitSink : (releaseTree s).bitSink = s.bitSink := rfl
@[simp] theorem releaseTree_bytesOut : (releaseTree s).bytesOut = s.bytesOut := rfl
@[simp] theorem releaseTree_bitsOut : (releaseTree s).bitsOut = s.bitsOut := rfl
@[simp] theorem releaseTree_script : (releaseTree s).script = s.script := rfl
@[simp] theorem releaseTree_responses : (releaseTree s).responses = s.responses := rfl
@[simp] theorem releaseTree_outcomes : (releaseTree s).outcomes = s.outcomes := rfl
@[simp] theorem releaseTree_bytesEnded : (releaseTree s).bytesEnded = s.bytesEnded := rfl
@[simp] theorem releaseTree_bitsEnded : (releaseTree s).bitsEnded = s.bitsEnded := rfl
@[simp] theorem releaseTree_cause : (releaseTree s).cause = s.cause := rfl
@[simp] theorem releaseTree_draws : (releaseTree s).draws = s.draws + 1 := rfl

/-! ### releaseAll -/

@[simp] theorem releaseAll_freq : (releaseAll s).freq = Vector.replicate 257 0 := rfl
@[simp] theorem releaseAll_node : (releaseAll s).node = unspecifiedNodes s.draws := rfl
@[simp] theorem releaseAll_code : (releaseAll s).code = unspecifiedCodes s.draws := rfl
@[simp] theorem releaseAll_pq : (releaseAll s).pq = [] := rfl
@[simp] theorem releaseAll_leafcnt : (releaseAll s).leafcnt = 0 := rfl
@[simp] theorem releaseAll_nodecnt : (releaseAll s).nodecnt = 0 := rfl
@[simp] theorem releaseAll_root : (releaseAll s).root = Config.nil := rfl
@[simp] theorem releaseAll_cur : (releaseAll s).cur = Config.nil := rfl
@[simp] theorem releaseAll_bitcnt : (releaseAll s).bitcnt = 0 := rfl
@[simp] theorem releaseAll_bytecnt : (releaseAll s).bytecnt = 0 := rfl
@[simp] theorem releaseAll_treeV : (releaseAll s).treeV = false := rfl
@[simp] theorem releaseAll_codeV : (releaseAll s).codeV = false := rfl
@[simp] theorem releaseAll_fault : (releaseAll s).fault = false := rfl
@[simp] theorem releaseAll_errcode : (releaseAll s).errcode = 0 := rfl
@[simp] theorem releaseAll_errinfo : (releaseAll s).errinfo = 0 := rfl
@[simp] theorem releaseAll_port : (releaseAll s).port = s.port := rfl
@[simp] theorem releaseAll_byteSource : (releaseAll s).byteSource = s.byteSource := rfl
@[simp] theorem releaseAll_bitSource : (releaseAll s).bitSource = s.bitSource := rfl
@[simp] theorem releaseAll_byteSink : (releaseAll s).byteSink = s.byteSink := rfl
@[simp] theorem releaseAll_bitSink : (releaseAll s).bitSink = s.bitSink := rfl
@[simp] theorem releaseAll_bytesOut : (releaseAll s).bytesOut = s.bytesOut := rfl
@[simp] theorem releaseAll_bitsOut : (releaseAll s).bitsOut = s.bitsOut := rfl
@[simp] theorem releaseAll_script : (releaseAll s).script = s.script := rfl
@[simp] theorem releaseAll_responses : (releaseAll s).responses = s.responses := rfl
@[simp] theorem releaseAll_outcomes : (releaseAll s).outcomes = s.outcomes := rfl
@[simp] theorem releaseAll_bytesEnded : (releaseAll s).bytesEnded = s.bytesEnded := rfl
@[simp] theorem releaseAll_bitsEnded : (releaseAll s).bitsEnded = s.bitsEnded := rfl
@[simp] theorem releaseAll_cause : (releaseAll s).cause = s.cause := rfl
@[simp] theorem releaseAll_draws : (releaseAll s).draws = s.draws + 1 := rfl

/-! ### byteTaken -/

@[simp] theorem byteTaken_freq (rest : List ByteAnswer) : (byteTaken rest s).freq = s.freq := rfl
@[simp] theorem byteTaken_node (rest : List ByteAnswer) : (byteTaken rest s).node = s.node := rfl
@[simp] theorem byteTaken_code (rest : List ByteAnswer) : (byteTaken rest s).code = s.code := rfl
@[simp] theorem byteTaken_pq (rest : List ByteAnswer) : (byteTaken rest s).pq = s.pq := rfl
@[simp] theorem byteTaken_leafcnt (rest : List ByteAnswer) : (byteTaken rest s).leafcnt = s.leafcnt := rfl
@[simp] theorem byteTaken_nodecnt (rest : List ByteAnswer) : (byteTaken rest s).nodecnt = s.nodecnt := rfl
@[simp] theorem byteTaken_root (rest : List ByteAnswer) : (byteTaken rest s).root = s.root := rfl
@[simp] theorem byteTaken_cur (rest : List ByteAnswer) : (byteTaken rest s).cur = s.cur := rfl
@[simp] theorem byteTaken_bitcnt (rest : List ByteAnswer) : (byteTaken rest s).bitcnt = s.bitcnt := rfl
@[simp] theorem byteTaken_bytecnt (rest : List ByteAnswer) : (byteTaken rest s).bytecnt = s.bytecnt := rfl
@[simp] theorem byteTaken_treeV (rest : List ByteAnswer) : (byteTaken rest s).treeV = s.treeV := rfl
@[simp] theorem byteTaken_codeV (rest : List ByteAnswer) : (byteTaken rest s).codeV = s.codeV := rfl
@[simp] theorem byteTaken_fault (rest : List ByteAnswer) : (byteTaken rest s).fault = s.fault := rfl
@[simp] theorem byteTaken_errcode (rest : List ByteAnswer) : (byteTaken rest s).errcode = s.errcode := rfl
@[simp] theorem byteTaken_errinfo (rest : List ByteAnswer) : (byteTaken rest s).errinfo = s.errinfo := rfl
@[simp] theorem byteTaken_port (rest : List ByteAnswer) : (byteTaken rest s).port = s.port := rfl
@[simp] theorem byteTaken_byteSource (rest : List ByteAnswer) : (byteTaken rest s).byteSource = rest := rfl
@[simp] theorem byteTaken_bitSource (rest : List ByteAnswer) : (byteTaken rest s).bitSource = s.bitSource := rfl
@[simp] theorem byteTaken_byteSink (rest : List ByteAnswer) : (byteTaken rest s).byteSink = s.byteSink := rfl
@[simp] theorem byteTaken_bitSink (rest : List ByteAnswer) : (byteTaken rest s).bitSink = s.bitSink := rfl
@[simp] theorem byteTaken_bytesOut (rest : List ByteAnswer) : (byteTaken rest s).bytesOut = s.bytesOut := rfl
@[simp] theorem byteTaken_bitsOut (rest : List ByteAnswer) : (byteTaken rest s).bitsOut = s.bitsOut := rfl
@[simp] theorem byteTaken_script (rest : List ByteAnswer) : (byteTaken rest s).script = s.script := rfl
@[simp] theorem byteTaken_responses (rest : List ByteAnswer) : (byteTaken rest s).responses = s.responses := rfl
@[simp] theorem byteTaken_outcomes (rest : List ByteAnswer) : (byteTaken rest s).outcomes = s.outcomes := rfl
@[simp] theorem byteTaken_bytesEnded (rest : List ByteAnswer) : (byteTaken rest s).bytesEnded = s.bytesEnded := rfl
@[simp] theorem byteTaken_bitsEnded (rest : List ByteAnswer) : (byteTaken rest s).bitsEnded = s.bitsEnded := rfl
@[simp] theorem byteTaken_cause (rest : List ByteAnswer) : (byteTaken rest s).cause = s.cause := rfl
@[simp] theorem byteTaken_draws (rest : List ByteAnswer) : (byteTaken rest s).draws = s.draws := rfl

/-! ### bitTaken -/

@[simp] theorem bitTaken_freq (rest : List BitAnswer) : (bitTaken rest s).freq = s.freq := rfl
@[simp] theorem bitTaken_node (rest : List BitAnswer) : (bitTaken rest s).node = s.node := rfl
@[simp] theorem bitTaken_code (rest : List BitAnswer) : (bitTaken rest s).code = s.code := rfl
@[simp] theorem bitTaken_pq (rest : List BitAnswer) : (bitTaken rest s).pq = s.pq := rfl
@[simp] theorem bitTaken_leafcnt (rest : List BitAnswer) : (bitTaken rest s).leafcnt = s.leafcnt := rfl
@[simp] theorem bitTaken_nodecnt (rest : List BitAnswer) : (bitTaken rest s).nodecnt = s.nodecnt := rfl
@[simp] theorem bitTaken_root (rest : List BitAnswer) : (bitTaken rest s).root = s.root := rfl
@[simp] theorem bitTaken_cur (rest : List BitAnswer) : (bitTaken rest s).cur = s.cur := rfl
@[simp] theorem bitTaken_bitcnt (rest : List BitAnswer) : (bitTaken rest s).bitcnt = s.bitcnt := rfl
@[simp] theorem bitTaken_bytecnt (rest : List BitAnswer) : (bitTaken rest s).bytecnt = s.bytecnt := rfl
@[simp] theorem bitTaken_treeV (rest : List BitAnswer) : (bitTaken rest s).treeV = s.treeV := rfl
@[simp] theorem bitTaken_codeV (rest : List BitAnswer) : (bitTaken rest s).codeV = s.codeV := rfl
@[simp] theorem bitTaken_fault (rest : List BitAnswer) : (bitTaken rest s).fault = s.fault := rfl
@[simp] theorem bitTaken_errcode (rest : List BitAnswer) : (bitTaken rest s).errcode = s.errcode := rfl
@[simp] theorem bitTaken_errinfo (rest : List BitAnswer) : (bitTaken rest s).errinfo = s.errinfo := rfl
@[simp] theorem bitTaken_port (rest : List BitAnswer) : (bitTaken rest s).port = s.port := rfl
@[simp] theorem bitTaken_byteSource (rest : List BitAnswer) : (bitTaken rest s).byteSource = s.byteSource := rfl
@[simp] theorem bitTaken_bitSource (rest : List BitAnswer) : (bitTaken rest s).bitSource = rest := rfl
@[simp] theorem bitTaken_byteSink (rest : List BitAnswer) : (bitTaken rest s).byteSink = s.byteSink := rfl
@[simp] theorem bitTaken_bitSink (rest : List BitAnswer) : (bitTaken rest s).bitSink = s.bitSink := rfl
@[simp] theorem bitTaken_bytesOut (rest : List BitAnswer) : (bitTaken rest s).bytesOut = s.bytesOut := rfl
@[simp] theorem bitTaken_bitsOut (rest : List BitAnswer) : (bitTaken rest s).bitsOut = s.bitsOut := rfl
@[simp] theorem bitTaken_script (rest : List BitAnswer) : (bitTaken rest s).script = s.script := rfl
@[simp] theorem bitTaken_responses (rest : List BitAnswer) : (bitTaken rest s).responses = s.responses := rfl
@[simp] theorem bitTaken_outcomes (rest : List BitAnswer) : (bitTaken rest s).outcomes = s.outcomes := rfl
@[simp] theorem bitTaken_bytesEnded (rest : List BitAnswer) : (bitTaken rest s).bytesEnded = s.bytesEnded := rfl
@[simp] theorem bitTaken_bitsEnded (rest : List BitAnswer) : (bitTaken rest s).bitsEnded = s.bitsEnded := rfl
@[simp] theorem bitTaken_cause (rest : List BitAnswer) : (bitTaken rest s).cause = s.cause := rfl
@[simp] theorem bitTaken_draws (rest : List BitAnswer) : (bitTaken rest s).draws = s.draws := rfl

/-! ### bumpBitcnt -/

@[simp] theorem bumpBitcnt_freq : (bumpBitcnt s).freq = s.freq := rfl
@[simp] theorem bumpBitcnt_node : (bumpBitcnt s).node = s.node := rfl
@[simp] theorem bumpBitcnt_code : (bumpBitcnt s).code = s.code := rfl
@[simp] theorem bumpBitcnt_pq : (bumpBitcnt s).pq = s.pq := rfl
@[simp] theorem bumpBitcnt_leafcnt : (bumpBitcnt s).leafcnt = s.leafcnt := rfl
@[simp] theorem bumpBitcnt_nodecnt : (bumpBitcnt s).nodecnt = s.nodecnt := rfl
@[simp] theorem bumpBitcnt_root : (bumpBitcnt s).root = s.root := rfl
@[simp] theorem bumpBitcnt_cur : (bumpBitcnt s).cur = s.cur := rfl
@[simp] theorem bumpBitcnt_bitcnt : (bumpBitcnt s).bitcnt = s.bitcnt + 1 := rfl
@[simp] theorem bumpBitcnt_bytecnt : (bumpBitcnt s).bytecnt = s.bytecnt := rfl
@[simp] theorem bumpBitcnt_treeV : (bumpBitcnt s).treeV = s.treeV := rfl
@[simp] theorem bumpBitcnt_codeV : (bumpBitcnt s).codeV = s.codeV := rfl
@[simp] theorem bumpBitcnt_fault : (bumpBitcnt s).fault = s.fault := rfl
@[simp] theorem bumpBitcnt_errcode : (bumpBitcnt s).errcode = s.errcode := rfl
@[simp] theorem bumpBitcnt_errinfo : (bumpBitcnt s).errinfo = s.errinfo := rfl
@[simp] theorem bumpBitcnt_port : (bumpBitcnt s).port = s.port := rfl
@[simp] theorem bumpBitcnt_byteSource : (bumpBitcnt s).byteSource = s.byteSource := rfl
@[simp] theorem bumpBitcnt_bitSource : (bumpBitcnt s).bitSource = s.bitSource := rfl
@[simp] theorem bumpBitcnt_byteSink : (bumpBitcnt s).byteSink = s.byteSink := rfl
@[simp] theorem bumpBitcnt_bitSink : (bumpBitcnt s).bitSink = s.bitSink := rfl
@[simp] theorem bumpBitcnt_bytesOut : (bumpBitcnt s).bytesOut = s.bytesOut := rfl
@[simp] theorem bumpBitcnt_bitsOut : (bumpBitcnt s).bitsOut = s.bitsOut := rfl
@[simp] theorem bumpBitcnt_script : (bumpBitcnt s).script = s.script := rfl
@[simp] theorem bumpBitcnt_responses : (bumpBitcnt s).responses = s.responses := rfl
@[simp] theorem bumpBitcnt_outcomes : (bumpBitcnt s).outcomes = s.outcomes := rfl
@[simp] theorem bumpBitcnt_bytesEnded : (bumpBitcnt s).bytesEnded = s.bytesEnded := rfl
@[simp] theorem bumpBitcnt_bitsEnded : (bumpBitcnt s).bitsEnded = s.bitsEnded := rfl
@[simp] theorem bumpBitcnt_cause : (bumpBitcnt s).cause = s.cause := rfl
@[simp] theorem bumpBitcnt_draws : (bumpBitcnt s).draws = s.draws := rfl

/-! ### bumpBytecnt -/

@[simp] theorem bumpBytecnt_freq : (bumpBytecnt s).freq = s.freq := rfl
@[simp] theorem bumpBytecnt_node : (bumpBytecnt s).node = s.node := rfl
@[simp] theorem bumpBytecnt_code : (bumpBytecnt s).code = s.code := rfl
@[simp] theorem bumpBytecnt_pq : (bumpBytecnt s).pq = s.pq := rfl
@[simp] theorem bumpBytecnt_leafcnt : (bumpBytecnt s).leafcnt = s.leafcnt := rfl
@[simp] theorem bumpBytecnt_nodecnt : (bumpBytecnt s).nodecnt = s.nodecnt := rfl
@[simp] theorem bumpBytecnt_root : (bumpBytecnt s).root = s.root := rfl
@[simp] theorem bumpBytecnt_cur : (bumpBytecnt s).cur = s.cur := rfl
@[simp] theorem bumpBytecnt_bitcnt : (bumpBytecnt s).bitcnt = s.bitcnt := rfl
@[simp] theorem bumpBytecnt_bytecnt : (bumpBytecnt s).bytecnt = s.bytecnt + 1 := rfl
@[simp] theorem bumpBytecnt_treeV : (bumpBytecnt s).treeV = s.treeV := rfl
@[simp] theorem bumpBytecnt_codeV : (bumpBytecnt s).codeV = s.codeV := rfl
@[simp] theorem bumpBytecnt_fault : (bumpBytecnt s).fault = s.fault := rfl
@[simp] theorem bumpBytecnt_errcode : (bumpBytecnt s).errcode = s.errcode := rfl
@[simp] theorem bumpBytecnt_errinfo : (bumpBytecnt s).errinfo = s.errinfo := rfl
@[simp] theorem bumpBytecnt_port : (bumpBytecnt s).port = s.port := rfl
@[simp] theorem bumpBytecnt_byteSource : (bumpBytecnt s).byteSource = s.byteSource := rfl
@[simp] theorem bumpBytecnt_bitSource : (bumpBytecnt s).bitSource = s.bitSource := rfl
@[simp] theorem bumpBytecnt_byteSink : (bumpBytecnt s).byteSink = s.byteSink := rfl
@[simp] theorem bumpBytecnt_bitSink : (bumpBytecnt s).bitSink = s.bitSink := rfl
@[simp] theorem bumpBytecnt_bytesOut : (bumpBytecnt s).bytesOut = s.bytesOut := rfl
@[simp] theorem bumpBytecnt_bitsOut : (bumpBytecnt s).bitsOut = s.bitsOut := rfl
@[simp] theorem bumpBytecnt_script : (bumpBytecnt s).script = s.script := rfl
@[simp] theorem bumpBytecnt_responses : (bumpBytecnt s).responses = s.responses := rfl
@[simp] theorem bumpBytecnt_outcomes : (bumpBytecnt s).outcomes = s.outcomes := rfl
@[simp] theorem bumpBytecnt_bytesEnded : (bumpBytecnt s).bytesEnded = s.bytesEnded := rfl
@[simp] theorem bumpBytecnt_bitsEnded : (bumpBytecnt s).bitsEnded = s.bitsEnded := rfl
@[simp] theorem bumpBytecnt_cause : (bumpBytecnt s).cause = s.cause := rfl
@[simp] theorem bumpBytecnt_draws : (bumpBytecnt s).draws = s.draws := rfl

/-! ### takeResponse -/

@[simp] theorem takeResponse_freq (r : Response) : (takeResponse r s).freq = s.freq := rfl
@[simp] theorem takeResponse_node (r : Response) : (takeResponse r s).node = s.node := rfl
@[simp] theorem takeResponse_code (r : Response) : (takeResponse r s).code = s.code := rfl
@[simp] theorem takeResponse_pq (r : Response) : (takeResponse r s).pq = s.pq := rfl
@[simp] theorem takeResponse_leafcnt (r : Response) : (takeResponse r s).leafcnt = s.leafcnt := rfl
@[simp] theorem takeResponse_nodecnt (r : Response) : (takeResponse r s).nodecnt = s.nodecnt := rfl
@[simp] theorem takeResponse_root (r : Response) : (takeResponse r s).root = s.root := rfl
@[simp] theorem takeResponse_cur (r : Response) : (takeResponse r s).cur = s.cur := rfl
@[simp] theorem takeResponse_bitcnt (r : Response) : (takeResponse r s).bitcnt = s.bitcnt := rfl
@[simp] theorem takeResponse_bytecnt (r : Response) : (takeResponse r s).bytecnt = s.bytecnt := rfl
@[simp] theorem takeResponse_treeV (r : Response) : (takeResponse r s).treeV = s.treeV := rfl
@[simp] theorem takeResponse_codeV (r : Response) : (takeResponse r s).codeV = s.codeV := rfl
@[simp] theorem takeResponse_fault (r : Response) : (takeResponse r s).fault = s.fault := rfl
@[simp] theorem takeResponse_errcode (r : Response) : (takeResponse r s).errcode = s.errcode := rfl
@[simp] theorem takeResponse_errinfo (r : Response) : (takeResponse r s).errinfo = s.errinfo := rfl
@[simp] theorem takeResponse_port (r : Response) : (takeResponse r s).port = .idle := rfl
@[simp] theorem takeResponse_byteSource (r : Response) : (takeResponse r s).byteSource = s.byteSource := rfl
@[simp] theorem takeResponse_bitSource (r : Response) : (takeResponse r s).bitSource = s.bitSource := rfl
@[simp] theorem takeResponse_byteSink (r : Response) : (takeResponse r s).byteSink = s.byteSink := rfl
@[simp] theorem takeResponse_bitSink (r : Response) : (takeResponse r s).bitSink = s.bitSink := rfl
@[simp] theorem takeResponse_bytesOut (r : Response) : (takeResponse r s).bytesOut = s.bytesOut := rfl
@[simp] theorem takeResponse_bitsOut (r : Response) : (takeResponse r s).bitsOut = s.bitsOut := rfl
@[simp] theorem takeResponse_script (r : Response) : (takeResponse r s).script = s.script := rfl
@[simp] theorem takeResponse_responses (r : Response) : (takeResponse r s).responses = s.responses ++ [r] := rfl
@[simp] theorem takeResponse_outcomes (r : Response) : (takeResponse r s).outcomes = s.outcomes := rfl
@[simp] theorem takeResponse_bytesEnded (r : Response) : (takeResponse r s).bytesEnded = s.bytesEnded := rfl
@[simp] theorem takeResponse_bitsEnded (r : Response) : (takeResponse r s).bitsEnded = s.bitsEnded := rfl
@[simp] theorem takeResponse_cause (r : Response) : (takeResponse r s).cause = s.cause.or ((failureKind r.rc).map .failure) := rfl
@[simp] theorem takeResponse_draws (r : Response) : (takeResponse r s).draws = s.draws := rfl

/-! ### concludeInvocation -/

@[simp] theorem concludeInvocation_freq : (concludeInvocation s).freq = s.freq := rfl
@[simp] theorem concludeInvocation_node : (concludeInvocation s).node = s.node := rfl
@[simp] theorem concludeInvocation_code : (concludeInvocation s).code = s.code := rfl
@[simp] theorem concludeInvocation_pq : (concludeInvocation s).pq = s.pq := rfl
@[simp] theorem concludeInvocation_leafcnt : (concludeInvocation s).leafcnt = s.leafcnt := rfl
@[simp] theorem concludeInvocation_nodecnt : (concludeInvocation s).nodecnt = s.nodecnt := rfl
@[simp] theorem concludeInvocation_root : (concludeInvocation s).root = s.root := rfl
@[simp] theorem concludeInvocation_cur : (concludeInvocation s).cur = s.cur := rfl
@[simp] theorem concludeInvocation_bitcnt : (concludeInvocation s).bitcnt = s.bitcnt := rfl
@[simp] theorem concludeInvocation_bytecnt : (concludeInvocation s).bytecnt = s.bytecnt := rfl
@[simp] theorem concludeInvocation_treeV : (concludeInvocation s).treeV = s.treeV := rfl
@[simp] theorem concludeInvocation_codeV : (concludeInvocation s).codeV = s.codeV := rfl
@[simp] theorem concludeInvocation_fault : (concludeInvocation s).fault = s.fault := rfl
@[simp] theorem concludeInvocation_errcode : (concludeInvocation s).errcode = s.errcode := rfl
@[simp] theorem concludeInvocation_errinfo : (concludeInvocation s).errinfo = s.errinfo := rfl
@[simp] theorem concludeInvocation_port : (concludeInvocation s).port = s.port := rfl
@[simp] theorem concludeInvocation_byteSource : (concludeInvocation s).byteSource = s.byteSource := rfl
@[simp] theorem concludeInvocation_bitSource : (concludeInvocation s).bitSource = s.bitSource := rfl
@[simp] theorem concludeInvocation_byteSink : (concludeInvocation s).byteSink = s.byteSink := rfl
@[simp] theorem concludeInvocation_bitSink : (concludeInvocation s).bitSink = s.bitSink := rfl
@[simp] theorem concludeInvocation_bytesOut : (concludeInvocation s).bytesOut = s.bytesOut := rfl
@[simp] theorem concludeInvocation_bitsOut : (concludeInvocation s).bitsOut = s.bitsOut := rfl
@[simp] theorem concludeInvocation_script : (concludeInvocation s).script = s.script := rfl
@[simp] theorem concludeInvocation_responses : (concludeInvocation s).responses = s.responses := rfl
@[simp] theorem concludeInvocation_outcomes : (concludeInvocation s).outcomes = s.outcomes ++ [invocationOutcome s] := rfl
@[simp] theorem concludeInvocation_bytesEnded : (concludeInvocation s).bytesEnded = s.bytesOut.length := rfl
@[simp] theorem concludeInvocation_bitsEnded : (concludeInvocation s).bitsEnded = s.bitsOut.length := rfl
@[simp] theorem concludeInvocation_cause : (concludeInvocation s).cause = none := rfl
@[simp] theorem concludeInvocation_draws : (concludeInvocation s).draws = s.draws := rfl

/-! ### pulseReset -/

@[simp] theorem pulseReset_freq : (pulseReset s).freq = Vector.replicate 257 0 := rfl
@[simp] theorem pulseReset_node : (pulseReset s).node = unspecifiedNodes s.draws := rfl
@[simp] theorem pulseReset_code : (pulseReset s).code = unspecifiedCodes s.draws := rfl
@[simp] theorem pulseReset_pq : (pulseReset s).pq = [] := rfl
@[simp] theorem pulseReset_leafcnt : (pulseReset s).leafcnt = 0 := rfl
@[simp] theorem pulseReset_nodecnt : (pulseReset s).nodecnt = 0 := rfl
@[simp] theorem pulseReset_root : (pulseReset s).root = Config.nil := rfl
@[simp] theorem pulseReset_cur : (pulseReset s).cur = Config.nil := rfl
@[simp] theorem pulseReset_bitcnt : (pulseReset s).bitcnt = 0 := rfl
@[simp] theorem pulseReset_bytecnt : (pulseReset s).bytecnt = 0 := rfl
@[simp] theorem pulseReset_treeV : (pulseReset s).treeV = false := rfl
@[simp] theorem pulseReset_codeV : (pulseReset s).codeV = false := rfl
@[simp] theorem pulseReset_fault : (pulseReset s).fault = false := rfl
@[simp] theorem pulseReset_errcode : (pulseReset s).errcode = 0 := rfl
@[simp] theorem pulseReset_errinfo : (pulseReset s).errinfo = 0 := rfl
@[simp] theorem pulseReset_port : (pulseReset s).port = .idle := rfl
@[simp] theorem pulseReset_byteSource : (pulseReset s).byteSource = s.byteSource := rfl
@[simp] theorem pulseReset_bitSource : (pulseReset s).bitSource = s.bitSource := rfl
@[simp] theorem pulseReset_byteSink : (pulseReset s).byteSink = s.byteSink := rfl
@[simp] theorem pulseReset_bitSink : (pulseReset s).bitSink = s.bitSink := rfl
@[simp] theorem pulseReset_bytesOut : (pulseReset s).bytesOut = s.bytesOut := rfl
@[simp] theorem pulseReset_bitsOut : (pulseReset s).bitsOut = s.bitsOut := rfl
@[simp] theorem pulseReset_script : (pulseReset s).script = s.script := rfl
@[simp] theorem pulseReset_responses : (pulseReset s).responses = s.responses := rfl
@[simp] theorem pulseReset_outcomes : (pulseReset s).outcomes = s.outcomes := rfl
@[simp] theorem pulseReset_bytesEnded : (pulseReset s).bytesEnded = s.bytesEnded := rfl
@[simp] theorem pulseReset_bitsEnded : (pulseReset s).bitsEnded = s.bitsEnded := rfl
@[simp] theorem pulseReset_cause : (pulseReset s).cause = s.cause.or (if busyPin s then some .abandoned else none) := rfl
@[simp] theorem pulseReset_draws : (pulseReset s).draws = s.draws + 1 := rfl

end Sys2Proof.Machine
end

