-- ==== Sys2Proof/Laws/Ops.lean ====
section
/-! SUPPORT. What each shared operation can do, said once. -/

namespace Sys2Proof.Machine

/-! ### Admission -/

theorem admitted_some {i : Instr} {s : State} {r : RefusalKind} (run : State → Result) (h : admission i s = some r) :
    admitted i s run = .next (refuse r s) := by
  rw [admitted, h]

theorem admitted_none {i : Instr} {s : State} (run : State → Result) (h : admission i s = none) :
    admitted i s run = run s := by
  rw [admitted, h]

/-- A command is refused by the admission checks, or runs with none of them failing. -/
theorem admitted_cases (i : Instr) (s : State) (run : State → Result) :
    (∃ r, admission i s = some r ∧ admitted i s run = .next (refuse r s)) ∨
    (admission i s = none ∧ admitted i s run = run s) := by
  cases h : admission i s with
  | some r => exact .inl ⟨r, rfl, admitted_some run h⟩
  | none => exact .inr ⟨rfl, admitted_none run h⟩

/-- What an admitted command may rely on. -/
theorem admission_none {i : Instr} {s : State} (h : admission i s = none) :
    (faultChecked i = true → s.fault = false) ∧ phaseAdmits i s = true ∧ rangeAdmits i s = true := by
  unfold admission at h
  split at h <;> [contradiction; skip]
  split at h <;> [contradiction; skip]
  split at h <;> [contradiction; skip]
  rename_i h1 h2 h3
  simp_all

theorem admission_eq_none {i : Instr} {s : State} (hf : faultChecked i = true → s.fault = false)
    (hp : phaseAdmits i s = true) (hr : rangeAdmits i s = true) : admission i s = none := by
  unfold admission
  cases h : faultChecked i <;> simp_all

/-! ### Operands -/

theorem symbolOperand_of_lt {a : Operand} (h : a.toNat < 257) : symbolOperand a = some ⟨a.toNat, h⟩ := by
  simp [symbolOperand, h]

theorem symbolOperand_of_gt {a : Operand} (h : 256 < a.toNat) : symbolOperand a = none := by
  simp [symbolOperand, show ¬ a.toNat < 257 by omega]

theorem symbolOperand_isSome (a : Operand) : (symbolOperand a).isSome = decide (a.toNat < 257) := by
  unfold symbolOperand; split <;> simp_all

theorem ndrField_isSome (b : Operand) : (ndrField b).isSome = decide (b.toNat < 5) := by
  unfold ndrField
  split <;> simp_all
  omega

theorem ctrField_isSome (b : Operand) : (ctrField b).isSome = decide (b.toNat < 9) := by
  unfold ctrField
  split
  · simp; omega
  · split <;> simp <;> omega

theorem csrOperand_isSome (a : Operand) : (csrOperand a).isSome = decide (a.toNat < 11) := by
  unfold csrOperand
  split <;> simp_all
  omega

@[simp] theorem symbolAt_byteIndex (b : Byte) : symbolAt (byteIndex b) = .byte b := by
  have : b.toNat ≠ 256 := by have := b.isLt; omega
  simp [symbolAt, byteIndex, this]

@[simp] theorem symbolAt_eodIndex : symbolAt eodIndex = .endOfData := by
  simp [symbolAt, eodIndex]

/-- The number of a symbol is its index in the tables (30_encoding.md R100). -/
theorem symbolAt_number (i : TableIndex) : (symbolAt i).number.toNat = i.val := by
  unfold symbolAt
  split
  · rename_i h; rw [h]; rfl
  · have := i.isLt
    simp only [Symbol.number, BitVec.toNat_setWidth, BitVec.toNat_ofNat]
    omega

theorem symbolAt_injective {i j : TableIndex} (h : symbolAt i = symbolAt j) : i = j := by
  have := congrArg (fun x => x.number.toNat) h
  simp only [symbolAt_number] at this
  exact Fin.ext this

theorem symbolAt_ne_internal (i : TableIndex) : symbolAt i ≠ .internal := by
  unfold symbolAt; split <;> simp

/-- A symbol that is not INTERNAL has an index in the tables. -/
theorem exists_symbolAt {x : Symbol} (h : x ≠ .internal) : ∃ i, x = symbolAt i := by
  cases x with
  | byte b => exact ⟨byteIndex b, (symbolAt_byteIndex b).symm⟩
  | endOfData => exact ⟨eodIndex, symbolAt_eodIndex.symm⟩
  | internal => exact absurd rfl h

@[simp] theorem length_codeString (c : Code) : (codeString c).length = c.len.toNat := by
  simp [codeString]

/-! ### FREQ and CODE -/

theorem readFreq_writeFreq (i j : TableIndex) (c : FreqCount) (s : State) :
    readFreq j (writeFreq i c s) = if i = j then c else readFreq j s := by
  have := Fin.ext_iff (a := i) (b := j)
  simp [readFreq, writeFreq, Vector.getElem_set, this]

theorem readCode_writeCode (i j : TableIndex) (c : Code) (s : State) :
    readCode j (writeCode i c s) = if i = j then c else readCode j s := by
  have := Fin.ext_iff (a := i) (b := j)
  simp [readCode, writeCode, Vector.getElem_set, this]

@[simp] theorem readFreq_clearFreq (i : TableIndex) (s : State) : readFreq i (clearFreq s) = 0 := by
  simp [readFreq]

@[simp] theorem readCode_clearCode (i : TableIndex) (s : State) : readCode i (clearCode s) = ⟨0, 0⟩ := by
  simp [readCode]

/-- The entries are exactly the symbols whose count is not zero (10_state.md R23). -/
theorem mem_entries {i : TableIndex} {s : State} : i ∈ entries s ↔ readFreq i s ≠ 0 := by
  unfold entries
  rw [List.mem_filterMap]
  constructor
  · rintro ⟨⟨c, k⟩, hm, hk⟩
    obtain ⟨hlt, hc⟩ := List.mem_zipIdx' hm
    simp only [entryIndex] at hk
    split at hk <;> [skip; contradiction]
    split at hk <;> [contradiction; skip]
    rename_i h0
    cases hk
    simpa [readFreq, hc] using h0
  · intro h
    refine ⟨(readFreq i s, i.val), ?_, ?_⟩
    · rw [List.mem_zipIdx_iff_getElem?]
      simp [readFreq]
    · simp only [entryIndex, i.isLt, dif_pos]
      rw [if_neg h]

/-- The entries come in ascending order of symbol number (41_tree_build.md R141). -/
theorem entries_ascending (s : State) : (entries s).Pairwise (· < ·) := by
  unfold entries
  rw [List.pairwise_filterMap]
  have h : (s.freq.toList.zipIdx).Pairwise (fun p q => p.2 < q.2) := by
    rw [List.pairwise_iff_getElem]
    intro i j hi hj hij
    simp [hij]
  refine h.imp ?_
  rintro ⟨c, k⟩ ⟨d, l⟩ hkl i hi j hj
  simp only [entryIndex] at hi hj
  split at hi <;> [skip; contradiction]
  split at hi <;> [contradiction; skip]
  split at hj <;> [skip; contradiction]
  split at hj <;> [contradiction; skip]
  cases hi; cases hj
  exact hkl

theorem entries_nodup (s : State) : (entries s).Nodup :=
  (entries_ascending s).imp (fun h => ne_of_lt h)

theorem entries_length_le (s : State) : (entries s).length ≤ 257 := by
  have := (entries_nodup s).length_le_card
  simpa using this

theorem entries_eq_nil {s : State} : entries s = [] ↔ ∀ i, readFreq i s = 0 := by
  rw [List.eq_nil_iff_forall_not_mem]
  simp [mem_entries]

/-! ### NODE -/

theorem arenaNode_writeNode (m n : Nat) (e : Node) (s : State) (h : n < 513) :
    arenaNode m (writeNode n e s) = if n = m then some e else arenaNode m s := by
  unfold arenaNode
  rw [writeNode_node, Vector.getElem?_setIfInBounds]
  split <;> simp_all

theorem arenaNode_isSome {n : Nat} (s : State) (h : n < 513) : ∃ e, arenaNode n s = some e :=
  ⟨s.node[n], by simp [arenaNode, h]⟩

theorem arenaNode_lt {n : Nat} {s : State} {e : Node} (h : arenaNode n s = some e) : n < 513 := by
  unfold arenaNode at h
  by_contra hn
  rw [Vector.getElem?_eq_none (by omega)] at h
  contradiction

theorem treeNode_eq_some {n : NodeIndex} {s : State} {e : Node} :
    treeNode n s = some e ↔ n.toNat < s.nodecnt.toNat ∧ arenaNode n.toNat s = some e := by
  unfold treeNode; split <;> simp_all

/-- `treeNode` reads NODE and NODECNT alone. -/
theorem treeNode_congr {s t : State} (n : NodeIndex) (hn : t.node = s.node) (hc : t.nodecnt = s.nodecnt) :
    treeNode n t = treeNode n s := by
  simp [treeNode, arenaNode, hn, hc]

/-- `descend` reads NODE and NODECNT alone. -/
theorem descend_congr {s t : State} (hn : t.node = s.node) (hc : t.nodecnt = s.nodecnt) (n : NodeIndex)
    (bs : List Bool) : descend t n bs = descend s n bs := by
  induction bs generalizing n with
  | nil => rfl
  | cons b bs ih => simp only [descend, treeNode_congr n hn hc, ih]

/-- A path through two parts goes through the node between them. -/
theorem descend_append (s : State) (n : NodeIndex) (p q : List Bool) :
    descend s n (p ++ q) = (descend s n p).bind fun m => descend s m q := by
  induction p generalizing n with
  | nil => rfl
  | cons b p ih =>
    simp only [List.cons_append, descend]
    split
    · rfl
    · split
      · rfl
      · exact ih _

/-! ### PQ -/

theorem queueWeight_congr {s t : State} (h : t.node = s.node) (n : NodeIndex) : queueWeight n t = queueWeight n s := by
  simp [queueWeight, arenaNode, h]

theorem before_congr {s t : State} (h : t.node = s.node) (m n : NodeIndex) : before m n t = before m n s := by
  simp [before, queueWeight_congr h]

/-- The order of the queue, spelt out (41_tree_build.md R143). -/
theorem before_iff {m n : NodeIndex} {s : State} : before m n s = true ↔
    (queueWeight m s).toNat < (queueWeight n s).toNat ∨
    ((queueWeight m s).toNat = (queueWeight n s).toNat ∧ m.toNat < n.toNat) := by
  simp [before, BitVec.lt_def, BitVec.toNat_eq]

theorem before_total {m n : NodeIndex} {s : State} (h : m ≠ n) : before m n s = true ∨ before n m s = true := by
  have : m.toNat ≠ n.toNat := fun e => h (BitVec.eq_of_toNat_eq e)
  rw [before_iff, before_iff]; omega

theorem before_trans {a b c : NodeIndex} {s : State} (h1 : before a b s = true) (h2 : before b c s = true) :
    before a c s = true := by
  rw [before_iff] at *; omega

theorem pqLeast_eq_none {s : State} {l : List NodeIndex} : pqLeast s l = none ↔ l = [] := by
  cases l with
  | nil => simp [pqLeast]
  | cons n ns =>
    simp only [pqLeast, reduceCtorEq, iff_false]
    cases pqLeast s ns <;> simp

/-- The least member is a member, and no other member comes before it (41_tree_build.md R143). -/
theorem pqLeast_some {s : State} {l : List NodeIndex} {n : NodeIndex} (h : pqLeast s l = some n) :
    n ∈ l ∧ ∀ m ∈ l, m ≠ n → before n m s = true := by
  induction l generalizing n with
  | nil => simp [pqLeast] at h
  | cons a l ih =>
    unfold pqLeast at h
    cases hl : pqLeast s l with
    | none =>
      rw [hl] at h
      cases h
      simp [pqLeast_eq_none.mp hl]
    | some m =>
      rw [hl] at h
      simp only [Option.some.injEq] at h
      obtain ⟨hm, hmin⟩ := ih hl
      by_cases hb : before a m s = true
      · rw [if_pos hb] at h
        subst h
        refine ⟨List.mem_cons_self, fun k hk hne => ?_⟩
        rcases List.mem_cons.mp hk with rfl | hk
        · exact absurd rfl hne
        · by_cases hkm : k = m
          · exact hkm ▸ hb
          · exact before_trans hb (hmin k hk hkm)
      · rw [if_neg hb] at h
        subst h
        refine ⟨List.mem_cons_of_mem _ hm, fun k hk hne => ?_⟩
        rcases List.mem_cons.mp hk with rfl | hk
        · exact (before_total (Ne.symm hne)).resolve_right hb
        · exact hmin k hk hne

/-- A pop of a queue that is not empty. -/
theorem pqPop_cases {s : State} (h : s.pq ≠ []) :
    ∃ n, pqLeast s s.pq = some n ∧ pqPop s = some (n, { s with pq := s.pq.erase n }) := by
  cases hl : pqLeast s s.pq with
  | none => exact absurd (pqLeast_eq_none.mp hl) h
  | some n => exact ⟨n, rfl, by simp [pqPop, hl]⟩

/-! ### Sinks -/

@[simp] theorem sinkAfter_zero (k : Sink) : sinkAfter k 0 = k := by simp [sinkAfter]

@[simp] theorem sinkAfter_sinkAfter (k : Sink) (m n : Nat) : sinkAfter (sinkAfter k m) n = sinkAfter k (m + n) := by
  simp [sinkAfter]

@[simp] theorem sinkAnswer_sinkAfter (k : Sink) (m n : Nat) : sinkAnswer (sinkAfter k m) n = sinkAnswer k (m + n) := by
  simp [sinkAnswer, sinkAfter]

/-- A transfer gets the sink's next answer and leaves the sink one transfer later. -/
theorem nextAnswer_eq (k : Sink) : nextAnswer k = (sinkAnswer k 0, sinkAfter k 1) := by
  rcases k with ⟨as, t⟩
  cases as <;> rfl

/-- A sink that accepts `m + n` transfers accepts `n` after the first `m`. -/
theorem SinkAccepts.after {k : Sink} {m n : Nat} (h : SinkAccepts k (m + n)) : SinkAccepts (sinkAfter k m) n :=
  fun i hi => by rw [sinkAnswer_sinkAfter]; exact h _ (by omega)

theorem SinkAccepts.mono {k : Sink} {m n : Nat} (h : SinkAccepts k n) (hm : m ≤ n) : SinkAccepts k m :=
  fun i hi => h i (by omega)

/-- `BitOut` by the sink's next answer. -/
theorem bitOut_eq (b : Bool) (s : State) : bitOut b s =
    match sinkAnswer s.bitSink 0 with
    | .ok => .goOn { s with bitSink := sinkAfter s.bitSink 1, bitsOut := s.bitsOut ++ [b] }
    | .err => .ended (raise .io 3 { s with bitSink := sinkAfter s.bitSink 1 })
    | .never => .ended (waitFor .bitSink { s with bitSink := sinkAfter s.bitSink 1 }) := by
  rw [bitOut, nextAnswer_eq]
  cases sinkAnswer s.bitSink 0 <;> rfl

/-- `ByteOut` by the sink's next answer. -/
theorem byteOut_eq (b : Byte) (s : State) : byteOut b s =
    match sinkAnswer s.byteSink 0 with
    | .ok => .goOn { s with byteSink := sinkAfter s.byteSink 1, bytesOut := s.bytesOut ++ [b] }
    | .err => .ended (raise .io 1 { s with byteSink := sinkAfter s.byteSink 1 })
    | .never => .ended (waitFor .byteSink { s with byteSink := sinkAfter s.byteSink 1 }) := by
  rw [byteOut, nextAnswer_eq]
  cases sinkAnswer s.byteSink 0 <;> rfl

/-- Everything `BitOut` can do: accept, fault with E_IO(3), or wait for ever. -/
theorem bitOut_cases (b : Bool) (s : State) :
    (∃ k, bitOut b s = .goOn { s with bitSink := k, bitsOut := s.bitsOut ++ [b] }) ∨
    (∃ k, bitOut b s = .ended (raise .io 3 { s with bitSink := k })) ∨
    (∃ k, bitOut b s = .ended (waitFor .bitSink { s with bitSink := k })) := by
  unfold bitOut
  rcases nextAnswer s.bitSink with ⟨a, k⟩
  cases a
  · exact .inl ⟨k, rfl⟩
  · exact .inr (.inl ⟨k, rfl⟩)
  · exact .inr (.inr ⟨k, rfl⟩)

/-- Everything `ByteOut` can do: accept, fault with E_IO(1), or wait for ever. -/
theorem byteOut_cases (b : Byte) (s : State) :
    (∃ k, byteOut b s = .goOn { s with byteSink := k, bytesOut := s.bytesOut ++ [b] }) ∨
    (∃ k, byteOut b s = .ended (raise .io 1 { s with byteSink := k })) ∨
    (∃ k, byteOut b s = .ended (waitFor .byteSink { s with byteSink := k })) := by
  unfold byteOut
  rcases nextAnswer s.byteSink with ⟨a, k⟩
  cases a
  · exact .inl ⟨k, rfl⟩
  · exact .inr (.inl ⟨k, rfl⟩)
  · exact .inr (.inr ⟨k, rfl⟩)

/-! ### Ports -/

/-- Everything an action of the host can come to: nothing, `rst`, the delivery of a response, the arming of a stream, the
end of an invocation, the refusal of an illegal word, or the execution of a command. -/
theorem hostMove_cases (s : State) :
    hostMove s = .settled s ∨
    (∃ rest, s.script = .reset :: rest ∧ hostMove s = .settled (pulseReset { s with script := rest })) ∨
    (∃ r rest, s.port = .responding r ∧ hostMove s = .settled (takeResponse r { s with script := rest })) ∨
    (∃ rest bys bis byk bik, hostMove s = .settled
      { s with script := rest, byteSource := bys, bitSource := bis, byteSink := byk, bitSink := bik }) ∨
    (∃ rest, hostMove s = .settled (concludeInvocation { s with script := rest })) ∨
    (∃ rest, hostMove s = .settled (refuse .illegal { s with script := rest })) ∨
    (∃ i rest, s.port = .idle ∧ hostMove s = .run i { s with script := rest }) := by
  unfold hostMove
  cases hs : s.script with
  | nil => simp
  | cons act rest =>
    cases hp : s.port with
    | idle =>
      cases act with
      | send w d =>
        simp only [acceptWord]
        cases hd : decode w d with
        | ok i => exact .inr (.inr (.inr (.inr (.inr (.inr ⟨i, rest, trivial, rfl⟩)))))
        | error e => exact .inr (.inr (.inr (.inr (.inr (.inl ⟨rest, rfl⟩)))))
      | take => exact .inl rfl
      | takeOk skip => exact .inl rfl
      | conclude => exact .inr (.inr (.inr (.inr (.inl ⟨rest, rfl⟩))))
      | reset => exact .inr (.inl ⟨rest, rfl, rfl⟩)
      | byteSource l => exact .inr (.inr (.inr (.inl ⟨rest, l, s.bitSource, s.byteSink, s.bitSink, rfl⟩)))
      | bitSource l => exact .inr (.inr (.inr (.inl ⟨rest, s.byteSource, l, s.byteSink, s.bitSink, rfl⟩)))
      | byteSink k => exact .inr (.inr (.inr (.inl ⟨rest, s.byteSource, s.bitSource, k, s.bitSink, rfl⟩)))
      | bitSink k => exact .inr (.inr (.inr (.inl ⟨rest, s.byteSource, s.bitSource, s.byteSink, k, rfl⟩)))
    | waiting on =>
      cases act with
      | reset => exact .inr (.inl ⟨rest, rfl, rfl⟩)
      | _ => exact .inl rfl
    | responding r =>
      cases act with
      | reset => exact .inr (.inl ⟨rest, rfl, rfl⟩)
      | take => exact .inr (.inr (.inl ⟨r, rest, rfl, rfl⟩))
      | takeOk skip => exact .inr (.inr (.inl ⟨r, _, rfl, rfl⟩))
      | _ => exact .inl rfl

end Sys2Proof.Machine
end

