-- ==== Sys2Proof/Laws/CodeTable.lean ====
section
/-! SUPPORT. What GEN's walk writes: for every symbol with a leaf below the starting node, the code of a path to that leaf
(spec/42_code_table.md R171, R178). -/

namespace Sys2Proof.Machine

/-- The path vector after the steps `p` taken from depth `d` on (42_code_table.md R171). -/
def extendPath : CodeBits → Nat → List Bool → CodeBits
  | path, _, [] => path
  | path, d, b :: bs => extendPath (if b then path ||| (1#256 <<< d) else path) (d + 1) bs

theorem getLsbD_step (path : CodeBits) (d k : Nat) (hd : d < 256) :
    (path ||| (1#256 <<< d)).getLsbD k = (path.getLsbD k || decide (k = d)) := by
  simp only [BitVec.getLsbD_or, BitVec.getLsbD_shiftLeft, BitVec.getLsbD_one]
  by_cases h1 : k = d
  · subst h1; simp [hd]
  · by_cases h2 : k < d
    · simp [h1, h2]
    · have : ¬ (k - d = 0) := by omega
      simp [h1, this]

/-- The steps taken are the bits from `d` on; the bits before `d` stay. -/
theorem getLsbD_extendPath (p : List Bool) (path : CodeBits) (d k : Nat) (hlen : d + p.length ≤ 256)
    (hpad : ∀ j, d ≤ j → path.getLsbD j = false) :
    (extendPath path d p).getLsbD k = if k < d then path.getLsbD k else (p[k - d]?).getD false := by
  induction p generalizing path d with
  | nil =>
    simp only [extendPath, List.getElem?_nil, Option.getD_none]
    split
    · rfl
    · exact hpad k (by omega)
  | cons b bs ih =>
    simp only [List.length_cons] at hlen
    have hbit : ∀ j, (if b then path ||| (1#256 <<< d) else path).getLsbD j =
        (path.getLsbD j || (b && decide (j = d))) := by
      intro j
      cases b
      · simp
      · simp [getLsbD_step path d j (by omega)]
    rw [extendPath, ih _ (d + 1) (by omega) (by
      intro j hj
      rw [hbit, hpad j (by omega)]
      simp [show j ≠ d by omega])]
    rw [hbit]
    by_cases h1 : k < d
    · simp [h1, show k < d + 1 by omega, show k ≠ d by omega]
    · by_cases h2 : k = d
      · subst h2
        simp [hpad k le_rfl]
      · rw [if_neg (by omega), if_neg h1, show k - d = (k - (d + 1)) + 1 by omega]
        simp

/-- A path of at most 256 steps, stored as a code, reads back as the path (10_state.md R29). -/
theorem codeString_extendPath (p : List Bool) (h : p.length ≤ 256) :
    codeString ⟨BitVec.ofNat 9 p.length, extendPath 0 0 p⟩ = p := by
  have hl : (BitVec.ofNat 9 p.length).toNat = p.length := by rw [BitVec.toNat_ofNat]; omega
  apply List.ext_getElem
  · simp [hl]
  · intro i h1 h2
    simp only [codeString, List.getElem_map, List.getElem_range]
    rw [getLsbD_extendPath p 0 0 i (by omega) (by simp)]
    simp [h2]

/-- How deep a node can lie: every step of a path goes to a smaller index, and internal nodes are L..2L-2. -/
def DepthOk (s : State) (n : NodeIndex) (d : Nat) : Prop :=
  n.toNat < s.nodecnt.toNat ∧ d + 1 ≤ s.leafcnt.toNat ∧ (s.leafcnt.toNat ≤ n.toNat → d + n.toNat ≤ s.root.toNat)

theorem TreeShape.depthOk_root {s : State} (h : TreeShape s) : DepthOk s s.root 0 := by
  have := h.root_eq
  have := h.nodecnt_eq
  have := h.leaves_pos
  exact ⟨by omega, by omega, fun _ => by omega⟩

/-- A node of the tree is a leaf with a symbol of the tables, or an internal node with two children one step deeper. -/
theorem TreeShape.node_cases {s : State} (h : TreeShape s) {n : NodeIndex} {d : Nat} (hn : DepthOk s n d) :
    (∃ e i, treeNode n s = some e ∧ n.toNat < s.leafcnt.toNat ∧ e.isLeaf = true ∧ e.sym = symbolAt i) ∨
    (∃ e, treeNode n s = some e ∧ e.sym = .internal ∧ s.leafcnt.toNat ≤ n.toNat ∧ e.left.toNat < n.toNat ∧
      e.right.toNat < n.toNat ∧ DepthOk s e.left (d + 1) ∧ DepthOk s e.right (d + 1)) := by
  obtain ⟨h1, h2, h3⟩ := hn
  have hr := h.root_eq
  have hc := h.nodecnt_eq
  by_cases hl : n.toNat < s.leafcnt.toNat
  · obtain ⟨e, he, hleaf, -⟩ := h.leaf_nodes n.toNat hl
    have hne : e.sym ≠ .internal := by simpa [Node.isLeaf] using hleaf
    obtain ⟨i, hi⟩ := exists_symbolAt hne
    exact .inl ⟨e, i, treeNode_eq_some.mpr ⟨h1, he⟩, hl, hleaf, hi⟩
  · obtain ⟨e, he, hs, hlt, hrt, -⟩ := h.internal_nodes n.toNat (by omega) h1
    refine .inr ⟨e, treeNode_eq_some.mpr ⟨h1, he⟩, hs, by omega, hlt, hrt, ⟨by omega, by omega, fun _ => ?_⟩,
      ⟨by omega, by omega, fun _ => ?_⟩⟩ <;> have := h3 (by omega) <;> omega

/-- A leaf of symbol `i` is reached from `n` by the steps `p`. -/
def Reaches (s : State) (n : NodeIndex) (p : List Bool) (i : TableIndex) : Prop :=
  ∃ m e, descend s n p = some m ∧ treeNode m s = some e ∧ e.sym = symbolAt i

theorem reaches_nil {s : State} {n : NodeIndex} {e : Node} {i : TableIndex} (he : treeNode n s = some e)
    (hs : e.sym = symbolAt i) : Reaches s n [] i := ⟨n, e, rfl, he, hs⟩

/-- From an internal node a leaf is reached through the left child or the right. -/
theorem reaches_internal {s : State} {n : NodeIndex} {e : Node} (he : treeNode n s = some e) (hs : e.sym = .internal)
    (p : List Bool) (i : TableIndex) :
    Reaches s n p i ↔ ∃ b q, p = b :: q ∧ Reaches s (if b then e.right else e.left) q i := by
  constructor
  · rintro ⟨m, f, hd, hm, hf⟩
    cases p with
    | nil =>
      cases hd
      rw [he] at hm
      cases hm
      exact absurd (hs ▸ hf).symm (symbolAt_ne_internal i)
    | cons b q =>
      refine ⟨b, q, rfl, m, f, ?_, hm, hf⟩
      simpa [descend, he, Node.isLeaf, hs] using hd
  · rintro ⟨b, q, rfl, m, f, hd, hm, hf⟩
    refine ⟨m, f, ?_, hm, hf⟩
    simpa [descend, he, Node.isLeaf, hs] using hd

/-- From a leaf only its own symbol is reached, by no steps. -/
theorem reaches_leaf {s : State} {n : NodeIndex} {e : Node} {i : TableIndex} (he : treeNode n s = some e)
    (hs : e.sym = symbolAt i) (p : List Bool) (j : TableIndex) : Reaches s n p j ↔ p = [] ∧ j = i := by
  constructor
  · rintro ⟨m, f, hd, hm, hf⟩
    cases p with
    | nil =>
      cases hd
      rw [he] at hm
      cases hm
      exact ⟨rfl, (symbolAt_injective (hs ▸ hf)).symm⟩
    | cons b q => simp [descend, he, Node.isLeaf, hs, symbolAt_ne_internal] at hd
  · rintro ⟨rfl, rfl⟩
    exact reaches_nil he hs

/-- The walk completes; every symbol with a leaf below `n` has the code of a path to such a leaf, every other symbol keeps
its entry, and nothing but CODE changes. -/
theorem walk_spec {base : State} (h : TreeShape base) (levels : Nat) (n : NodeIndex) (path : CodeBits) (d : Nat)
    (s : State) (hs : s = { base with code := s.code }) (hd : DepthOk base n d) (hl : base.leafcnt.toNat ≤ d + levels)
    (hlev : 1 ≤ levels) :
    ∃ s', walk levels n path d s = .ok s' ∧ s' = { base with code := s'.code } ∧
      ∀ i, (∃ p, Reaches base n p i ∧ d + p.length + 1 ≤ base.leafcnt.toNat ∧
              readCode i s' = leafCode (extendPath path d p) (d + p.length)) ∨
           ((∀ p, ¬ Reaches base n p i) ∧ readCode i s' = readCode i s) := by
  induction levels generalizing n path d s with
  | zero => omega
  | succ levels ih =>
    have htree : treeNode n s = treeNode n base := treeNode_congr n (by rw [hs]) (by rw [hs])
    rcases h.node_cases hd with ⟨e, i, he, hlt, hleaf, hsym⟩ | ⟨e, he, hsym, hge, hll, hrl, hdl, hdr⟩
    · -- a leaf
      have hw : walk (levels + 1) n path d s = .ok (writeCode i (leafCode path d) s) := by
        unfold walk
        rw [htree, he]
        simp only
        cases hx : e.sym with
        | byte b =>
          rw [hx, ← symbolAt_byteIndex] at hsym
          rw [← symbolAt_injective hsym]
        | endOfData =>
          rw [hx, ← symbolAt_eodIndex] at hsym
          rw [← symbolAt_injective hsym]
        | internal => exact absurd (hx ▸ hsym).symm (symbolAt_ne_internal i)
      refine ⟨_, hw, ?_, ?_⟩
      · show ({ s with code := _ } : State) = _
        rw [hs]
        rfl
      · intro j
        rw [readCode_writeCode]
        by_cases hij : i = j
        · subst hij
          exact .inl ⟨[], reaches_nil he hsym, by simpa using hd.2.1, by simp [extendPath]⟩
        · refine .inr ⟨fun p hp => hij ((reaches_leaf he hsym p j).mp hp).2.symm, by simp [hij]⟩
    · -- an internal node
      have hdepth := hdl.2.1
      obtain ⟨s1, h1, hs1, hc1⟩ := ih e.left path (d + 1) s hs hdl (by omega) (by omega)
      obtain ⟨s2, h2, hs2, hc2⟩ :=
        ih e.right (path ||| (1#256 <<< d)) (d + 1) s1 hs1 hdr (by omega) (by omega)
      refine ⟨s2, ?_, hs2, ?_⟩
      · unfold walk
        rw [htree, he]
        simp only [hsym, h1, h2]
      · intro i
        rcases hc2 i with ⟨p, hp, hlen, hcode⟩ | ⟨hno, hcode⟩
        · refine .inl ⟨true :: p, (reaches_internal he hsym _ i).mpr ⟨true, p, rfl, hp⟩, ?_, ?_⟩
          · simp only [List.length_cons]; omega
          · rw [hcode]
            simp only [extendPath, if_true, List.length_cons]
            congr 1
            omega
        · rcases hc1 i with ⟨p, hp, hlen, hcode'⟩ | ⟨hno', hcode'⟩
          · refine .inl ⟨false :: p, (reaches_internal he hsym _ i).mpr ⟨false, p, rfl, hp⟩, ?_, ?_⟩
            · simp only [List.length_cons]; omega
            · rw [hcode, hcode']
              simp only [extendPath, List.length_cons]
              congr 1
              omega
          · refine .inr ⟨fun p hp => ?_, hcode.trans hcode'⟩
            obtain ⟨b, q, -, hq⟩ := (reaches_internal he hsym p i).mp hp
            cases b
            · exact hno' q hq
            · exact hno q hq

/-- Every node of the tree is reached from the root (10_state.md R27). -/
theorem TreeShape.reachable {s : State} (h : TreeShape s) (k : Nat) (hk : k ≤ s.root.toNat) :
    ∃ p, descend s s.root p = some (BitVec.ofNat 10 k) := by
  have hr := h.root_eq
  have hc := h.nodecnt_eq
  have hle := h.leaves_le
  induction hm : s.root.toNat - k using Nat.strong_induction_on generalizing k with
  | _ m ih =>
    by_cases hkr : k = s.root.toNat
    · refine ⟨[], ?_⟩
      subst hkr
      simp [descend]
    · have hcount := h.one_parent k (by omega)
      have hmem : k ∈ childIndices s := List.count_pos_iff.mp (by omega)
      unfold childIndices at hmem
      rw [List.mem_flatMap] at hmem
      obtain ⟨n, hn1, hn2⟩ := hmem
      rw [List.mem_range'_1] at hn1
      obtain ⟨e, he, hs, hl, hrt, -⟩ := h.internal_nodes n (by omega) (by omega)
      rw [he] at hn2
      simp only [List.mem_cons, List.not_mem_nil, or_false] at hn2
      obtain ⟨p, hp⟩ := ih (s.root.toNat - n) (by omega) n (by omega) rfl
      have hn10 : (BitVec.ofNat 10 n).toNat = n := by rw [BitVec.toNat_ofNat]; omega
      have ht : treeNode (BitVec.ofNat 10 n) s = some e := treeNode_eq_some.mpr ⟨by omega, by rw [hn10]; exact he⟩
      rcases hn2 with hk' | hk'
      · refine ⟨p ++ [false], ?_⟩
        rw [descend_append, hp]
        simp [descend, ht, Node.isLeaf, hs, hk']
      · refine ⟨p ++ [true], ?_⟩
        rw [descend_append, hp]
        simp [descend, ht, Node.isLeaf, hs, hk']

/-- Of two paths to leaves neither goes on after the other ends. -/
theorem reaches_prefix {s : State} {n : NodeIndex} {p q : List Bool} {i j : TableIndex} (hp : Reaches s n p i)
    (hq : Reaches s n q j) (hpq : p <+: q) : i = j := by
  obtain ⟨r, rfl⟩ := hpq
  obtain ⟨m, e, hd, hm, hs⟩ := hp
  obtain ⟨m', e', hd', hm', hs'⟩ := hq
  rw [descend_append, hd] at hd'
  have : Reaches s m r j := ⟨m', e', hd', hm', hs'⟩
  exact ((reaches_leaf hm hs r j).mp this).2.symm

end Sys2Proof.Machine
end

