-- ==== Sys2Proof/Laws/Loops.lean ====
section
/-! SUPPORT. What the loops of COUNT, ENC and DEC do: over items that let them go on, and in general (spec/40_freq_table.md
R122, 43_encoder.md R190, 44_decoder.md R210). -/

namespace Sys2Proof.Machine

/-- A counter bumped once and then `n` times. -/
theorem counter_succ (x : Counter) (n : Nat) : x + 1#64 + BitVec.ofNat 64 n = x + BitVec.ofNat 64 (n + 1) := by
  rw [BitVec.add_assoc, Nat.add_comm n 1, BitVec.ofNat_add]

/-! ### COUNT -/

theorem byteIndex_injective {a b : Byte} (h : byteIndex a = byteIndex b) : a = b := by
  have := congrArg Fin.val h
  exact BitVec.eq_of_toNat_eq this

theorem byteIndex_ne_eodIndex (b : Byte) : byteIndex b ≠ eodIndex := by
  have := b.isLt
  intro h
  have := Fin.ext_iff.mp h
  simp only [byteIndex, eodIndex] at this
  omega

/-- COUNT at a byte whose count is full. -/
theorem countLoop_full (b : Byte) (rest : List ByteAnswer) (s : State) (h : s.freq[byteIndex b] = 0xFFFFFFFF#32) :
    countLoop (.byte b :: rest) s = raise .cntovf (b.setWidth 32) (clearFreq (byteTaken rest s)) :=
  if_pos h

/-- COUNT over bytes whose counts fit: each count rises by the occurrences of its byte, FREQ[256] stays. -/
theorem countLoop_bytes (bs : List Byte) (tail : List ByteAnswer) (s : State)
    (hsrc : s.byteSource = bs.map ByteAnswer.byte ++ tail)
    (hfit : ∀ b, (readFreq (byteIndex b) s).toNat + bs.count b ≤ 4294967295) :
    ∃ f, countLoop (bs.map ByteAnswer.byte ++ tail) s =
        countLoop tail { s with
          freq := f, bytecnt := s.bytecnt + BitVec.ofNat 64 bs.length, byteSource := tail } ∧
      f[256] = s.freq[256] ∧
      ∀ b, (f[byteIndex b]).toNat = (readFreq (byteIndex b) s).toNat + bs.count b := by
  induction bs generalizing s with
  | nil =>
    simp only [List.map_nil, List.nil_append] at hsrc
    exact ⟨s.freq, by simp [← hsrc], rfl, fun b => by simp [readFreq]⟩
  | cons a as ih =>
    have hne : readFreq (byteIndex a) s ≠ 0xFFFFFFFF := by
      intro h
      have := hfit a
      rw [h] at this
      simp at this
    have hone : (readFreq (byteIndex a) s + 1).toNat = (readFreq (byteIndex a) s).toNat + 1 := by
      have h1 := hfit a
      simp only [List.count_cons_self] at h1
      rw [BitVec.toNat_add]
      have : BitVec.toNat (1 : FreqCount) = 1 := rfl
      omega
    set u := bumpBytecnt (writeFreq (byteIndex a) (readFreq (byteIndex a) s + 1)
      (byteTaken (as.map ByteAnswer.byte ++ tail) s)) with hu
    have hread : ∀ b, (readFreq (byteIndex b) u).toNat =
        (readFreq (byteIndex b) s).toNat + if a = b then 1 else 0 := by
      intro b
      have : readFreq (byteIndex b) u = if byteIndex a = byteIndex b then readFreq (byteIndex a) s + 1
          else readFreq (byteIndex b) s := by
        rw [hu]; exact readFreq_writeFreq _ _ _ _
      rw [this]
      by_cases hab : a = b
      · subst hab; rw [if_pos rfl, if_pos rfl, hone]
      · have : byteIndex a ≠ byteIndex b := fun h => hab (byteIndex_injective h)
        simp [hab, this]
    obtain ⟨f, hf, h256, hcnt⟩ := ih u (by simp [hu]) (fun b => by
      have := hfit b
      rw [List.count_cons] at this
      rw [hread]
      simp only [beq_iff_eq] at this
      omega)
    refine ⟨f, ?_, ?_, fun b => ?_⟩
    · simp only [List.map_cons, List.cons_append, countLoop, if_neg hne]
      rw [← hu, hf]
      congr 1
      rw [hu]
      simp only [bumpBytecnt, writeFreq, byteTaken, List.length_cons]
      congr 1
      exact counter_succ _ _
    · rw [h256, hu]
      have := byteIndex_ne_eodIndex a
      have h2 : a.toNat ≠ 256 := by have := a.isLt; omega
      simp [bumpBytecnt, writeFreq, byteTaken, byteIndex, h2]
    · rw [hcnt, hread, List.count_cons]
      simp only [beq_iff_eq]
      omega

/-- Everything COUNT's loop can do. -/
theorem countLoop_frame (l : List ByteAnswer) (s : State) :
    ∃ t, countLoop l s = t ∧
      t = { s with
            freq := t.freq, bytecnt := t.bytecnt, byteSource := t.byteSource, fault := t.fault
            errcode := t.errcode, errinfo := t.errinfo, port := t.port } ∧
      (t.byteSource = s.byteSource ∨ t.byteSource <:+ l) ∧
      ((t.port = .waiting .byteSource ∧ t.fault = s.fault ∧ t.errcode = s.errcode ∧ t.errinfo = s.errinfo) ∨
       (t.port = .responding ⟨.ok, 0⟩ ∧ readFreq eodIndex t = 1 ∧ t.fault = s.fault ∧ t.errcode = s.errcode ∧
        t.errinfo = s.errinfo) ∨
       ((t.port = .responding ⟨.fault .io, 0⟩ ∧ t.errcode = 8 ∧ t.errinfo = 0 ∨
         t.port = .responding ⟨.fault .cntovf, 0⟩ ∧ t.errcode = 13 ∧ t.errinfo.toNat < 256) ∧
        t.fault = true ∧ t.freq = Vector.replicate 257 0)) := by
  induction l generalizing s with
  | nil => exact ⟨_, rfl, rfl, .inl rfl, .inl ⟨rfl, rfl, rfl, rfl⟩⟩
  | cons a rest ih =>
    cases a with
    | err =>
      exact ⟨_, rfl, rfl, .inr (List.suffix_cons _ _), .inr (.inr ⟨.inl ⟨rfl, rfl, rfl⟩, rfl, rfl⟩)⟩
    | eof =>
      refine ⟨_, rfl, rfl, .inr (List.suffix_cons _ _), .inr (.inl ⟨rfl, ?_, rfl, rfl, rfl⟩)⟩
      simp [countLoop, readFreq, respond, writeFreq, eodIndex]
    | byte b =>
      by_cases h : readFreq (byteIndex b) s = 0xFFFFFFFF
      · simp only [countLoop, if_pos h]
        refine ⟨_, rfl, rfl, .inr (List.suffix_cons _ _), .inr (.inr ⟨.inr ⟨rfl, rfl, ?_⟩, rfl, rfl⟩)⟩
        have := b.isLt
        simp only [raise, BitVec.toNat_setWidth]
        omega
      · simp only [countLoop, if_neg h]
        obtain ⟨t, ht, h1, h2, h3⟩ := ih (bumpBytecnt (writeFreq (byteIndex b) (readFreq (byteIndex b) s + 1)
          (byteTaken rest s)))
        refine ⟨t, ht, ?_, ?_, h3⟩
        · rw [h1]
          rfl
        · rcases h2 with h2 | h2
          · exact .inr (h2 ▸ List.suffix_cons _ _)
          · exact .inr (h2.trans (List.suffix_cons _ _))

/-! ### ENC -/

/-- Bits offered to a sink that accepts them all. -/
theorem emitBits_of_accepts (bs : List Bool) (s : State) (h : SinkAccepts s.bitSink bs.length) :
    emitBits bs s = .goOn { s with
      bitsOut := s.bitsOut ++ bs, bitcnt := s.bitcnt + BitVec.ofNat 64 bs.length
      bitSink := sinkAfter s.bitSink bs.length } := by
  induction bs generalizing s with
  | nil => simp [emitBits]
  | cons b bs ih =>
    rw [emitBits, bitOut_eq, h 0 (by simp)]
    simp only
    rw [ih _ (SinkAccepts.after (m := 1) (h.mono (by simp [Nat.add_comm])))]
    simp only [bumpBitcnt, List.append_assoc, List.cons_append, List.nil_append, sinkAfter_sinkAfter, List.length_cons]
    congr 2
    · exact counter_succ _ _
    · rw [Nat.add_comm]

/-- Bits offered to a sink that accepts `n` of them and then does not: E_IO(3), or a wait for ever. -/
theorem emitBits_of_stops (bs : List Bool) (n : Nat) (s : State) (hn : n < bs.length) (h : SinkAccepts s.bitSink n)
    (ha : sinkAnswer s.bitSink n ≠ .ok) :
    let u := { s with
      bitsOut := s.bitsOut ++ bs.take n, bitcnt := s.bitcnt + BitVec.ofNat 64 n, bitSink := sinkAfter s.bitSink (n + 1) }
    emitBits bs s = .ended (if sinkAnswer s.bitSink n = .err then raise .io 3 u else waitFor .bitSink u) := by
  induction bs generalizing n s with
  | nil => simp at hn
  | cons b bs ih =>
    cases n with
    | zero =>
      rw [emitBits, bitOut_eq]
      cases hk : sinkAnswer s.bitSink 0 <;> simp_all
    | succ n =>
      have hadd : sinkAnswer (sinkAfter s.bitSink 1) n = sinkAnswer s.bitSink (n + 1) := by
        rw [sinkAnswer_sinkAfter, Nat.add_comm]
      rw [emitBits, bitOut_eq, h 0 (by omega)]
      simp only
      have := ih n (bumpBitcnt { s with bitSink := sinkAfter s.bitSink 1, bitsOut := s.bitsOut ++ [b] })
        (by simpa using hn) (SinkAccepts.after (m := 1) (h.mono (by omega))) (by rw [← hadd] at ha; exact ha)
      have hc : s.bitcnt + 1 + BitVec.ofNat 64 n = s.bitcnt + BitVec.ofNat 64 (n + 1) := counter_succ _ _
      simp only [bumpBitcnt, hadd, sinkAfter_sinkAfter, hc, List.append_assoc, List.cons_append, List.nil_append,
        Nat.add_comm 1] at this
      exact this

/-- Everything the bits of one code can do: an accepted prefix, then all accepted, E_IO(3), or a wait for ever. -/
theorem emitBits_frame (bs : List Bool) (s : State) :
    (∃ k, emitBits bs s = .goOn { s with
        bitSink := k, bitsOut := s.bitsOut ++ bs, bitcnt := s.bitcnt + BitVec.ofNat 64 bs.length }) ∨
    (∃ k n, n < bs.length ∧ (emitBits bs s = .ended (raise .io 3 { s with
        bitSink := k, bitsOut := s.bitsOut ++ bs.take n, bitcnt := s.bitcnt + BitVec.ofNat 64 n }) ∨
      emitBits bs s = .ended (waitFor .bitSink { s with
        bitSink := k, bitsOut := s.bitsOut ++ bs.take n, bitcnt := s.bitcnt + BitVec.ofNat 64 n }))) := by
  induction bs generalizing s with
  | nil => exact .inl ⟨s.bitSink, by simp [emitBits]⟩
  | cons b bs ih =>
    rcases bitOut_cases b s with ⟨k, hk⟩ | ⟨k, hk⟩ | ⟨k, hk⟩
    · rw [emitBits, hk]
      simp only
      rcases ih (bumpBitcnt { s with bitSink := k, bitsOut := s.bitsOut ++ [b] }) with
        ⟨k', h⟩ | ⟨k', n, hn, h⟩
      · refine .inl ⟨k', h.trans ?_⟩
        simp [bumpBitcnt, counter_succ]
      · refine .inr ⟨k', n + 1, by simpa using hn, h.imp (fun h => h.trans ?_) (fun h => h.trans ?_)⟩ <;>
          simp [bumpBitcnt, counter_succ]
    · exact .inr ⟨k, 0, by simp, .inl (by rw [emitBits, hk]; simp)⟩
    · exact .inr ⟨k, 0, by simp, .inr (by rw [emitBits, hk]; simp)⟩

/-- The code of one symbol that has one, into a sink that accepts. -/
theorem emit_of_accepts {i : TableIndex} {s : State} (hc : (readCode i s).len ≠ 0)
    (h : SinkAccepts s.bitSink (codeString (readCode i s)).length) :
    emit i s = .goOn { s with
      bitsOut := s.bitsOut ++ codeString (readCode i s)
      bitcnt := s.bitcnt + BitVec.ofNat 64 (codeString (readCode i s)).length
      bitSink := sinkAfter s.bitSink (codeString (readCode i s)).length } := by
  rw [emit, if_neg hc, emitBits_of_accepts _ _ h]

/-- ENC over bytes that have codes, into a sink that accepts. -/
theorem encLoop_bytes (bs : List Byte) (tail : List ByteAnswer) (s : State)
    (hsrc : s.byteSource = bs.map ByteAnswer.byte ++ tail) (hc : ∀ b ∈ bs, (readCode (byteIndex b) s).len ≠ 0)
    (h : SinkAccepts s.bitSink (encoded s bs).length) :
    encLoop (bs.map ByteAnswer.byte ++ tail) s = encLoop tail { s with
      bitsOut := s.bitsOut ++ encoded s bs, bitcnt := s.bitcnt + BitVec.ofNat 64 (encoded s bs).length
      bytecnt := s.bytecnt + BitVec.ofNat 64 bs.length, byteSource := tail
      bitSink := sinkAfter s.bitSink (encoded s bs).length } := by
  induction bs generalizing s with
  | nil =>
    simp only [List.map_nil, List.nil_append] at hsrc
    simp [encoded, ← hsrc]
  | cons b bs ih =>
    have hb : (readCode (byteIndex b) (byteTaken (bs.map ByteAnswer.byte ++ tail) s)).len ≠ 0 := hc b (by simp)
    simp only [List.map_cons, List.cons_append, encLoop]
    have henc : encoded s (b :: bs) = codeString (readCode (byteIndex b) s) ++ encoded s bs := by simp [encoded]
    rw [henc, List.length_append] at h
    rw [emit_of_accepts hb (h.mono (Nat.le_add_right _ _))]
    simp only
    rw [ih]
    · have h1 : ∀ (x : Counter) (m n : Nat), x + BitVec.ofNat 64 m + BitVec.ofNat 64 n = x + BitVec.ofNat 64 (m + n) :=
        fun x m n => by rw [BitVec.ofNat_add, BitVec.add_assoc]
      rw [henc]
      simp only [bumpBytecnt, byteTaken, List.append_assoc, List.length_append, List.length_cons, sinkAfter_sinkAfter, h1]
      congr 2
      rw [Nat.add_comm, BitVec.ofNat_add, ← BitVec.add_assoc]
      rfl
    · rfl
    · exact fun c hcm => hc c (by simp [hcm])
    · exact h.after

/-- What the loops of ENC leave alone, and how they end. -/
def EncEnds (l : List ByteAnswer) (s t : State) : Prop :=
  t = { s with
        bitsOut := t.bitsOut, bitSink := t.bitSink, bitcnt := t.bitcnt, bytecnt := t.bytecnt
        byteSource := t.byteSource, fault := t.fault, errcode := t.errcode, errinfo := t.errinfo, port := t.port } ∧
  (t.byteSource = s.byteSource ∨ t.byteSource <:+ l) ∧ s.bitsOut <+: t.bitsOut ∧
  (((t.port = .waiting .byteSource ∨ t.port = .waiting .bitSink ∨ t.port = .responding ⟨.ok, 0⟩) ∧
    t.fault = s.fault ∧ t.errcode = s.errcode ∧ t.errinfo = s.errinfo) ∨
   ((t.port = .responding ⟨.fault .io, 0⟩ ∧ t.errcode = 8 ∧ (t.errinfo = 0 ∨ t.errinfo = 3) ∨
     t.port = .responding ⟨.fault .nocode, 0⟩ ∧ t.errcode = 11 ∧ t.errinfo.toNat ≤ 256) ∧ t.fault = true))

/-- Everything one symbol's code can do. -/
theorem emit_frame (i : TableIndex) (s : State) :
    (∃ u, emit i s = .goOn u ∧ u = { s with bitsOut := u.bitsOut, bitSink := u.bitSink, bitcnt := u.bitcnt } ∧
      s.bitsOut <+: u.bitsOut) ∨
    (∃ u, emit i s = .ended u ∧ EncEnds s.byteSource s u) := by
  unfold emit
  split
  · refine .inr ⟨_, rfl, rfl, .inl rfl, List.prefix_refl _, .inr ⟨.inr ⟨rfl, rfl, ?_⟩, rfl⟩⟩
    have := i.isLt
    simp only [raise, BitVec.toNat_ofNat]
    omega
  · rcases emitBits_frame (codeString (readCode i s)) s with ⟨k, h⟩ | ⟨k, n, -, h | h⟩
    · exact .inl ⟨_, h, rfl, List.prefix_append _ _⟩
    · exact .inr ⟨_, h, rfl, .inl rfl, List.prefix_append _ _, .inr ⟨.inl ⟨rfl, rfl, .inr rfl⟩, rfl⟩⟩
    · exact .inr ⟨_, h, rfl, .inl rfl, List.prefix_append _ _, .inl ⟨.inr (.inl rfl), rfl, rfl, rfl⟩⟩

/-- Everything ENC's loop can do. -/
theorem encLoop_frame (l : List ByteAnswer) (s : State) : EncEnds l s (encLoop l s) := by
  induction l generalizing s with
  | nil => exact ⟨rfl, .inl rfl, List.prefix_refl _, .inl ⟨.inl rfl, rfl, rfl, rfl⟩⟩
  | cons a rest ih =>
    have hsuf : rest <:+ a :: rest := List.suffix_cons _ _
    cases a with
    | err => exact ⟨rfl, .inr hsuf, List.prefix_refl _, .inr ⟨.inl ⟨rfl, rfl, .inl rfl⟩, rfl⟩⟩
    | eof =>
      rcases emit_frame eodIndex (byteTaken rest s) with ⟨u, hu, hf, hp⟩ | ⟨u, hu, hf, hs, hp, he⟩
      · simp only [encLoop, hu]
        refine ⟨?_, .inr ?_, hp, .inl ⟨.inr (.inr rfl), ?_, ?_, ?_⟩⟩
        · rw [hf]; rfl
        · rw [hf]; exact hsuf
        all_goals rw [hf]; rfl
      · simp only [encLoop, hu]
        refine ⟨?_, .inr ?_, hp, he⟩
        · rw [hf]; rfl
        · rcases hs with hs | hs
          · rw [hs]; exact hsuf
          · exact hs.trans hsuf
    | byte b =>
      rcases emit_frame (byteIndex b) (byteTaken rest s) with ⟨u, hu, hf, hp⟩ | ⟨u, hu, hf, hs, hp, he⟩
      · simp only [encLoop, hu]
        obtain ⟨h1, h2, h3, h4⟩ := ih (bumpBytecnt u)
        generalize encLoop rest (bumpBytecnt u) = t at *
        refine ⟨?_, .inr ?_, hp.trans h3, ?_⟩
        · rw [h1, hf]; rfl
        · rcases h2 with h2 | h2
          · rw [h2, bumpBytecnt_byteSource, hf]; exact hsuf
          · exact h2.trans hsuf
        · have e1 : (bumpBytecnt u).fault = s.fault := by rw [hf]; rfl
          have e2 : (bumpBytecnt u).errcode = s.errcode := by rw [hf]; rfl
          have e3 : (bumpBytecnt u).errinfo = s.errinfo := by rw [hf]; rfl
          rwa [e1, e2, e3] at h4
      · simp only [encLoop, hu]
        refine ⟨?_, .inr ?_, hp, he⟩
        · rw [hf]; rfl
        · rcases hs with hs | hs
          · rw [hs]; exact hsuf
          · exact hs.trans hsuf

/-! ### DEC -/

theorem isLeaf_iff {e : Node} : e.isLeaf = false ↔ e.sym = .internal := by
  simp [Node.isLeaf]

/-- DEC along a path of internal nodes: it goes on at the node the path leads to. -/
theorem decLoop_descend (p : List Bool) (tail : List BitAnswer) (s : State) (n : NodeIndex) (e : Node)
    (hsrc : s.bitSource = p.map BitAnswer.bit ++ tail) (hd : descend s s.cur p = some n)
    (he : treeNode n s = some e) (hint : p = [] ∨ e.sym = .internal) :
    decLoop (p.map BitAnswer.bit ++ tail) s = decLoop tail { s with
      cur := n, bitcnt := s.bitcnt + BitVec.ofNat 64 p.length, bitSource := tail } := by
  induction p generalizing s with
  | nil =>
    simp only [List.map_nil, List.nil_append] at hsrc
    simp only [descend, Option.some.injEq] at hd
    simp [← hsrc, ← hd]
  | cons b p ih =>
    replace hint : e.sym = .internal := by simpa using hint
    simp only [descend] at hd
    cases hc : treeNode s.cur s with
    | none => simp [hc] at hd
    | some f =>
      simp only [hc] at hd
      cases hf : f.isLeaf with
      | true => simp [hf] at hd
      | false =>
        simp only [hf, Bool.false_eq_true, if_false] at hd
        set u := bumpBitcnt (bitTaken (p.map BitAnswer.bit ++ tail) s) with hu
        have hcu : treeNode u.cur u = some f := hc
        simp only [List.map_cons, List.cons_append, decLoop, ← hu]
        rw [show child u.cur b u = .to (if b then f.right else f.left) by simp [child, hcu, hf]]
        simp only
        set c := if b then f.right else f.left
        have hd' : descend { u with cur := c } c p = some n :=
          (descend_congr (s := s) (t := { u with cur := c }) rfl rfl c p).trans hd
        have hte : treeNode n { u with cur := c } = some e :=
          (treeNode_congr (s := s) (t := { u with cur := c }) n rfl rfl).trans he
        have hnode : ∃ g, treeNode c { u with cur := c } = some g ∧ g.sym = .internal := by
          cases p with
          | nil =>
            simp only [descend, Option.some.injEq] at hd'
            subst hd'
            exact ⟨e, hte, hint⟩
          | cons b' p' =>
            simp only [descend] at hd'
            cases hg : treeNode c { u with cur := c } with
            | none => simp [hg] at hd'
            | some g =>
              refine ⟨g, rfl, ?_⟩
              cases hgl : g.isLeaf with
              | true => simp [hg, hgl] at hd'
              | false => exact isLeaf_iff.mp hgl
        obtain ⟨g, hg, hgs⟩ := hnode
        rw [hg]
        simp only [hgs]
        rw [ih { u with cur := c } rfl hd' hte (.inr hint)]
        congr 1
        simp only [hu, bumpBitcnt, bitTaken, List.length_cons]
        congr 1
        exact counter_succ _ _

/-- What DEC's loop leaves alone, and how it ends. -/
def DecEnds (l : List BitAnswer) (s t : State) : Prop :=
  t = { s with
        bytesOut := t.bytesOut, byteSink := t.byteSink, bitcnt := t.bitcnt, bytecnt := t.bytecnt, cur := t.cur
        bitSource := t.bitSource, fault := t.fault, errcode := t.errcode, errinfo := t.errinfo, port := t.port } ∧
  (t.bitSource = s.bitSource ∨ t.bitSource <:+ l) ∧ s.bytesOut <+: t.bytesOut ∧
  (((t.port = .waiting .bitSource ∨ t.port = .waiting .byteSink ∨
     (t.port = .responding ⟨.ok, 0⟩ ∧ ∃ e, treeNode t.cur t = some e ∧ e.sym = .endOfData)) ∧
    t.fault = s.fault ∧ t.errcode = s.errcode ∧ t.errinfo = s.errinfo) ∨
   ((t.port = .responding ⟨.fault .io, 0⟩ ∧ t.errcode = 8 ∧ (t.errinfo = 1 ∨ t.errinfo = 2) ∨
     t.port = .responding ⟨.fault .trunc, 0⟩ ∧ t.errcode = 10 ∧ t.errinfo = 0 ∨
     t.port = .responding ⟨.fault .corrupt, 0⟩ ∧ t.errcode = 12 ∧ t.errinfo = 0) ∧ t.fault = true))

theorem DecEnds.of_cons {a : BitAnswer} {rest : List BitAnswer} {s u t : State} (h : DecEnds rest u t)
    (hu : u = { s with
        bytesOut := u.bytesOut, byteSink := u.byteSink, bitcnt := u.bitcnt, bytecnt := u.bytecnt, cur := u.cur
        bitSource := rest }) (hp : s.bytesOut <+: u.bytesOut) : DecEnds (a :: rest) s t := by
  obtain ⟨h1, h2, h3, h4⟩ := h
  have hsuf : rest <:+ a :: rest := List.suffix_cons _ _
  refine ⟨?_, .inr ?_, hp.trans h3, ?_⟩
  · rw [h1, hu]
  · rcases h2 with h2 | h2
    · rw [h2, hu]; exact hsuf
    · exact h2.trans hsuf
  · have e1 : u.fault = s.fault := by rw [hu]
    have e2 : u.errcode = s.errcode := by rw [hu]
    have e3 : u.errinfo = s.errinfo := by rw [hu]
    rwa [e1, e2, e3] at h4

/-- Everything DEC's loop can do. -/
theorem decLoop_frame (l : List BitAnswer) (s : State) :
    decLoop l s = .fault .noSuchNode ∨ ∃ t, decLoop l s = .next t ∧ DecEnds l s t := by
  induction l generalizing s with
  | nil => exact .inr ⟨_, rfl, rfl, .inl rfl, List.prefix_refl _, .inl ⟨.inl rfl, rfl, rfl, rfl⟩⟩
  | cons a rest ih =>
    have hsuf : rest <:+ a :: rest := List.suffix_cons _ _
    cases a with
    | err =>
      exact .inr ⟨_, rfl, rfl, .inr hsuf, List.prefix_refl _, .inr ⟨.inl ⟨rfl, rfl, .inr rfl⟩, rfl⟩⟩
    | eof =>
      exact .inr ⟨_, rfl, rfl, .inr hsuf, List.prefix_refl _, .inr ⟨.inr (.inl ⟨rfl, rfl, rfl⟩), rfl⟩⟩
    | bit b =>
      simp only [decLoop]
      rcases child (bumpBitcnt (bitTaken rest s)).cur b (bumpBitcnt (bitTaken rest s)) with c | - | -
      · simp only
        cases hn : treeNode c { bumpBitcnt (bitTaken rest s) with cur := c } with
        | none => exact .inl rfl
        | some e =>
          simp only
          cases hs : e.sym with
          | internal =>
            exact (ih _).imp id fun ⟨t, ht, h⟩ => ⟨t, ht, h.of_cons rfl (List.prefix_refl _)⟩
          | endOfData =>
            exact .inr ⟨_, rfl, rfl, .inr hsuf, List.prefix_refl _,
              .inl ⟨.inr (.inr ⟨rfl, e, hn, hs⟩), rfl, rfl, rfl⟩⟩
          | byte v =>
            rcases byteOut_cases v { bumpBitcnt (bitTaken rest s) with cur := c } with ⟨k, hk⟩ | ⟨k, hk⟩ | ⟨k, hk⟩
            · simp only [hk]
              exact (ih _).imp id fun ⟨t, ht, h⟩ => ⟨t, ht, h.of_cons rfl (List.prefix_append _ _)⟩
            · simp only [hk]
              exact .inr ⟨_, rfl, rfl, .inr hsuf, List.prefix_refl _,
                .inr ⟨.inl ⟨rfl, rfl, .inl rfl⟩, rfl⟩⟩
            · simp only [hk]
              exact .inr ⟨_, rfl, rfl, .inr hsuf, List.prefix_refl _, .inl ⟨.inr (.inl rfl), rfl, rfl, rfl⟩⟩
      · exact .inr ⟨_, rfl, rfl, .inr hsuf, List.prefix_refl _, .inr ⟨.inr (.inr ⟨rfl, rfl, rfl⟩), rfl⟩⟩
      · exact .inl rfl

end Sys2Proof.Machine
end

