-- ==== Sys2Proof/Laws/Words.lean ====
section
/-! SUPPORT. The fields of an assembled word, and a word as the assembly of its fields (spec/30_encoding.md R91, R94). -/

namespace Sys2Proof

@[simp] theorem opField_assemble (op : OpNumber) (a b : Operand) : opField (assemble op a b) = op := by
  ext i hi
  simp only [opField, assemble, BitVec.getElem_extractLsb', BitVec.getLsbD_or, BitVec.getLsbD_shiftLeft,
    BitVec.getLsbD_setWidth]
  have ha : a.getLsbD (24 + i - 12) = false := BitVec.getLsbD_of_ge _ _ (by omega)
  have hb : b.getLsbD (24 + i) = false := BitVec.getLsbD_of_ge _ _ (by omega)
  simp [ha, hb, hi, show 24 + i < 32 by omega, show i < 32 by omega]

@[simp] theorem aField_assemble (op : OpNumber) (a b : Operand) : aField (assemble op a b) = a := by
  ext i hi
  simp only [aField, assemble, BitVec.getElem_extractLsb', BitVec.getLsbD_or, BitVec.getLsbD_shiftLeft,
    BitVec.getLsbD_setWidth]
  simp [hi, show 12 + i < 24 by omega, show 12 + i < 32 by omega, show i < 32 by omega]

@[simp] theorem bField_assemble (op : OpNumber) (a b : Operand) : bField (assemble op a b) = b := by
  ext i hi
  simp only [bField, assemble, BitVec.getElem_extractLsb', BitVec.getLsbD_or, BitVec.getLsbD_shiftLeft,
    BitVec.getLsbD_setWidth]
  simp [hi, show i < 32 by omega, show i < 24 by omega, show 0 + i = i by omega]

/-- A word is the assembly of its fields. -/
theorem assemble_fields (w : Word) : assemble (opField w) (aField w) (bField w) = w := by
  apply BitVec.eq_of_getLsbD_eq
  intro i hi
  simp only [opField, aField, bField, assemble, BitVec.getLsbD_or, BitVec.getLsbD_shiftLeft, BitVec.getLsbD_setWidth,
    BitVec.getLsbD_extractLsb', hi]
  by_cases h1 : i < 12
  · simp [h1, show i < 24 by omega]
  · by_cases h2 : i < 24
    · simp [h1, h2, show i - 12 < 12 by omega, show 12 + (i - 12) = i by omega, show i - 12 < 32 by omega]
    · simp [h1, h2, show i - 24 < 8 by omega, show ¬ i - 12 < 12 by omega, show 24 + (i - 24) = i by omega,
        show i - 24 < 32 by omega]

/-- Two words with the same fields are the same word. -/
theorem word_ext {v w : Word} (ho : opField v = opField w) (ha : aField v = aField w) (hb : bField v = bField w) :
    v = w := by
  rw [← assemble_fields v, ← assemble_fields w, ho, ha, hb]

/-- Masking a word masks its fields. -/
theorem assemble_and (o o' : OpNumber) (a a' b b' : Operand) :
    assemble o a b &&& assemble o' a' b' = assemble (o &&& o') (a &&& a') (b &&& b') := by
  have field : ∀ (k n : Nat) (v w : Word), (v &&& w).extractLsb' k n = v.extractLsb' k n &&& w.extractLsb' k n := by
    intro k n v w
    ext i hi
    simp
  have ho := opField_assemble o a b
  have ho' := opField_assemble o' a' b'
  have ha := aField_assemble o a b
  have ha' := aField_assemble o' a' b'
  have hb := bField_assemble o a b
  have hb' := bField_assemble o' a' b'
  apply word_ext
  · rw [opField_assemble]; simp only [opField] at *; rw [field, ho, ho']
  · rw [aField_assemble]; simp only [aField] at *; rw [field, ha, ha']
  · rw [bField_assemble]; simp only [bField] at *; rw [field, hb, hb']

end Sys2Proof
end

