-- ==== Sys2Proof/Laws/PerInstr.lean ====
section
/-! SUPPORT. Per command: its assembled word is one of its row of the opcode map (spec/30_encoding.md R93, R94). -/

namespace Sys2Proof.Laws.MatchesTable

/-- The command's word matches the row of the opcode map that has its mnemonic. -/
def Statement (i : Instr) : Prop :=
  ∃ r ∈ opcodeMap, r.mnemonic = i.mnemonic ∧ r.matches (encode i).word = true

/-- A row whose mask has 0 for A matches whatever A is. -/
theorem row_matches (op : OpNumber) (a : Operand) (r : OpcodeRow) (hm : r.maskBits = assemble 0xFF 0 0xFFF)
    (hv : r.matchBits = assemble op 0 0) : r.matches (assemble op a 0) = true := by
  rw [OpcodeRow.matches, hm, hv, assemble_and]
  have h1 : op &&& 0xFF#8 = op := by ext i hi; simp only [BitVec.getElem_and]; interval_cases i <;> simp
  simp [h1]

/-- A row whose mask has 0 for A and B matches whatever they are. -/
theorem row_matches_ab (op : OpNumber) (a b : Operand) (r : OpcodeRow) (hm : r.maskBits = assemble 0xFF 0 0)
    (hv : r.matchBits = assemble op 0 0) : r.matches (assemble op a b) = true := by
  rw [OpcodeRow.matches, hm, hv, assemble_and]
  have h1 : op &&& 0xFF#8 = op := by ext i hi; simp only [BitVec.getElem_and]; interval_cases i <;> simp
  simp [h1]

theorem nop : Statement .nop := ⟨⟨"NOP", 0x00000000, 0xFFFFFFFF⟩, by decide, by decide, by decide⟩
theorem clr : Statement .clr := ⟨⟨"CLR", 0x01000000, 0xFFFFFFFF⟩, by decide, by decide, by decide⟩
theorem ftw (a : Operand) (wdata : Word) : Statement (.ftw a wdata) :=
  ⟨⟨"FTW", 0x10000000, 0xFF000FFF⟩, by decide, rfl, row_matches 0x10 a _ (by decide) (by decide)⟩
theorem ftr (a : Operand) : Statement (.ftr a) :=
  ⟨⟨"FTR", 0x11000000, 0xFF000FFF⟩, by decide, rfl, row_matches 0x11 a _ (by decide) (by decide)⟩
theorem count : Statement .count := ⟨⟨"COUNT", 0x12000000, 0xFFFFFFFF⟩, by decide, by decide, by decide⟩
theorem build : Statement .build := ⟨⟨"BUILD", 0x20000000, 0xFFFFFFFF⟩, by decide, by decide, by decide⟩
theorem ndr (a b : Operand) : Statement (.ndr a b) :=
  ⟨⟨"NDR", 0x21000000, 0xFF000000⟩, by decide, rfl, row_matches_ab 0x21 a b _ (by decide) (by decide)⟩
theorem free : Statement .free := ⟨⟨"FREE", 0x22000000, 0xFFFFFFFF⟩, by decide, by decide, by decide⟩
theorem gen : Statement .gen := ⟨⟨"GEN", 0x30000000, 0xFFFFFFFF⟩, by decide, by decide, by decide⟩
theorem ctr (a b : Operand) : Statement (.ctr a b) :=
  ⟨⟨"CTR", 0x31000000, 0xFF000000⟩, by decide, rfl, row_matches_ab 0x31 a b _ (by decide) (by decide)⟩
theorem enc : Statement .enc := ⟨⟨"ENC", 0x40000000, 0xFFFFFFFF⟩, by decide, by decide, by decide⟩
theorem dec : Statement .dec := ⟨⟨"DEC", 0x50000000, 0xFFFFFFFF⟩, by decide, by decide, by decide⟩
theorem csrr (a : Operand) : Statement (.csrr a) :=
  ⟨⟨"CSRR", 0x60000000, 0xFF000FFF⟩, by decide, rfl, row_matches 0x60 a _ (by decide) (by decide)⟩

end Sys2Proof.Laws.MatchesTable
end

