-- ==== Sys2Proof/Laws/TreeBuild.lean ====
section
/-! SUPPORT. What BUILD's parts do: leaf allocation and the merge steps keep a forest whose roots are the queue
(spec/41_tree_build.md R141 to R145). -/

namespace Sys2Proof.Machine

/-- The weight of an arena entry as a number. -/
def weightAt (s : State) (n : Nat) : Nat :=
  match arenaNode n s with
  | some e => e.weight.toNat
  | none => 0

theorem weightAt_eq {s : State} {n : Nat} {e : Node} (h : arenaNode n s = some e) : weightAt s n = e.weight.toNat := by
  simp [weightAt, h]

theorem queueWeight_toNat (n : NodeIndex) (s : State) : (queueWeight n s).toNat = weightAt s n.toNat := by
  unfold queueWeight weightAt; split <;> simp_all

theorem before_iff_weightAt {m n : NodeIndex} {s : State} : before m n s = true ↔
    weightAt s m.toNat < weightAt s n.toNat ∨
    (weightAt s m.toNat = weightAt s n.toNat ∧ m.toNat < n.toNat) := by
  rw [before_iff, queueWeight_toNat, queueWeight_toNat]

theorem toNat_ofNat10 {n : Nat} (h : n < 1024) : (BitVec.ofNat 10 n).toNat = n := by
  rw [BitVec.toNat_ofNat]; omega

@[simp] theorem leafNode_congr (i : TableIndex) (s : State) (v : Vector Node 513) (q : List NodeIndex) :
    leafNode i { s with node := v, pq := q } = leafNode i s := rfl

/-- Leaf allocation writes one leaf per listed entry from index `n` on, and queues their indices in that order. -/
theorem allocLeaves_spec (l : List TableIndex) (n : Nat) (s : State) (h : n + l.length ≤ 513) :
    allocLeaves l n s = { s with
      node := (allocLeaves l n s).node
      pq := s.pq ++ (List.range' n l.length).map (BitVec.ofNat 10) } ∧
    (∀ m, m < n ∨ n + l.length ≤ m → arenaNode m (allocLeaves l n s) = arenaNode m s) ∧
    (∀ k (hk : k < l.length), arenaNode (n + k) (allocLeaves l n s) = some (leafNode l[k] s)) := by
  induction l generalizing n s with
  | nil => simp [allocLeaves]
  | cons i is ih =>
    simp only [List.length_cons] at h
    obtain ⟨h1, h2, h3⟩ := ih (n + 1) (pqInsert (BitVec.ofNat 10 n) (writeNode n (leafNode i s) s)) (by omega)
    have hw : ∀ m, arenaNode m (pqInsert (BitVec.ofNat 10 n) (writeNode n (leafNode i s) s)) =
        if n = m then some (leafNode i s) else arenaNode m s := fun m => arenaNode_writeNode m n _ s (by omega)
    simp only [allocLeaves]
    refine ⟨?_, ?_, ?_⟩
    · rw [h1]
      simp [pqInsert, writeNode, List.range'_succ]
    · intro m hm
      simp only [List.length_cons] at hm
      rw [h2 m (by omega), hw, if_neg (by omega)]
    · intro k hk
      cases k with
      | zero =>
        rw [h2 _ (by omega), hw]
        simp
      | succ k =>
        have := h3 k (by simpa using hk)
        rw [show n + (k + 1) = n + 1 + k by omega, this]
        rfl

/-- The child indices of the internal nodes L, ..., n - 1. -/
def childrenBelow (L n : Nat) (s : State) : List Nat :=
  (List.range' L (n - L)).flatMap fun m =>
    match arenaNode m s with
    | some e => [e.left.toNat, e.right.toNat]
    | none => []

/-- What holds between merge steps, with `L` leaves, arena entries below `n` in use, and `base` the state after leaf
allocation: a forest whose roots are the queue. -/
structure Forest (base : State) (L n total : Nat) (s : State) : Prop where
  frame : s = { base with node := s.node, pq := s.pq }
  leaves_pos : 1 ≤ L
  leaves_le : L ≤ 257
  used_ge : L ≤ n
  queue_length : s.pq.length + n = 2 * L
  queue_nonempty : s.pq ≠ []
  queue_nodup : s.pq.Nodup
  queue_lt : ∀ m ∈ s.pq, m.toNat < n
  leaf_nodes : ∀ m, m < L → arenaNode m s = arenaNode m base
  internal_nodes : ∀ m, L ≤ m → m < n → ∃ e, arenaNode m s = some e ∧ e.sym = .internal ∧ e.left.toNat < m ∧
    e.right.toNat < m ∧ e.left ≠ e.right ∧ before e.left e.right s = true ∧
    weightAt s m = weightAt s e.left.toNat + weightAt s e.right.toNat
  parents : ∀ k, k < n → (childrenBelow L n s).count k = if BitVec.ofNat 10 k ∈ s.pq then 0 else 1
  total_weight : (s.pq.map fun m => weightAt s m.toNat).sum = total
  weights_pos : ∀ m, m < n → 0 < weightAt s m
  increasing : ∀ m, L ≤ m → m + 1 < n → weightAt s m ≤ weightAt s (m + 1)
  last_le : ∀ m e, L ≤ m → m + 1 = n → arenaNode m s = some e → ∀ q ∈ s.pq, weightAt s e.right.toNat ≤ weightAt s q.toNat

theorem Forest.used_le {base : State} {L n total : Nat} {s : State} (h : Forest base L n total s) : n + 1 ≤ 2 * L := by
  have := h.queue_length
  have := List.length_pos_iff.mpr h.queue_nonempty
  omega

/-- The number and the weights of the children are read off the arena below `n`. -/
theorem childrenBelow_congr {L n : Nat} {s t : State} (h : ∀ m, m < n → arenaNode m t = arenaNode m s) :
    childrenBelow L n t = childrenBelow L n s := by
  unfold childrenBelow
  apply List.flatMap_congr
  intro m hm
  rw [List.mem_range'_1] at hm
  rw [h m (by omega)]

theorem childrenBelow_succ {L n : Nat} {s : State} {e : Node} (hL : L ≤ n) (h : arenaNode n s = some e) :
    childrenBelow L (n + 1) s = childrenBelow L n s ++ [e.left.toNat, e.right.toNat] := by
  unfold childrenBelow
  rw [show n + 1 - L = (n - L) + 1 by omega, List.range'_concat, List.flatMap_append]
  simp [show L + (n - L) = n by omega, h]

/-- Indices in the queue below 1024 are told apart by their numbers. -/
theorem ofNat_mem_iff {l : List NodeIndex} {k : Nat} (hk : k < 1024) : BitVec.ofNat 10 k ∈ l ↔ ∃ m ∈ l, m.toNat = k := by
  constructor
  · intro h; exact ⟨_, h, toNat_ofNat10 hk⟩
  · rintro ⟨m, hm, rfl⟩
    rwa [BitVec.ofNat_toNat, BitVec.setWidth_eq]

/-- One merge step on a forest of two trees or more is a forest with one tree less. -/
theorem mergeStep_forest {base : State} {L n total : Nat} {s : State} (h : Forest base L n total s)
    (hmore : n + 1 < 2 * L) (htotal : total < 2 ^ 64) :
    ∃ s', mergeStep n s = some s' ∧ Forest base L (n + 1) total s' := by
  have hlen := h.queue_length
  have hle := h.leaves_le
  -- the two pops
  obtain ⟨a, hla, hpa⟩ := pqPop_cases h.queue_nonempty
  obtain ⟨ha, hamin⟩ := pqLeast_some hla
  have hal := List.length_erase_of_mem ha
  have hne : s.pq.erase a ≠ [] := by
    intro he
    rw [he] at hal
    simp at hal
    omega
  obtain ⟨b, hlb, hpb⟩ := pqPop_cases (s := { s with pq := s.pq.erase a }) hne
  obtain ⟨hb, hbmin⟩ := pqLeast_some hlb
  simp only at hb hbmin hpb
  have hbl := List.length_erase_of_mem hb
  obtain ⟨hba, hbq⟩ := (h.queue_nodup.mem_erase_iff).mp hb
  have hbmin' : ∀ m ∈ s.pq, m ≠ a → m ≠ b → before b m s = true := by
    intro m hm h1 h2
    have := hbmin m ((h.queue_nodup.mem_erase_iff).mpr ⟨h1, hm⟩) h2
    rwa [before_congr (s := s) (t := { s with pq := s.pq.erase a }) rfl] at this
  have hab : before a b s = true := hamin b hbq hba
  have han := h.queue_lt a ha
  have hbn := h.queue_lt b hbq
  -- the state after the step
  let s2 : State := { s with pq := (s.pq.erase a).erase b }
  let e : Node := internalNode a b s2
  let s' : State := pqInsert (BitVec.ofNat 10 n) (writeNode n e s2)
  have hstep : mergeStep n s = some s' := by
    simp only [mergeStep, hpa, hpb]
    rfl
  have hnode : ∀ m, arenaNode m s' = if n = m then some e else arenaNode m s :=
    fun m => arenaNode_writeNode m n e s2 (by omega)
  have hold : ∀ m, m ≠ n → arenaNode m s' = arenaNode m s := fun m hm => by rw [hnode, if_neg (Ne.symm hm)]
  have hnew : arenaNode n s' = some e := by rw [hnode, if_pos rfl]
  have hwold : ∀ m, m ≠ n → weightAt s' m = weightAt s m := fun m hm => by simp [weightAt, hold m hm]
  have hqw : ∀ m : NodeIndex, m.toNat ≠ n → (queueWeight m s') = queueWeight m s := by
    intro m hm
    simp [queueWeight, hold _ hm]
  have hbefore : ∀ m k : NodeIndex, m.toNat ≠ n → k.toNat ≠ n → before m k s' = before m k s := by
    intro m k hm hk
    simp [before, hqw m hm, hqw k hk]
  have hpq : s'.pq = (s.pq.erase a).erase b ++ [BitVec.ofNat 10 n] := rfl
  have hnd1 : (s.pq.erase a).Nodup := h.queue_nodup.erase a
  have hmem2 : ∀ m, m ∈ (s.pq.erase a).erase b ↔ m ≠ b ∧ m ≠ a ∧ m ∈ s.pq := fun m => by
    rw [hnd1.mem_erase_iff, h.queue_nodup.mem_erase_iff]
  have hnn : (BitVec.ofNat 10 n).toNat = n := toNat_ofNat10 (by omega)
  -- weights
  have hsum : (((s.pq.erase a).erase b).map fun m => weightAt s m.toNat).sum + weightAt s b.toNat + weightAt s a.toNat
      = total := by
    have h1 := List.sum_map_erase (fun m : NodeIndex => weightAt s m.toNat) ha
    have h2 := List.sum_map_erase (fun m : NodeIndex => weightAt s m.toNat) hb
    have := h.total_weight
    omega
  have hwn : weightAt s' n = weightAt s a.toNat + weightAt s b.toNat := by
    rw [weightAt_eq hnew]
    show (queueWeight a s2 + queueWeight b s2).toNat = _
    rw [BitVec.toNat_add, queueWeight_toNat, queueWeight_toNat]
    show (weightAt s a.toNat + weightAt s b.toNat) % 2 ^ 64 = _
    omega
  have hle_ab : weightAt s a.toNat ≤ weightAt s b.toNat := by
    have := before_iff_weightAt.mp hab
    omega
  refine ⟨s', hstep, ?_⟩
  constructor
  · -- frame
    have key : ∀ (v : Vector Node 513) (q : List NodeIndex),
        ({ s with node := v, pq := q } : State) = { base with node := v, pq := q } := by
      intro v q
      rw [h.frame]
    exact key _ _
  · exact h.leaves_pos
  · exact h.leaves_le
  · exact Nat.le_succ_of_le h.used_ge
  · rw [hpq]
    simp only [List.length_append, List.length_cons, List.length_nil]
    omega
  · rw [hpq]; simp
  · -- queue_nodup
    rw [hpq, List.nodup_append]
    refine ⟨hnd1.erase b, by simp, ?_⟩
    intro m hm k hk
    rw [List.mem_singleton] at hk
    subst hk
    intro heq
    have := h.queue_lt m ((hmem2 m).mp hm).2.2
    rw [heq, hnn] at this
    omega
  · -- queue_lt
    intro m hm
    rw [hpq, List.mem_append, List.mem_singleton] at hm
    rcases hm with hm | rfl
    · have := h.queue_lt m ((hmem2 m).mp hm).2.2
      omega
    · omega
  · -- leaf_nodes
    intro m hm
    rw [hold m (by have := h.used_ge; omega)]
    exact h.leaf_nodes m hm
  · -- internal_nodes
    intro m hLm hmn
    by_cases hm : m = n
    · subst hm
      refine ⟨e, hnew, rfl, han, hbn, Ne.symm hba, ?_, ?_⟩
      · exact (hbefore a b (by omega) (by omega)).trans hab
      · show weightAt s' m = weightAt s' a.toNat + weightAt s' b.toNat
        rw [hwn, hwold _ (by omega), hwold _ (by omega)]
    · obtain ⟨f, hf, h1, h2, h3, h4, h5, h6⟩ := h.internal_nodes m hLm (by omega)
      refine ⟨f, by rw [hold m hm, hf], h1, h2, h3, h4, ?_, ?_⟩
      · exact (hbefore _ _ (by omega) (by omega)).trans h5
      · rw [hwold m hm, hwold _ (by omega), hwold _ (by omega), h6]
  · -- parents
    intro k hk
    have hc : childrenBelow L (n + 1) s' = childrenBelow L n s ++ [a.toNat, b.toNat] := by
      rw [childrenBelow_succ h.used_ge hnew, childrenBelow_congr (fun m hm => hold m (by omega))]
      rfl
    rw [hc, List.count_append]
    have habn : a.toNat ≠ b.toNat := fun he => hba (BitVec.eq_of_toNat_eq he.symm)
    by_cases hkn : k = n
    · subst hkn
      have h0 : (childrenBelow L k s).count k = 0 := by
        rw [List.count_eq_zero]
        intro hm
        unfold childrenBelow at hm
        rw [List.mem_flatMap] at hm
        obtain ⟨m, hm1, hm2⟩ := hm
        rw [List.mem_range'_1] at hm1
        obtain ⟨f, hf, -, h2, h3, -⟩ := h.internal_nodes m hm1.1 (by omega)
        rw [hf] at hm2
        simp at hm2
        omega
      rw [h0, hpq]
      simp [show a.toNat ≠ k by omega, show b.toNat ≠ k by omega]
    · have hp := h.parents k (by omega)
      rw [hp, hpq]
      have hk10 : k < 1024 := by omega
      have hin : BitVec.ofNat 10 k ∈ (s.pq.erase a).erase b ++ [BitVec.ofNat 10 n] ↔
          k ≠ b.toNat ∧ k ≠ a.toNat ∧ BitVec.ofNat 10 k ∈ s.pq := by
        rw [List.mem_append, hmem2, List.mem_singleton]
        have e1 : BitVec.ofNat 10 k ≠ BitVec.ofNat 10 n := by
          intro he
          have := congrArg BitVec.toNat he
          rw [toNat_ofNat10 hk10, hnn] at this
          exact hkn this
        have e2 : ∀ m : NodeIndex, BitVec.ofNat 10 k ≠ m ↔ k ≠ m.toNat := by
          intro m
          rw [not_iff_not]
          constructor
          · rintro rfl; exact (toNat_ofNat10 hk10).symm
          · rintro rfl; rw [BitVec.ofNat_toNat, BitVec.setWidth_eq]
        simp [e1, e2]
      simp only [hin]
      by_cases hka : k = a.toNat
      · simp [hka, habn.symm, ha]
      · by_cases hkb : k = b.toNat
        · simp [hkb, habn, hbq]
        · simp [hka, hkb, Ne.symm hka, Ne.symm hkb]
  · -- total_weight
    rw [hpq, List.map_append, List.sum_append]
    have : (((s.pq.erase a).erase b).map fun m => weightAt s' m.toNat) =
        ((s.pq.erase a).erase b).map fun m => weightAt s m.toNat := by
      apply List.map_congr_left
      intro m hm
      exact hwold _ (by have := h.queue_lt m ((hmem2 m).mp hm).2.2; omega)
    rw [this]
    simp only [List.map_cons, List.map_nil, List.sum_cons, List.sum_nil, hnn, hwn]
    omega
  · -- weights_pos
    intro m hm
    by_cases hmn : m = n
    · subst hmn
      rw [hwn]
      have := h.weights_pos a.toNat han
      omega
    · rw [hwold m hmn]
      exact h.weights_pos m (by omega)
  · -- increasing
    intro m hLm hm
    rw [hwold m (by omega)]
    by_cases hmn : m + 1 = n
    · rw [hmn, hwn]
      obtain ⟨f, hf, -, -, -, -, h5, h6⟩ := h.internal_nodes m hLm (by omega)
      have hr := h.last_le m f hLm hmn hf
      have h1 := hr a ha
      have h2 := hr b hbq
      have := before_iff_weightAt.mp h5
      omega
    · rw [hwold _ hmn]
      exact h.increasing m hLm (by omega)
  · -- last_le
    intro m f hLm hm hf q hq
    have hmn : m = n := by omega
    subst hmn
    rw [hnew] at hf
    cases hf
    show weightAt s' b.toNat ≤ _
    rw [hwold _ (by omega)]
    rw [hpq, List.mem_append, List.mem_singleton] at hq
    rcases hq with hq | rfl
    · obtain ⟨q1, q2, q3⟩ := (hmem2 q).mp hq
      rw [hwold _ (by have := h.queue_lt q q3; omega)]
      have := before_iff_weightAt.mp (hbmin' q q3 q2 q1)
      omega
    · rw [hnn, hwn]
      omega

/-- The merge steps end with a forest of one tree. -/
theorem mergeLoop_forest {base : State} {L total : Nat} (htotal : total < 2 ^ 64) (k n : Nat) (s : State)
    (h : Forest base L n total s) (hk : n + k + 1 = 2 * L) :
    ∃ s', mergeLoop k n s = some s' ∧ Forest base L (2 * L - 1) total s' := by
  induction k generalizing n s with
  | zero =>
    refine ⟨s, rfl, ?_⟩
    rwa [show 2 * L - 1 = n by omega]
  | succ k ih =>
    obtain ⟨s1, h1, h2⟩ := mergeStep_forest h (by omega) htotal
    obtain ⟨s2, h3, h4⟩ := ih (n + 1) s1 h2 (by omega)
    exact ⟨s2, by simp [mergeLoop, h1, h3], h4⟩

/-! ### The table BUILD starts from -/

/-- The counts as a list over the indices. -/
theorem freq_toList (s : State) :
    s.freq.toList.map BitVec.toNat = (List.finRange 257).map fun i => (readFreq i s).toNat := by
  apply List.ext_getElem
  · simp
  · intro i h1 h2
    simp [readFreq]

/-- The counts of the entries add up to the counts of the table. -/
theorem entries_sum (s : State) :
    ((entries s).map fun i => (readFreq i s).toNat).sum = (s.freq.toList.map BitVec.toNat).sum := by
  rw [freq_toList, ← List.sum_toFinset _ (entries_nodup s), ← Fin.sum_univ_def]
  apply Finset.sum_subset (Finset.subset_univ _)
  intro i _ hi
  have : readFreq i s = 0 := by
    by_contra h
    exact hi (List.mem_toFinset.mpr (mem_entries.mpr h))
  simp [this]

/-- No table's counts add up to 2^41 (41_tree_build.md R148). -/
theorem total_lt (s : State) : (s.freq.toList.map BitVec.toNat).sum < 2 ^ 41 := by
  have h := List.sum_le_card_nsmul (s.freq.toList.map BitVec.toNat) (2 ^ 32 - 1) (by
    intro x hx
    obtain ⟨c, -, rfl⟩ := List.mem_map.mp hx
    have := c.isLt
    omega)
  simp only [List.length_map, Vector.length_toList, smul_eq_mul] at h
  omega

/-- Leaf allocation of a table with an entry gives a forest of single leaves. -/
theorem allocLeaves_forest (s : State) (hne : entries s ≠ []) (hq : s.pq = []) (lc : BitVec 9) :
    Forest { allocLeaves (entries s) 0 s with leafcnt := lc } (entries s).length (entries s).length
      (s.freq.toList.map BitVec.toNat).sum { allocLeaves (entries s) 0 s with leafcnt := lc } := by
  have hle := entries_length_le s
  have hpos := List.length_pos_iff.mpr hne
  obtain ⟨h1, -, h3⟩ := allocLeaves_spec (entries s) 0 s (by omega)
  have hpq : (allocLeaves (entries s) 0 s).pq = (List.range' 0 (entries s).length).map (BitVec.ofNat 10) := by
    rw [h1, hq]; rfl
  have hw : ∀ k (hk : k < (entries s).length), weightAt (allocLeaves (entries s) 0 s) k =
      (readFreq (entries s)[k] s).toNat := by
    intro k hk
    have := h3 k hk
    rw [Nat.zero_add] at this
    rw [weightAt_eq this]
    simp only [leafNode, BitVec.toNat_setWidth]
    have := (readFreq (entries s)[k] s).isLt
    omega
  have hw' : ∀ k, weightAt { allocLeaves (entries s) 0 s with leafcnt := lc } k =
      weightAt (allocLeaves (entries s) 0 s) k := fun _ => rfl
  constructor
  · rfl
  · exact hpos
  · exact hle
  · exact le_rfl
  · simp only [hpq, List.length_map, List.length_range']; omega
  · rw [← List.length_pos_iff]
    simp only [hpq, List.length_map, List.length_range']
    omega
  · simp only [hpq]
    rw [List.nodup_map_iff_inj_on (List.nodup_range' ..)]
    intro x hx y hy hxy
    rw [List.mem_range'_1] at hx hy
    have := congrArg BitVec.toNat hxy
    rwa [toNat_ofNat10 (by omega), toNat_ofNat10 (by omega)] at this
  · intro m hm
    simp only [hpq, List.mem_map] at hm
    obtain ⟨k, hk, rfl⟩ := hm
    rw [List.mem_range'_1] at hk
    rw [toNat_ofNat10 (by omega)]
    omega
  · exact fun _ _ => rfl
  · intro m h h'; omega
  · intro k hk
    have hin : BitVec.ofNat 10 k ∈ (allocLeaves (entries s) 0 s).pq := by
      rw [hpq]
      exact List.mem_map.mpr ⟨k, by rw [List.mem_range'_1]; omega, rfl⟩
    simp [childrenBelow, hin]
  · simp only [hpq, List.map_map]
    rw [← entries_sum]
    congr 1
    apply List.ext_getElem
    · simp
    · intro i h1 h2
      have hi : i < (entries s).length := by simpa using h2
      simp only [List.getElem_map, List.getElem_range', Function.comp, Nat.zero_add, Nat.one_mul]
      rw [toNat_ofNat10 (by omega)]
      exact hw i hi
  · intro m hm
    rw [hw', hw m hm]
    have : readFreq (entries s)[m] s ≠ 0 := mem_entries.mp (List.getElem_mem hm)
    have : (readFreq (entries s)[m] s).toNat ≠ 0 := fun h => this (BitVec.eq_of_toNat_eq (by simpa using h))
    omega
  · intro m h h'; omega
  · intro m e h h'; omega

/-- A forest of one tree: the queue holds the last node allocated, which is the root (41_tree_build.md R145). -/
theorem Forest.queue_eq {base : State} {L total : Nat} {s : State} (h : Forest base L (2 * L - 1) total s) :
    s.pq = [BitVec.ofNat 10 (2 * L - 2)] := by
  have hpos := h.leaves_pos
  have hle := h.leaves_le
  have hlen : s.pq.length = 1 := by have := h.queue_length; omega
  have hin : BitVec.ofNat 10 (2 * L - 2) ∈ s.pq := by
    by_contra hn
    have hp := h.parents (2 * L - 2) (by omega)
    rw [if_neg hn] at hp
    have : 2 * L - 2 ∈ childrenBelow L (2 * L - 1) s := List.count_pos_iff.mp (by omega)
    unfold childrenBelow at this
    rw [List.mem_flatMap] at this
    obtain ⟨m, hm1, hm2⟩ := this
    rw [List.mem_range'_1] at hm1
    obtain ⟨f, hf, -, h2, h3, -⟩ := h.internal_nodes m hm1.1 (by omega)
    rw [hf] at hm2
    simp at hm2
    omega
  obtain ⟨r, hr⟩ := List.length_eq_one_iff.mp hlen
  rw [hr] at hin ⊢
  rw [List.mem_singleton] at hin
  rw [hin]

/-- A finished forest over the leaves of a valid table, with the tree's registers written, is a tree with BUILD's laws. -/
theorem Forest.treeLaws {base s t : State} {L : Nat}
    (h : Forest base L (2 * L - 1) (t.freq.toList.map BitVec.toNat).sum s) (hnode : t.node = s.node)
    (hleafcnt : t.leafcnt.toNat = L) (hnodecnt : t.nodecnt.toNat = 2 * L - 1) (hroot : t.root.toNat = 2 * L - 2)
    (hL : (entries t).length = L)
    (hleaves : ∀ k (hk : k < (entries t).length), arenaNode k base = some (leafNode (entries t)[k] t))
    (hvalid : readFreq eodIndex t ≠ 0) : TreeLaws t := by
  have hpos := h.leaves_pos
  have hle := h.leaves_le
  have hq := h.queue_eq
  have hn : ∀ m, arenaNode m t = arenaNode m s := fun m => by simp [arenaNode, hnode]
  have hw : ∀ m, weightAt t m = weightAt s m := fun m => by simp [weightAt, hn]
  have hleaf : ∀ k (hk : k < (entries t).length), arenaNode k t = some (leafNode (entries t)[k] t) := by
    intro k hk
    rw [hn, h.leaf_nodes k (by omega), hleaves k hk]
  have hinner := h.internal_nodes
  have hmono : ∀ m n, L ≤ m → m ≤ n → n < 2 * L - 1 → weightAt s m ≤ weightAt s n := by
    intro m n hLm hmn hn'
    induction n, hmn using Nat.le_induction with
    | base => exact le_rfl
    | succ n hmn ih => exact (ih (by omega)).trans (h.increasing n (by omega) (by omega))
  refine ⟨⟨by omega, by omega, by omega, by omega, ?_, ?_, ?_, ?_⟩, hvalid, ?_, ?_, ?_, ?_, ?_, ?_, ?_⟩
  · -- leaf_nodes
    intro n hlt
    refine ⟨_, hleaf n (by omega), ?_, rfl, rfl⟩
    simp [Node.isLeaf, leafNode, symbolAt_ne_internal]
  · -- leaves_ascending
    intro m n hmn hlt e f he hf
    rw [hleaf m (by omega)] at he
    rw [hleaf n (by omega)] at hf
    cases he; cases hf
    rw [BitVec.lt_def]
    show (symbolAt _).number.toNat < (symbolAt _).number.toNat
    rw [symbolAt_number, symbolAt_number]
    exact List.pairwise_iff_getElem.mp (entries_ascending t) m n (by omega) (by omega) hmn
  · -- internal_nodes
    intro n hLn hlt
    obtain ⟨e, he, h1, h2, h3, h4, -, -⟩ := hinner n (by omega) (by omega)
    exact ⟨e, by rw [hn, he], h1, h2, h3, h4⟩
  · -- one_parent
    intro k hk
    have hp := h.parents k (by omega)
    have hc : childIndices t = childrenBelow L (2 * L - 1) s := by
      unfold childIndices childrenBelow
      rw [hleafcnt, show 2 * L - 1 - L = L - 1 by omega]
      simp only [hn] <;> rfl
    rw [hc, hp, if_neg]
    rw [hq, List.mem_singleton]
    intro he
    have := congrArg BitVec.toNat he
    rw [toNat_ofNat10 (by omega), toNat_ofNat10 (by omega)] at this
    omega
  · -- leaf_of_entry
    intro i hi
    obtain ⟨k, hk, hki⟩ := List.getElem_of_mem (mem_entries.mpr hi)
    exact ⟨k, _, by omega, hleaf k hk, by rw [hki]; rfl⟩
  · -- entry_of_leaf
    intro n e hlt he
    rw [hleaf n (by omega)] at he
    cases he
    refine ⟨_, rfl, mem_entries.mp (List.getElem_mem (by omega)), ?_⟩
    simp only [leafNode, BitVec.toNat_setWidth]
    have := (readFreq (entries t)[n] t).isLt
    omega
  · -- weight_sum
    intro n e l r hLn hlt he hl hr
    obtain ⟨f, hf, -, -, -, -, -, h6⟩ := hinner n (by omega) (by omega)
    rw [hn, hf] at he
    cases he
    rw [hn] at hl hr
    rwa [weightAt_eq hf, weightAt_eq hl, weightAt_eq hr] at h6
  · -- root_weight
    intro e he
    have ht := h.total_weight
    rw [hq] at ht
    simp only [List.map_cons, List.map_nil, List.sum_cons, List.sum_nil, Nat.add_zero] at ht
    rw [toNat_ofNat10 (by omega), ← hroot, ← hw, weightAt_eq he] at ht
    exact ht
  · -- weights_ordered
    intro m n e f hLm hmn hlt he hf
    rw [← weightAt_eq he, ← weightAt_eq hf, hw, hw]
    exact hmono m n (by omega) hmn (by omega)
  · -- children_ordered
    intro n e hLn hlt he
    obtain ⟨f, hf, -, -, -, -, h5, -⟩ := hinner n (by omega) (by omega)
    rw [hn, hf] at he
    cases he
    rwa [before_congr hnode]
  · -- weights_pos
    intro n e hlt he
    rw [← weightAt_eq he, hw]
    exact h.weights_pos n (by omega)

end Sys2Proof.Machine
end

