-- ==== Sys2Proof/Machine/Asm.lean ====
section
/-! DEFINITION. The textual form of commands (spec/30_encoding.md R104), the pseudo-instructions (R105) and the compress and
decompress sequences (45_system.md R234, R235), as the host actions they spell. Nothing of the machine depends on this file. -/

namespace Sys2Proof.Machine

/-- The tokens of a line. -/
inductive Token where
  | word (cs : List Char)
  | character (c : Char)
  | text (cs : List Char)
  | mark (c : Char)
deriving DecidableEq, Repr

/-- A finished word, if one has been read. -/
def flushWord (acc : List Char) (ts : List Token) : List Token :=
  if acc.isEmpty then ts else .word acc.reverse :: ts

/-- The tokens of a line: `quote` is the text being read inside quotation marks, `acc` the word being read, both last
character first. A `;` starts a comment. -/
def lexLine : List Char → (quote : Option (List Char)) → (acc : List Char) → Option (List Token)
  | [], none, acc => some (flushWord acc [])
  | [], some _, _ => none
  | '"' :: cs, some q, _ => (lexLine cs none []).map (.text q.reverse :: ·)
  | c :: cs, some q, acc => lexLine cs (some (c :: q)) acc
  | ';' :: _, none, acc => some (flushWord acc [])
  | '\'' :: c :: '\'' :: cs, none, acc => (lexLine cs none []).map fun ts => flushWord acc (.character c :: ts)
  | '"' :: cs, none, acc => (lexLine cs (some []) []).map (flushWord acc)
  | c :: cs, none, acc =>
    if c.isAlphanum || c == '_' then lexLine cs none (c :: acc)
    else if c.isWhitespace then (lexLine cs none []).map (flushWord acc)
    else if c == ',' || c == '<' || c == '>' || c == ':' then
      (lexLine cs none []).map fun ts => flushWord acc (.mark c :: ts)
    else none

/-- The value of a digit. -/
def digitValue (c : Char) : Option Nat :=
  if '0' ≤ c && c ≤ '9' then some (c.toNat - '0'.toNat)
  else if 'A' ≤ c && c ≤ 'F' then some (c.toNat - 'A'.toNat + 10)
  else if 'a' ≤ c && c ≤ 'f' then some (c.toNat - 'a'.toNat + 10)
  else none

/-- The digits of a number in a base, after the value `v` of the digits before them. -/
def digits (base : Nat) : List Char → Nat → Option Nat
  | [], v => some v
  | c :: cs, v =>
    match digitValue c with
    | some d => if d < base then digits base cs (base * v + d) else none
    | none => none

/-- `number := decimal | "0x" hexadecimal` (R104). -/
def numberOf : List Char → Option Nat
  | '0' :: 'x' :: c :: cs => digits 16 (c :: cs) 0
  | c :: cs => digits 10 (c :: cs) 0
  | [] => none

/-- A number that fits a field of `w` bits. -/
def fit (w : Nat) (n : Option Nat) : Option (BitVec w) :=
  match n with
  | some n => if n < 2 ^ w then some (BitVec.ofNat w n) else none
  | none => none

/-- A list of names and the numbers they stand for. -/
def named (names : List (String × Nat)) (cs : List Char) : Option Nat :=
  match names.find? fun p => p.1.toList == cs with
  | some p => some p.2
  | none => numberOf cs

/-- `sym := number | "'" character "'" | "EOD"` (R104). -/
def symToken : Token → Option Operand
  | .word cs => fit 12 (named [("EOD", 256)] cs)
  | .character c => if 32 ≤ c.toNat && c.toNat ≤ 126 then fit 12 (some c.toNat) else none
  | _ => none

/-- The names of the NDR fields (R101). -/
def fieldNames : List (String × Nat) := [("SYM", 0), ("WLO", 1), ("WHI", 2), ("LEFT", 3), ("RIGHT", 4)]

/-- The names of the registers (R103). -/
def csrNames : List (String × Nat) :=
  [("ID", 0), ("STATUS", 1), ("ERRINFO", 2), ("LEAFCNT", 3), ("NODECNT", 4), ("ROOT", 5), ("CUR", 6),
   ("BITCNT_LO", 7), ("BITCNT_HI", 8), ("BYTECNT_LO", 9), ("BYTECNT_HI", 10)]

/-- `command` and what follows it on the line (R104). -/
def commandTokens : List Token → Option (Instr × List Token)
  | .word m :: ts =>
    match String.ofList m, ts with
    | "NOP", _ => some (.nop, ts)
    | "CLR", _ => some (.clr, ts)
    | "COUNT", _ => some (.count, ts)
    | "BUILD", _ => some (.build, ts)
    | "FREE", _ => some (.free, ts)
    | "GEN", _ => some (.gen, ts)
    | "ENC", _ => some (.enc, ts)
    | "DEC", _ => some (.dec, ts)
    | "FTW", s :: .mark ',' :: .word n :: rest =>
      match symToken s, fit 32 (numberOf n) with
      | some a, some c => some (.ftw a c, rest)
      | _, _ => none
    | "FTR", s :: rest => (symToken s).map fun a => (.ftr a, rest)
    | "NDR", .word n :: .mark ',' :: .word f :: rest =>
      match fit 12 (numberOf n), fit 12 (named fieldNames f) with
      | some a, some b => some (.ndr a b, rest)
      | _, _ => none
    | "CTR", s :: .mark ',' :: .word k :: rest =>
      match symToken s, fit 12 (named [("LEN", 8)] k) with
      | some a, some b => some (.ctr a b, rest)
      | _, _ => none
    | "CSRR", .word r :: rest => (fit 12 (named csrNames r)).map fun a => (.csrr a, rest)
    | _, _ => none
  | _ => none

/-- The byte items of a stream annotation, and its terminator: two hexadecimal digits each, or quoted ASCII (R104). -/
def byteItems : List Token → Option (List ByteAnswer)
  | [.word ['E', 'n', 'd'], .mark '>'] => some [.eof]
  | [.word ['E', 'r', 'r'], .mark '>'] => some [.err]
  | .word [h, l] :: ts =>
    match digits 16 [h, l] 0, byteItems ts with
    | some n, some rest => some (.byte (BitVec.ofNat 8 n) :: rest)
    | _, _ => none
  | .text cs :: ts => (byteItems ts).map (cs.map (fun c => .byte (BitVec.ofNat 8 c.toNat)) ++ ·)
  | _ => none

/-- The bit items of a stream annotation, and its terminator: a quoted bit string (R104). -/
def bitItems : List Token → Option (List BitAnswer)
  | [.word ['E', 'n', 'd'], .mark '>'] => some [.eof]
  | [.word ['E', 'r', 'r'], .mark '>'] => some [.err]
  | .text cs :: ts =>
    if cs.all fun c => c == '0' || c == '1' then (bitItems ts).map (cs.map (fun c => .bit (c == '1')) ++ ·) else none
  | _ => none

/-- `stream := "<" kind ":" items terminator ">"` (R104), as the host's repositioning of that source; no annotation is no
action. -/
def streamTokens : List Token → Option (List HostAct)
  | [] => some []
  | .mark '<' :: .word k :: .mark ':' :: ts =>
    if k == "bytes".toList then (byteItems ts).map fun l => [.byteSource l]
    else if k == "bits".toList then (bitItems ts).map fun l => [.bitSource l]
    else none
  | _ => none

/-- What the host does to issue a command: offer its word, take its response (20_memory.md R76). -/
def issue (i : Instr) : List HostAct := [.send (encode i).word (encode i).wdata, .take]

/-- One line of a program (R104): its stream annotation says what the source delivers to the line's command. -/
def lineActs (line : String) : Option (List HostAct) :=
  match lexLine line.toList none [] with
  | none => none
  | some ts =>
    match commandTokens ts with
    | some (i, rest) => (streamTokens rest).map (· ++ issue i)
    | none => streamTokens ts

/-- A command of a sequence, with the arming of its stream where it has one. -/
structure Order where
  arm     : Option HostAct
  command : Instr
deriving DecidableEq, Repr

/-- A command that reads no source the sequence delivers. -/
def plain (i : Instr) : Order := ⟨none, i⟩

/-- COUNT or ENC over one pass of the source: its bytes, then End. -/
def overBytes (x : List Byte) (i : Instr) : Order := ⟨some (.byteSource (x.map ByteAnswer.byte ++ [.eof])), i⟩

/-- DEC over a bit source. -/
def overBits (y : List BitAnswer) (i : Instr) : Order := ⟨some (.bitSource y), i⟩

/-- The commands in order; "if a command of an expansion returns rc != 0 the host stops issuing the rest" (R105): each
response that is not OK leaves out everything up to the end of the sequence. -/
def guarded : List Order → List HostAct
  | [] => []
  | o :: os =>
    let later := guarded os
    o.arm.toList ++ .send (encode o.command).word (encode o.command).wdata :: .takeOk later.length :: later

/-- The commands of `LOADFT` (R105). -/
def loadOrders (table : List (Operand × Word)) : List Order := table.map fun p => plain (.ftw p.1 p.2)

/-- `LOADFT s1:c1, s2:c2, ...` (R105). -/
def loadft (table : List (Operand × Word)) : List HostAct := guarded (loadOrders table)

/-- `COMPRESS <bytes: X End>` (R105). -/
def compress (x : List Byte) : List HostAct :=
  guarded [plain .clr, overBytes x .count, plain .build, plain .gen, plain .free, overBytes x .enc]

/-- `DECOMPRESS t <bits: Y ...>` (R105). -/
def decompress (table : List (Operand × Word)) (y : List BitAnswer) : List HostAct :=
  guarded (plain .clr :: loadOrders table ++ [plain .build, overBits y .dec, plain .clr])

/-- One invocation: its commands up to the first that fails, then in either case its end (the failure reported and what the
sinks received discarded, or what they received kept) and the closing CLR (45_system.md R234; 70_reset_and_hazards.md
R288). -/
def invocation (orders : List Order) : List HostAct := guarded orders ++ .conclude :: issue .clr

/-- `FTR 0 .. FTR 256`: the host reads the table for the header (45_system.md R234). -/
def readTable : List Order := (List.range 257).map fun k => plain (.ftr (BitVec.ofNat 12 k))

/-- The compress sequence of 45_system.md R234, with or without the optional FREE; the FTR reads stand where the rule's
listing has them. -/
def compressSequence (x : List Byte) (free : Bool) : List HostAct :=
  invocation <| [plain .clr, overBytes x .count, plain .build, plain .gen] ++ (if free then [plain .free] else []) ++
    readTable ++ [overBytes x .enc, plain (.csrr 7), plain (.csrr 8)]

/-- The decompress sequence of 45_system.md R235; what the host does on a failure is the row "after rc in 8..13" of
70_reset_and_hazards.md R288. -/
def decompressSequence (table : List (Operand × Word)) (y : List BitAnswer) : List HostAct :=
  invocation (plain .clr :: loadOrders table ++ [plain .build, overBits y .dec])

end Sys2Proof.Machine
end

