-- ==== Sys2Proof/Tests/Slice0.lean ====
section
/-! SUPPORT. Tests of the model against spec/95_test_vectors.md and 30_encoding.md, and one witness for the hypotheses of
each statement of Certificates/Slice0/Obligations.lean. Expected values stand in the spec; each test names its source. -/

namespace Sys2Proof.Machine.Tests

/-! ### Small states and readings of an outcome -/

/-- The state a command leads to; `s` itself where it leads to none. -/
def after (i : Instr) (s : State) : State :=
  match exec i s with
  | .next t => t
  | _ => s

/-- The port of the state a command leads to. -/
def portOf (r : Result) : Option Port :=
  match r with
  | .next t => some t.port
  | _ => none

/-- A command that leads to a state with this port leads to `after`. -/
theorem next_of_portOf {i : Instr} {s : State} {p : Port} (h : portOf (exec i s) = some p) :
    exec i s = .next (after i s) ∧ (after i s).port = p := by
  unfold after
  cases he : exec i s <;> simp_all [portOf]

def answered (d : Word) : Option Port := some (.responding ⟨.ok, d⟩)
def refused (r : RefusalKind) : Option Port := some (.responding ⟨.refusal r, 0⟩)
def faulted (f : FaultKind) : Option Port := some (.responding ⟨.fault f, 0⟩)

/-- The byte answers of an ASCII text. -/
def bytes (t : String) : List Byte := t.toList.map fun c => BitVec.ofNat 8 c.toNat

/-- The bits of a text of zeros and ones. -/
def bits (t : String) : List Bool := t.toList.map (· == '1')

/-- A source of these bytes, then End. -/
def source (t : String) : List ByteAnswer := (bytes t).map .byte ++ [.eof]

/-- A source of these bits, then End. -/
def bitsOf (t : String) : List BitAnswer := (bits t).map .bit ++ [.eof]

/-- The table of V-TB-2. -/
def tableState : State := writeFreq (byteIndex 97#8) 4 (writeFreq eodIndex 1 State.reset)

/-- The tree of V-TB-2, written out from its listing. -/
def treeState : State :=
  { tableState with
    node := ((State.reset.node.set 0 ⟨.byte 97#8, 4, 0x3FF, 0x3FF⟩).set 1 ⟨.endOfData, 1, 0x3FF, 0x3FF⟩).set 2
      ⟨.internal, 5, 1, 0⟩
    leafcnt := 2, nodecnt := 3, root := 2, treeV := true }

/-- The tree of V-TB-2 with the map of V-CG-2: 'a' = "1", EOD = "0". -/
def bothState : State :=
  { treeState with code := (State.reset.code.set 97 ⟨1, 1⟩).set 256 ⟨1, 0⟩, codeV := true }

/-- The table of V-TB-3, all weights equal. -/
def tieState : State :=
  writeFreq (byteIndex 97#8) 1 (writeFreq (byteIndex 98#8) 1 (writeFreq eodIndex 1 State.reset))

/-- The tree of V-TB-1, one leaf. -/
def oneLeaf : State :=
  { writeFreq eodIndex 1 State.reset with
    node := State.reset.node.set 0 ⟨.endOfData, 1, 0x3FF, 0x3FF⟩, leafcnt := 1, nodecnt := 1, root := 0, treeV := true }

/-- The faulted state after V-TB-11, first case. -/
def faultState : State := { State.reset with fault := true, errcode := 9, errinfo := 0 }

/-! ### Ill-formed terms (30_encoding.md R93): each check refuses one, and the machine refuses each -/

theorem test_wellFormed_ftw : (Instr.ftw 257 1).wellFormed = false ∧ (Instr.ftw 256 1).wellFormed = true := by decide
theorem test_wellFormed_ftr : (Instr.ftr 257).wellFormed = false ∧ (Instr.ftr 256).wellFormed = true := by decide
theorem test_wellFormed_ndr : (Instr.ndr 513 0).wellFormed = false ∧ (Instr.ndr 512 5).wellFormed = false ∧
    (Instr.ndr 512 4).wellFormed = true := by decide
theorem test_wellFormed_ctr : (Instr.ctr 257 0).wellFormed = false ∧ (Instr.ctr 256 9).wellFormed = false ∧
    (Instr.ctr 256 8).wellFormed = true := by decide
theorem test_wellFormed_csrr : (Instr.csrr 11).wellFormed = false ∧ (Instr.csrr 10).wellFormed = true := by decide

/-! ### Decoding, one word per command written out from 30_encoding.md R91, R93: OP 31:24, A 23:12, B 11:0 -/

theorem test_decode_nop : decode 0b00000000000000000000000000000000#32 7 = .ok .nop := rfl
theorem test_decode_clr : decode 0b00000001000000000000000000000000#32 7 = .ok .clr := rfl
theorem test_decode_ftw : decode 0b00010000000001100001000000000000#32 4 = .ok (.ftw 97 4) := rfl
theorem test_decode_ftr : decode 0b00010001000100000000000000000000#32 7 = .ok (.ftr 256) := rfl
theorem test_decode_count : decode 0b00010010000000000000000000000000#32 7 = .ok .count := rfl
theorem test_decode_build : decode 0b00100000000000000000000000000000#32 7 = .ok .build := rfl
theorem test_decode_ndr : decode 0b00100001001001011000000000001001#32 7 = .ok (.ndr 600 9) := rfl
theorem test_decode_free : decode 0b00100010000000000000000000000000#32 7 = .ok .free := rfl
theorem test_decode_gen : decode 0b00110000000000000000000000000000#32 7 = .ok .gen := rfl
theorem test_decode_ctr : decode 0b00110001000001100010000000001000#32 7 = .ok (.ctr 98 8) := rfl
theorem test_decode_enc : decode 0b01000000000000000000000000000000#32 7 = .ok .enc := rfl
theorem test_decode_dec : decode 0b01010000000000000000000000000000#32 7 = .ok .dec := rfl
theorem test_decode_csrr : decode 0b01100000000000000111000000000000#32 7 = .ok (.csrr 7) := rfl

/-- V-SY-2, V-SY-3, V-SY-4. -/
theorem test_decode_illegal : decode 0x00000001 0 = .error .operandB ∧ decode 0x00001000 0 = .error .operandA ∧
    decode 0x99000000 0 = .error (.unknownOp 0x99) ∧ decode 0x12000001 0 = .error .operandB ∧
    decode 0x11061001 0 = .error .operandB ∧ decode 0x10061001 0 = .error .operandB :=
  ⟨rfl, rfl, rfl, rfl, rfl, rfl⟩

/-- 30_encoding.md R94, the first example. -/
theorem test_encode_ftw : encode (.ftw 97 4) = ⟨0x10061000, 4⟩ := by decide

/-- `decodeTableWord` reads bit 0 as the least significant bit of the word. -/
theorem test_tableWord : decodeTableWord 32 0x21258009 = some (.ndr 600 9) ∧ decodeTableWord 32 0x99000000 = none := by
  decide

/-! ### Commands -/

/-- V-SY-1: NOP, in a faulted state as well. -/
theorem test_nop : portOf (exec .nop State.reset) = answered 0 ∧ portOf (exec .nop faultState) = answered 0 := by decide

/-- V-SY-19: CLR returns from a fault. -/
theorem test_clr : portOf (exec .clr faultState) = answered 0 ∧ statusWord (after .clr faultState) = 0 ∧
    (after .clr faultState).root = 0x3FF := by decide

/-- V-FT-1, V-FT-2. -/
theorem test_ftw : portOf (exec (.ftw 97 4) State.reset) = answered 0 ∧
    portOf (exec (.ftr 97) (after (.ftw 97 4) State.reset)) = answered 4 := by decide +kernel

/-- V-FT-6, V-SY-11, V-SY-16: the order of the checks. -/
theorem test_ftw_refused : portOf (exec (.ftw 257 1) State.reset) = refused .range ∧
    portOf (exec (.ftw 300 1) treeState) = refused .seq ∧ portOf (exec (.ftw 300 1) faultState) = refused .faulted := by
  decide +kernel

/-- V-FT-3, V-FT-7. -/
theorem test_ftr : portOf (exec (.ftr 98) tableState) = answered 0 ∧
    portOf (exec (.ftr 4095) tableState) = refused .range := by decide +kernel

/-- V-FT-12: COUNT clears first. -/
theorem test_count :
    let t := after .count { writeFreq (byteIndex 98#8) 7 State.reset with byteSource := source "a" }
    readFreq (byteIndex 97#8) t = 1 ∧ readFreq (byteIndex 98#8) t = 0 ∧ readFreq eodIndex t = 1 ∧ t.byteSource = [] := by
  decide +kernel

/-- V-FT-13: no partial table. -/
theorem test_count_err :
    let t := after .count { State.reset with byteSource := (bytes "ab").map .byte ++ [.err] }
    readFreq (byteIndex 97#8) t = 0 ∧ statusWord t = 0x84 ∧ t.errinfo = 0 ∧ t.bytecnt = 2 ∧ t.byteSource = [] := by
  decide +kernel

/-- V-TB-2: the tree of "aaaa". -/
theorem test_build :
    let t := after .build tableState
    t.root = 2 ∧ t.nodecnt = 3 ∧ t.leafcnt = 2 ∧ arenaNode 0 t = some ⟨.byte 97, 4, 0x3FF, 0x3FF⟩ ∧
    arenaNode 1 t = some ⟨.endOfData, 1, 0x3FF, 0x3FF⟩ ∧ arenaNode 2 t = some ⟨.internal, 5, 1, 0⟩ := by
  decide +kernel

/-- V-TB-3: ties go to the lower index. -/
theorem test_build_ties :
    let t := after .build tieState
    t.root = 4 ∧ arenaNode 3 t = some ⟨.internal, 2, 0, 1⟩ ∧ arenaNode 4 t = some ⟨.internal, 3, 2, 3⟩ := by
  decide +kernel

/-- V-SY-12, and the fields of V-TB-2's root. -/
theorem test_ndr : portOf (exec (.ndr 600 9) treeState) = refused .range ∧
    portOf (exec (.ndr 2 0) treeState) = answered 257 ∧ portOf (exec (.ndr 2 3) treeState) = answered 1 ∧
    portOf (exec (.ndr 2 4) treeState) = answered 0 := by decide +kernel

/-- V-EN-11's phase: FREE keeps the map. -/
theorem test_free : portOf (exec .free bothState) = answered 0 ∧ statusWord (after .free bothState) = 2 ∧
    readCode (byteIndex 97#8) (after .free bothState) = ⟨1, 1⟩ := by decide +kernel

/-- V-CG-2. -/
theorem test_gen : readCode (byteIndex 97#8) (after .gen treeState) = ⟨1, 1⟩ ∧
    readCode eodIndex (after .gen treeState) = ⟨1, 0⟩ ∧ (after .gen treeState).codeV = true := by decide +kernel

/-- V-CG-1: a root leaf has the code "0". -/
theorem test_gen_oneLeaf : readCode eodIndex (after .gen oneLeaf) = ⟨1, 0⟩ := by decide +kernel

/-- P1, commands 9 and 10. -/
theorem test_ctr : portOf (exec (.ctr 97 8) bothState) = answered 1 ∧ portOf (exec (.ctr 97 0) bothState) = answered 1 ∧
    portOf (exec (.ctr 97 9) bothState) = refused .range := by decide +kernel

/-- V-EN-2. -/
theorem test_enc :
    let t := after .enc { bothState with byteSource := source "aaaa" }
    t.port = .responding ⟨.ok, 0⟩ ∧ t.bitsOut = bits "11110" ∧ t.bitcnt = 5 ∧ t.bytecnt = 4 := by decide +kernel

/-- V-EN-8's rule: a byte without a code faults before any bit of it. -/
theorem test_enc_nocode :
    let t := after .enc { bothState with byteSource := source "aca" }
    t.port = .responding ⟨.fault .nocode, 0⟩ ∧ t.errinfo = 99 ∧ t.bitsOut = bits "1" ∧ t.byteSource = source "a" := by
  decide +kernel

/-- V-DE-4 with V-DE-7's rest left unread. -/
theorem test_dec :
    let t := after .dec { treeState with bitSource := bitsOf "11110111" }
    t.port = .responding ⟨.ok, 0⟩ ∧ t.bytesOut = bytes "aaaa" ∧ t.bitcnt = 5 ∧ t.cur = 1 ∧
    t.bitSource = bitsOf "111" := by decide +kernel

/-- V-DE-2, V-DE-3. -/
theorem test_dec_oneLeaf :
    let t := after .dec { oneLeaf with bitSource := bitsOf "1" }
    let u := after .dec { oneLeaf with bitSource := bitsOf "" }
    statusWord t = 0xC5 ∧ t.cur = 0 ∧ statusWord u = 0xA5 ∧ u.bitcnt = 0 := by decide +kernel

/-- V-SY-5, V-SY-8, and STATUS after V-TB-11. -/
theorem test_csrr : portOf (exec (.csrr 0) faultState) = answered 0x48554631 ∧
    portOf (exec (.csrr 11) State.reset) = refused .range ∧ portOf (exec (.csrr 1) faultState) = answered 0x94 := by
  decide

/-- 30_encoding.md R104: lines of the textual form. -/
theorem test_lines : lineActs "FTW 'a', 4 ; four" = some [.send 0x10061000 4, .take] ∧
    lineActs "CTR EOD, LEN" = some [.send 0x31100008 0, .take] ∧
    lineActs "COUNT <bytes: \"a\" 00 End>" = some [.byteSource [.byte 97, .byte 0, .eof], .send 0x12000000 0, .take] := by
  decide +kernel

/-- 45_system.md R234: the sequence's own listing, FTR 0 first, and what follows its last checked response. -/
theorem test_compressSequence :
    (compressSequence [0x61] true).take 3 = [.send 0x01000000 0, .takeOk 530, .byteSource [.byte 0x61, .eof]] ∧
    (compressSequence [0x61] true)[11]? = some (.send 0x11000000 0) ∧
    (compressSequence [0x61] true).drop 526 = [.send 0x40000000 0, .takeOk 4, .send 0x60007000 0, .takeOk 2,
      .send 0x60008000 0, .takeOk 0, .conclude, .send 0x01000000 0, .take] := by decide +kernel

/-- 45_system.md R234, 60_exceptions.md R268: a response that is not OK leaves out the rest; the failure is reported. -/
theorem test_host_stops :
    let s := { State.reset with
      port := .responding ⟨.fault .table, 0⟩, bitsOut := [true], script := [.takeOk 1, .send 0 0, .conclude] }
    let t := match step s with | .next t => t | _ => s
    let u := match step t with | .next u => u | _ => t
    t.script = [.conclude] ∧ u.outcomes = [.discarded (.failure .malformedHeader)] ∧ u.bitsEnded = 1 := by decide +kernel

/-- 60_exceptions.md R265: a fault, then a read that answers OK, then the end of the invocation: nothing is kept. -/
theorem test_host_fault_then_read :
    let s := { faultState with
      port := .responding ⟨.ok, 9⟩, bytesOut := [97], cause := some (.failure .badBitstream), script := [.take, .conclude] }
    let t := match step s with | .next t => t | _ => s
    let u := match step t with | .next u => u | _ => t
    u.outcomes = [.discarded (.failure .badBitstream)] ∧ u.cause = none := by decide +kernel

/-- 70_reset_and_hazards.md R288, row "reset": `rst` of a busy block, then the end of the invocation: nothing is kept. -/
theorem test_host_reset_busy :
    let s := { treeState with port := .waiting .bitSource, bytesOut := [97], script := [.reset, .conclude] }
    let t := match step s with | .next t => t | _ => s
    let u := match step t with | .next u => u | _ => t
    t.bytesOut = [97] ∧ u.outcomes = [.discarded .abandoned] := by decide +kernel

/-! ### Steps -/

/-- A word placed for the next step is the command that step runs. -/
theorem test_withFetchWord : step (State.reset.withFetchWord 32 0x60000000) = exec (.csrr 0) State.reset := by rfl

/-! ### Witnesses: the hypotheses of each statement, met at one concrete input, clause by clause -/

theorem arena_treeState : arenaNode 0 treeState = some ⟨.byte 97#8, 4, 0x3FF, 0x3FF⟩ ∧
    arenaNode 1 treeState = some ⟨.endOfData, 1, 0x3FF, 0x3FF⟩ ∧ arenaNode 2 treeState = some ⟨.internal, 5, 1, 0⟩ := by
  decide +kernel

/-- The tree of V-TB-2 has the shape of a built tree. -/
theorem shape_treeState : TreeShape treeState := by
  obtain ⟨h0, h1, h2⟩ := arena_treeState
  have hl : treeState.leafcnt.toNat = 2 := rfl
  have hn : treeState.nodecnt.toNat = 3 := rfl
  constructor
  · rw [hl]; omega
  · rw [hl]; omega
  · rw [hl, hn]
  · rfl
  · intro n h
    rw [hl] at h
    interval_cases n
    · exact ⟨_, h0, rfl, rfl, rfl⟩
    · exact ⟨_, h1, rfl, rfl, rfl⟩
  · intro m n hmn h e f he hf
    rw [hl] at h
    obtain ⟨rfl, rfl⟩ : m = 0 ∧ n = 1 := by omega
    rw [h0] at he
    rw [h1] at hf
    cases he
    cases hf
    decide
  · intro n h h'
    rw [hl] at h
    rw [hn] at h'
    obtain rfl : n = 2 := by omega
    exact ⟨_, h2, rfl, by decide, by decide, by decide⟩
  · decide +kernel

theorem freq_treeState : ∀ i : TableIndex, readFreq i treeState =
    if i.val = 97 then 4 else if i.val = 256 then 1 else 0 := by
  intro i
  simp only [treeState, tableState, readFreq, writeFreq, State.reset, byteIndex, eodIndex, Fin.getElem_fin,
    Vector.getElem_set, Vector.getElem_replicate]
  simp [eq_comm]

/-- The tree of V-TB-2 has the laws of BUILD. -/
theorem laws_treeState : TreeLaws treeState := by
  obtain ⟨h0, h1, h2⟩ := arena_treeState
  have hl : treeState.leafcnt.toNat = 2 := rfl
  have hn : treeState.nodecnt.toNat = 3 := rfl
  refine ⟨shape_treeState, ?_, ?_, ?_, ?_, ?_, ?_, ?_, ?_⟩
  · decide +kernel
  · intro i hi
    rw [freq_treeState] at hi
    by_cases h97 : i.val = 97
    · exact ⟨0, _, by rw [hl]; omega, h0, by simp [symbolAt, h97]⟩
    · by_cases h256 : i.val = 256
      · exact ⟨1, _, by rw [hl]; omega, h1, by simp [symbolAt, h256]⟩
      · simp [h97, h256] at hi
  · intro n e h he
    rw [hl] at h
    interval_cases n
    · rw [h0] at he
      cases he
      exact ⟨byteIndex 97#8, by decide, by decide +kernel, by decide +kernel⟩
    · rw [h1] at he
      cases he
      exact ⟨eodIndex, by decide, by decide +kernel, by decide +kernel⟩
  · intro n e l r h h' he hel her
    rw [hl] at h
    rw [hn] at h'
    obtain rfl : n = 2 := by omega
    rw [h2] at he
    cases he
    have e1 : arenaNode 1 treeState = some l := hel
    have e0 : arenaNode 0 treeState = some r := her
    rw [h1] at e1
    rw [h0] at e0
    cases e1
    cases e0
    decide
  · intro e he
    have : arenaNode 2 treeState = some e := he
    rw [h2] at this
    cases this
    decide +kernel
  · intro m n e f h h' hn' he hf
    rw [hl] at h
    rw [hn] at hn'
    obtain ⟨rfl, rfl⟩ : m = 2 ∧ n = 2 := by omega
    rw [he] at hf
    cases hf
    exact le_rfl
  · intro n e h h' he
    rw [hl] at h
    rw [hn] at h'
    obtain rfl : n = 2 := by omega
    rw [h2] at he
    cases he
    decide +kernel
  · intro n e h he
    rw [hn] at h
    interval_cases n
    · rw [h0] at he; cases he; decide
    · rw [h1] at he; cases he; decide
    · rw [h2] at he; cases he; decide

/-- A state with a tree, no map and a response not taken has the invariant. -/
theorem inv_treeState : Inv { treeState with port := .responding ⟨.ok, 0⟩, script := [.take] } where
  queue_empty := rfl
  no_fault _ := ⟨rfl, rfl⟩
  fault_code h := absurd h (by decide)
  no_tree h := absurd h (by decide)
  tree _ := { laws_treeState with }
  cursor _ := .inl rfl
  codes_padded h := absurd h (by decide)
  codes_of_entries h := absurd h (by decide)
  codes_prefix_free h := absurd h (by decide)
  terminator h := absurd h (by decide)
  map_of_tree _ h := absurd h (by decide)

theorem test_witness_DecodeEncode : ∀ a c, Instr.nop ≠ .ftw a c := by simp

theorem test_witness_EncodeDecode : decode 0x10FFF000 0xFFFFFFFF = .ok (.ftw 4095 0xFFFFFFFF) := rfl

theorem test_witness_StepRunsDecodedCommand : ∃ (s : State) (rest : List HostAct),
    s.port = .idle ∧ s.script = .send 0x20000000 0 :: rest ∧ decode 0x20000000 0 = .ok .build :=
  ⟨{ State.reset with script := [.send 0x20000000 0] }, [], rfl, rfl, rfl⟩

theorem test_witness_IllegalWordRefused : ∃ (s : State) (rest : List HostAct), s.fault = true ∧
    s.port = .idle ∧ s.script = .send 0x99000000 0 :: rest ∧ decode 0x99000000 0 = .error (.unknownOp 0x99) :=
  ⟨{ faultState with script := [.send 0x99000000 0] }, [], rfl, rfl, rfl, rfl⟩

theorem test_witness_ResponseBeforeNextCommand :
    (∃ (s : State) (r : Response) (rest : List HostAct), s.port = .responding r ∧ s.script = .take :: rest) ∧
    (∃ (s : State) (rest : List HostAct), s.port ≠ .idle ∧ s.script = .send 0 0 :: rest) ∧
    (∃ (s : State) (r : Response) (rest : List HostAct), s.port = .responding r ∧ r.rc ≠ .ok ∧
      s.script = .takeOk 2 :: rest) ∧
    (∃ (s : State) (rest : List HostAct), s.port = .idle ∧ s.script = .conclude :: rest) ∧
    (∃ (s t : State) (c : Cause), s.cause = some c ∧ (∀ rest, s.script ≠ .conclude :: rest) ∧ step s = .next t) :=
  ⟨⟨{ State.reset with port := .responding ⟨.ok, 0⟩, script := [.take] }, ⟨.ok, 0⟩, [], rfl, rfl⟩,
   ⟨{ State.reset with port := .waiting .bitSink, script := [.send 0 0] }, [], by decide, rfl⟩,
   ⟨{ State.reset with port := .responding ⟨.fault .table, 0⟩, script := [.takeOk 2] }, ⟨.fault .table, 0⟩, [], rfl, by decide,
    rfl⟩,
   ⟨{ State.reset with script := [.conclude] }, [], rfl, rfl⟩,
   ⟨{ State.reset with cause := some .abandoned, script := [.reset] }, _, .abandoned, rfl, by simp, rfl⟩⟩

theorem test_witness_ResetPulse : ∃ (s : State) (rest : List HostAct), s.port ≠ .idle ∧ s.script = .reset :: rest :=
  ⟨{ treeState with port := .waiting .bitSource, script := [.reset] }, [], by decide, rfl⟩

theorem test_witness_NothingButResetEndsAHang : ∃ s : State,
    s.port = .waiting .byteSource ∧ ∀ rest, s.script ≠ .reset :: rest :=
  ⟨{ State.reset with port := .waiting .byteSource, script := [.take, .reset] }, rfl, by simp⟩

theorem countsFit_short {bs : List Byte} (h : bs.length ≤ 4294967295) : CountsFit bs :=
  fun _ => Nat.le_trans List.count_le_length h

theorem test_witness_CountHangs : ∃ (s : State) (bs : List Byte), s.fault = false ∧ s.treeV = false ∧
    s.codeV = false ∧ s.byteSource = bs.map ByteAnswer.byte ∧ CountsFit bs ∧ bs ≠ [] :=
  ⟨{ State.reset with byteSource := [.byte 97] }, [97], rfl, rfl, rfl, rfl, countsFit_short (by simp), by simp⟩

/-- Both clauses; the second with a command that answers. -/
theorem test_witness_FaultedRefusals : (∃ s : State, s.fault = true ∧ s.treeV = false ∧ s.codeV = false) ∧
    ∃ t, exec (.ftr 97) faultState = .next t :=
  ⟨⟨faultState, rfl, rfl, rfl⟩, _, (next_of_portOf (p := .responding ⟨.ok, 0⟩) (by decide +kernel)).1⟩

/-- The flags of each clause, and the last clause's command. -/
theorem test_witness_PhaseRefusals :
    (treeState.fault = false ∧ treeState.treeV = true) ∧
    (State.reset.fault = false ∧ State.reset.treeV = false ∧ State.reset.codeV = false) ∧
    (bothState.fault = false ∧ bothState.codeV = true) ∧ ∃ t, exec .nop treeState = .next t :=
  ⟨⟨rfl, rfl⟩, ⟨rfl, rfl, rfl⟩, ⟨rfl, rfl⟩, _, (next_of_portOf (p := .responding ⟨.ok, 0⟩) (by decide)).1⟩

/-- The boundary of each range: symbol 257, node NODECNT, field 5, chunk 9, register 11. -/
theorem test_witness_RangeRefusals :
    (State.reset.fault = false ∧ State.reset.treeV = false ∧ State.reset.codeV = false ∧ 256 < (257 : Operand).toNat) ∧
    (treeState.treeV = true ∧ treeState.nodecnt.toNat ≤ (3 : Operand).toNat ∧ 4 < (5 : Operand).toNat) ∧
    (bothState.codeV = true ∧ 8 < (9 : Operand).toNat) ∧ 10 < (11 : Operand).toNat := by decide

theorem test_witness_RefusalChangesNothing :
    (∃ t, exec (.csrr 11) treeState = .next t ∧ t.port = .responding ⟨.refusal .range, 0⟩) ∧
    (∃ (s t : State) (rest : List HostAct), s.port = .idle ∧ s.script = .send 0x99000000 0 :: rest ∧
      step s = .next t ∧ t.port = .responding ⟨.refusal .illegal, 0⟩) :=
  ⟨⟨_, next_of_portOf (by decide)⟩,
   ⟨{ treeState with script := [.send 0x99000000 0] }, _, [], rfl, rfl, rfl, rfl⟩⟩

theorem test_witness_IllFormedAlwaysRefused :
    (Instr.ndr 513 0).wellFormed = false ∧ ({ treeState with nodecnt := 513 } : State).nodecnt.toNat ≤ 513 := by decide

theorem test_witness_FtwEffect : (256 : Operand).toNat < 257 ∧ State.reset.fault = false ∧
    State.reset.treeV = false ∧ State.reset.codeV = false := by decide

theorem test_witness_FtrEffect : (256 : Operand).toNat < 257 := by decide

theorem test_witness_CountEffect : ∃ (s : State) (bs : List Byte) (rest : List ByteAnswer), s.fault = false ∧
    s.treeV = false ∧ s.codeV = false ∧ s.byteSource = bs.map ByteAnswer.byte ++ .eof :: rest ∧ CountsFit bs :=
  ⟨{ State.reset with byteSource := source "aaaa" }, bytes "aaaa", [], rfl, rfl, rfl, rfl,
    countsFit_short (by decide)⟩

/-- V-FT-14's source, its length a variable so that nothing evaluates the list. -/
theorem source_overflow (n : Nat) (h : n = 4294967295) : ∃ (s : State) (bs : List Byte) (b : Byte)
    (rest : List ByteAnswer), s.fault = false ∧ s.treeV = false ∧ s.codeV = false ∧
    s.byteSource = bs.map ByteAnswer.byte ++ .byte b :: rest ∧ CountsFit bs ∧ bs.count b = 4294967295 :=
  ⟨{ State.reset with byteSource := (List.replicate n 0x41#8).map ByteAnswer.byte ++ [.byte 0x41#8] },
    List.replicate n 0x41#8, 0x41#8, [], rfl, rfl, rfl, rfl,
    countsFit_short (Nat.le_of_eq (List.length_replicate.trans h)), List.count_replicate_self.trans h⟩

/-- The overflow clause at V-FT-14's source: 2^32 - 1 occurrences before the one that overflows. -/
theorem test_witness_CountFaults :
    (∃ (s : State) (bs : List Byte) (rest : List ByteAnswer), s.fault = false ∧ s.treeV = false ∧ s.codeV = false ∧
      s.byteSource = bs.map ByteAnswer.byte ++ .err :: rest ∧ CountsFit bs) ∧
    (∃ (s : State) (bs : List Byte) (b : Byte) (rest : List ByteAnswer), s.fault = false ∧ s.treeV = false ∧
      s.codeV = false ∧ s.byteSource = bs.map ByteAnswer.byte ++ .byte b :: rest ∧ CountsFit bs ∧
      bs.count b = 4294967295) :=
  ⟨⟨{ State.reset with byteSource := [.byte 97, .err] }, [97], [], rfl, rfl, rfl, rfl, countsFit_short (by simp)⟩,
    source_overflow 4294967295 rfl⟩

theorem test_witness_BuildFaults :
    (State.reset.fault = false ∧ State.reset.treeV = false ∧ State.reset.codeV = false ∧
      ∀ i : TableIndex, State.reset.freq[i] = 0) ∧
    (∃ (s : State) (i : TableIndex), s.fault = false ∧ s.treeV = false ∧ s.codeV = false ∧ s.freq[i] ≠ 0 ∧
      s.freq[256] = 0) :=
  ⟨⟨rfl, rfl, rfl, by simp [State.reset]⟩,
   writeFreq (byteIndex 97#8) 3 State.reset, byteIndex 97#8, rfl, rfl, rfl, by decide +kernel, by decide +kernel⟩

theorem test_witness_BuildCompletesWithTreeLaws : tableState.fault = false ∧ tableState.treeV = false ∧
    tableState.codeV = false ∧ tableState.freq[256] ≠ 0 := by decide +kernel

theorem test_witness_BuildOneEntry : ∃ s : State, s.fault = false ∧ s.treeV = false ∧ s.codeV = false ∧
    s.freq[256] ≠ 0 ∧ ∀ i : TableIndex, i.val ≠ 256 → s.freq[i] = 0 :=
  ⟨writeFreq eodIndex 1 State.reset, rfl, rfl, rfl, by decide +kernel, fun i hi => by
    simp [writeFreq, eodIndex, State.reset, Ne.symm hi]⟩

theorem test_witness_PopTakesLeast : ({ treeState with pq := [0, 1] } : State).pq ≠ [] ∧
    ∃ n t, pqPop { treeState with pq := [0, 1] } = some (n, t) :=
  ⟨by simp, _, _, (pqPop_cases (s := { treeState with pq := [0, 1] }) (by simp)).choose_spec.2⟩

theorem test_witness_BuildDependsOnTableAlone : ∃ s1 s2 t1 t2 : State, s1.freq = s2.freq ∧ s1.bytecnt ≠ s2.bytecnt ∧
    exec .build s1 = .next t1 ∧ exec .build s2 = .next t2 ∧ t1.port = .responding ⟨.ok, 0⟩ ∧
    t2.port = .responding ⟨.ok, 0⟩ := by
  have h1 := next_of_portOf (i := .build) (s := tableState) (p := .responding ⟨.ok, 0⟩) (by decide +kernel)
  have h2 := next_of_portOf (i := .build) (s := { tableState with bytecnt := 4 }) (p := .responding ⟨.ok, 0⟩)
    (by decide +kernel)
  exact ⟨tableState, { tableState with bytecnt := 4 }, _, _, rfl, show (0 : Counter) ≠ 4 by decide, h1.1, h2.1, h1.2,
    h2.2⟩

theorem test_witness_NdrEffect : (2 : Operand).toNat < 513 ∧ treeState.treeV = true ∧
    (2 : Operand).toNat < treeState.nodecnt.toNat := by decide

theorem test_witness_FreeEffect : bothState.fault = false ∧ bothState.treeV = true := by decide

theorem test_witness_GenCompletesWithMapOfTree : treeState.fault = false ∧ treeState.treeV = true ∧
    treeState.codeV = false ∧ TreeShape treeState := ⟨rfl, rfl, rfl, shape_treeState⟩

theorem gen_treeState : exec .gen treeState = .next (after .gen treeState) ∧
    (after .gen treeState).port = .responding ⟨.ok, 0⟩ := next_of_portOf (by decide +kernel)

theorem test_witness_GenPrefixFree : ∃ s t : State, TreeShape s ∧ exec .gen s = .next t ∧
    t.port = .responding ⟨.ok, 0⟩ := ⟨_, _, shape_treeState, gen_treeState.1, gen_treeState.2⟩

/-- The tree of V-TB-1 has the shape of a built tree, at the least number of leaves. -/
theorem shape_oneLeaf : TreeShape oneLeaf := by
  have h0 : arenaNode 0 oneLeaf = some ⟨.endOfData, 1, 0x3FF, 0x3FF⟩ := by decide +kernel
  have hl : oneLeaf.leafcnt.toNat = 1 := rfl
  have hn : oneLeaf.nodecnt.toNat = 1 := rfl
  have hr : oneLeaf.root.toNat = 0 := rfl
  refine ⟨by rw [hl], by rw [hl]; omega, by rw [hl, hn], by rw [hl, hr], ?_, ?_, ?_, ?_⟩
  · intro n h
    rw [hl] at h
    obtain rfl : n = 0 := by omega
    exact ⟨_, h0, rfl, rfl, rfl⟩
  · intro m n hmn h
    rw [hl] at h
    omega
  · intro n h h'
    rw [hl] at h
    rw [hn] at h'
    omega
  · intro k hk
    rw [hr] at hk
    omega

/-- One leaf and two leaves. -/
theorem test_witness_GenKraftEquality :
    (∃ s t : State, TreeShape s ∧ exec .gen s = .next t ∧ t.port = .responding ⟨.ok, 0⟩ ∧ s.leafcnt.toNat = 1) ∧
    (∃ s t : State, TreeShape s ∧ exec .gen s = .next t ∧ t.port = .responding ⟨.ok, 0⟩ ∧ s.leafcnt.toNat ≠ 1) := by
  have h := next_of_portOf (i := .gen) (s := oneLeaf) (p := .responding ⟨.ok, 0⟩) (by decide +kernel)
  exact ⟨⟨_, _, shape_oneLeaf, h.1, h.2, rfl⟩, _, _, shape_treeState, gen_treeState.1, gen_treeState.2, by decide⟩

theorem test_witness_GenCodeLength : ∃ s t : State, TreeShape s ∧ 2 ≤ s.leafcnt.toNat ∧ exec .gen s = .next t ∧
    t.port = .responding ⟨.ok, 0⟩ := ⟨_, _, shape_treeState, by decide, gen_treeState.1, gen_treeState.2⟩

/-- The length and the chunks' ends 0 and 7, bit 31. -/
theorem test_witness_CtrEffect :
    ((256 : Operand).toNat < 257 ∧ bothState.codeV = true ∧ (7 : Operand).toNat < 8) ∧
    ∃ t, (7 : Operand).toNat < 8 ∧ 31 < 32 ∧ exec (.ctr 97 7) bothState = .next t ∧
      t.port = .responding ⟨.ok, 0⟩ := by
  have h := next_of_portOf (i := .ctr 97 7) (s := bothState) (p := .responding ⟨.ok, 0⟩) (by decide +kernel)
  exact ⟨by decide, _, by decide, by decide, h.1, h.2⟩

theorem accepts_reset (n : Nat) : SinkAccepts ⟨[], .ok⟩ n := fun _ _ => rfl

theorem accepts_of_eq {k : Sink} {n : Nat} (h : k = ⟨[], .ok⟩) : SinkAccepts k n := h ▸ accepts_reset n

/-- The source of V-EN-2. -/
theorem test_witness_EncEffect : ∃ (s : State) (bs : List Byte) (rest : List ByteAnswer), s.fault = false ∧
    s.codeV = true ∧ s.byteSource = bs.map ByteAnswer.byte ++ .eof :: rest ∧
    (∀ b ∈ bs, (readCode (byteIndex b) s).len ≠ 0) ∧ (readCode eodIndex s).len ≠ 0 ∧
    SinkAccepts s.bitSink (encodedWithEnd s bs).length :=
  ⟨{ bothState with byteSource := source "aaaa" }, bytes "aaaa", [], rfl, rfl, rfl, by decide +kernel,
    by decide +kernel, accepts_reset _⟩

/-- A byte without a code, and a map without END_OF_DATA. -/
theorem test_witness_EncNoCodeFault :
    (∃ (s : State) (bs : List Byte) (b : Byte) (rest : List ByteAnswer), s.fault = false ∧ s.codeV = true ∧
      s.byteSource = bs.map ByteAnswer.byte ++ .byte b :: rest ∧ (∀ c ∈ bs, (readCode (byteIndex c) s).len ≠ 0) ∧
      (readCode (byteIndex b) s).len = 0 ∧ SinkAccepts s.bitSink (encoded s bs).length) ∧
    (∃ (s : State) (bs : List Byte) (rest : List ByteAnswer), s.fault = false ∧ s.codeV = true ∧
      s.byteSource = bs.map ByteAnswer.byte ++ .eof :: rest ∧ (∀ c ∈ bs, (readCode (byteIndex c) s).len ≠ 0) ∧
      (readCode eodIndex s).len = 0 ∧ SinkAccepts s.bitSink (encoded s bs).length) :=
  ⟨⟨{ bothState with byteSource := [.byte 97, .byte 99] }, [97], 99, [], rfl, rfl, rfl, by decide +kernel,
      by decide +kernel, accepts_reset _⟩,
   ⟨{ bothState with byteSource := [.byte 97, .eof], code := State.reset.code.set 97 ⟨1, 1⟩ }, [97], [], rfl, rfl, rfl,
      by decide +kernel, by decide +kernel, accepts_reset _⟩⟩

theorem test_witness_EncSourceFault : ∃ (s : State) (bs : List Byte) (rest : List ByteAnswer), s.fault = false ∧
    s.codeV = true ∧ s.byteSource = bs.map ByteAnswer.byte ++ .err :: rest ∧
    (∀ c ∈ bs, (readCode (byteIndex c) s).len ≠ 0) ∧ SinkAccepts s.bitSink (encoded s bs).length :=
  ⟨{ bothState with byteSource := [.byte 97, .err] }, [97], [], rfl, rfl, rfl, by decide +kernel, accepts_reset _⟩

/-- The map of V-CG-2 over the source of V-EN-2, with a sink that gives `answer` to its transfer number `n`. -/
def sinkStops (n : Nat) (answer : SinkAnswer) : State :=
  { bothState with byteSource := source "aaaa", bitSink := ⟨List.replicate n .ok ++ [answer], .ok⟩ }

/-- ENC's hypotheses on a sink that gives `answer` where it stops, at the first bit of all and at the last, the
terminator's. -/
def EncStops (answer : SinkAnswer) : Prop :=
  (∃ (s : State) (bs : List Byte) (item : ByteAnswer) (i : TableIndex) (rest : List ByteAnswer) (k : Nat),
    s.fault = false ∧ s.codeV = true ∧ s.byteSource = bs.map ByteAnswer.byte ++ item :: rest ∧
    (∀ c ∈ bs, (readCode (byteIndex c) s).len ≠ 0) ∧ Encodes item i ∧ k < (codeString (readCode i s)).length ∧
    SinkAccepts s.bitSink ((encoded s bs).length + k) ∧
    sinkAnswer s.bitSink ((encoded s bs).length + k) = answer ∧ bs = []) ∧
  (∃ (s : State) (bs : List Byte) (item : ByteAnswer) (i : TableIndex) (rest : List ByteAnswer) (k : Nat),
    s.fault = false ∧ s.codeV = true ∧ s.byteSource = bs.map ByteAnswer.byte ++ item :: rest ∧
    (∀ c ∈ bs, (readCode (byteIndex c) s).len ≠ 0) ∧ Encodes item i ∧ k < (codeString (readCode i s)).length ∧
    SinkAccepts s.bitSink ((encoded s bs).length + k) ∧
    sinkAnswer s.bitSink ((encoded s bs).length + k) = answer ∧ item = .eof)

theorem enc_stops (answer : SinkAnswer) : EncStops answer := by
  have hlen : (encoded (sinkStops 4 answer) (bytes "aaaa")).length = 4 := by
    show (encoded bothState (bytes "aaaa")).length = 4
    decide +kernel
  refine ⟨⟨sinkStops 0 answer, [], .byte 97, byteIndex 97, source "aaa", 0, rfl, rfl, rfl, by simp, .inl ⟨97, rfl, rfl⟩, ?_,
    fun m hm => absurd hm (Nat.not_lt_zero m), rfl, rfl⟩, ⟨sinkStops 4 answer, bytes "aaaa", .eof, eodIndex, [], 0, rfl, rfl,
    rfl, ?_, .inr ⟨rfl, rfl⟩, ?_, ?_, ?_, rfl⟩⟩
  · show 0 < (codeString (readCode (byteIndex 97) bothState)).length
    decide +kernel
  · show ∀ c ∈ bytes "aaaa", (readCode (byteIndex c) bothState).len ≠ 0
    decide +kernel
  · show 0 < (codeString (readCode eodIndex bothState)).length
    decide +kernel
  · rw [hlen]
    intro m hm
    interval_cases m <;> rfl
  · rw [hlen]
    rfl

/-- The first bit and the last (the terminator's). -/
theorem test_witness_EncSinkFault : EncStops .err := enc_stops _

theorem freq_tableState : tableState.freq = histogram [97, 97, 97, 97] := by
  apply Vector.toList_inj.mp
  decide +kernel

/-- The source counted, so that the second clause's premise holds too. -/
theorem test_witness_EncLengthLaw : ∃ (s t : State) (bs : List Byte) (rest : List ByteAnswer), exec .enc s = .next t ∧
    t.port = .responding ⟨.ok, 0⟩ ∧ s.byteSource = bs.map ByteAnswer.byte ++ .eof :: rest ∧ s.freq = histogram bs ∧
    CountsFit bs := by
  have h := next_of_portOf (i := .enc) (s := { bothState with byteSource := source "aaaa" })
    (p := .responding ⟨.ok, 0⟩) (by decide +kernel)
  exact ⟨_, _, [97, 97, 97, 97], [], h.1, h.2, by decide +kernel, freq_tableState, countsFit_short (by decide)⟩

/-- In V-TB-2's tree "1" spells 'a'. -/
theorem spells_a (s : State) (hr : s.root = 2) (hn : s.node = treeState.node) (hc : s.nodecnt = treeState.nodecnt) :
    SpellsByte s [true] 97 := by
  refine ⟨by simp, 0, ⟨.byte 97, 4, 0x3FF, 0x3FF⟩, ?_, ?_, rfl⟩
  · rw [hr, descend_congr hn hc]
    decide +kernel
  · rw [treeNode_congr _ hn hc]
    decide +kernel

/-- V-DE-4. -/
theorem test_witness_DecEffect : ∃ (s : State) (words : List (List Bool × Byte)) (last : List Bool) (leaf : NodeIndex)
    (e : Node) (rest : List BitAnswer), s.fault = false ∧ s.treeV = true ∧ (∀ w ∈ words, SpellsByte s w.1 w.2) ∧
    last ≠ [] ∧ descend s s.root last = some leaf ∧ treeNode leaf s = some e ∧ e.sym = .endOfData ∧
    s.bitSource = ((words.flatMap (·.1)) ++ last).map BitAnswer.bit ++ rest ∧
    SinkAccepts s.byteSink words.length := by
  refine ⟨{ treeState with bitSource := bitsOf "11110" }, List.replicate 4 ([true], 97), [false], 1,
    ⟨.endOfData, 1, 0x3FF, 0x3FF⟩, [.eof], rfl, rfl, ?_, by simp, by decide +kernel, by decide +kernel, rfl,
    by decide, accepts_reset _⟩
  intro w hw
  obtain ⟨-, rfl⟩ := List.mem_replicate.mp hw
  exact spells_a _ rfl rfl rfl

/-- The tree of V-TB-3, written out from its listing. -/
def tieTree : State :=
  { tieState with
    node := ((((State.reset.node.set 0 ⟨.byte 97#8, 1, 0x3FF, 0x3FF⟩).set 1 ⟨.byte 98#8, 1, 0x3FF, 0x3FF⟩).set 2
      ⟨.endOfData, 1, 0x3FF, 0x3FF⟩).set 3 ⟨.internal, 2, 0, 1⟩).set 4 ⟨.internal, 3, 2, 3⟩
    leafcnt := 3, nodecnt := 5, root := 4, treeV := true }

/-- V-DE-8's source "101": 'a' is spelt by "10", and "1" ends at the internal node 3. -/
theorem words_tieTree (l : List BitAnswer) (k : Sink) :
    let s := { tieTree with bitSource := l, byteSink := k }
    (∀ w ∈ [([true, false], 97#8)], SpellsByte s w.1 w.2) ∧ Partway s [true] 3 := by
  intro s
  have hd : ∀ n p, descend s n p = descend tieTree n p := descend_congr (s := tieTree) (t := s) rfl rfl
  have ht : ∀ n, treeNode n s = treeNode n tieTree := fun n => treeNode_congr (s := tieTree) (t := s) n rfl rfl
  refine ⟨fun w hw => ?_, ?_, .inr ⟨⟨.internal, 2, 0, 1⟩, ?_, rfl⟩⟩
  · cases List.mem_singleton.mp hw
    refine ⟨by simp, 0, ⟨.byte 97#8, 1, 0x3FF, 0x3FF⟩, ?_, ?_, rfl⟩
    · show descend s 4 _ = _
      rw [hd]
      decide +kernel
    · rw [ht]
      decide +kernel
  · show descend s 4 _ = _
    rw [hd]
    decide +kernel
  · rw [ht]
    decide +kernel

/-- End and Err inside a code (V-DE-8 and V-DE-14), into a sink that accepts the one byte given and no more, and the empty
source (V-DE-3's case on V-TB-2). -/
theorem test_witness_DecSourceEndsEarly :
    (∀ last ∈ [BitAnswer.eof, .err], ∃ (s : State) (words : List (List Bool × Byte)) (part : List Bool)
      (at_ : NodeIndex) (rest : List BitAnswer), s.fault = false ∧ s.treeV = true ∧
      (∀ w ∈ words, SpellsByte s w.1 w.2) ∧ Partway s part at_ ∧ SinkAccepts s.byteSink words.length ∧
      s.bitSource = ((words.flatMap (·.1)) ++ part).map BitAnswer.bit ++ last :: rest ∧ part ≠ [] ∧
      sinkAnswer s.byteSink words.length = .err) ∧
    (∃ (s : State) (at_ : NodeIndex) (rest : List BitAnswer), s.fault = false ∧ s.treeV = true ∧
      Partway s [] at_ ∧ SinkAccepts s.byteSink 0 ∧
      s.bitSource = ([] : List Bool).map BitAnswer.bit ++ .eof :: rest) := by
  refine ⟨fun last _ => ⟨{ tieTree with
      bitSource := (bits "101").map .bit ++ [last], byteSink := ⟨[.ok], .err⟩ }, [([true, false], 97)], [true], 3, [], rfl, rfl,
      (words_tieTree _ _).1, (words_tieTree _ _).2, ?_, ?_, by simp, rfl⟩,
    { treeState with bitSource := [.eof] }, 2, [], rfl, rfl, ⟨rfl, .inl rfl⟩, accepts_reset _, rfl⟩
  · intro m hm
    obtain rfl : m = 0 := by simpa using hm
    rfl
  · have : (bits "101").map BitAnswer.bit = [.bit true, .bit false, .bit true] := by decide
    simp [this]

/-- DEC's hypotheses on a sink that gives `answer` where it stops. -/
def DecStops (answer : SinkAnswer) : Prop :=
  ∃ (s : State) (words : List (List Bool × Byte)) (last : List Bool) (leaf : NodeIndex) (e : Node) (b : Byte)
    (rest : List BitAnswer), s.fault = false ∧ s.treeV = true ∧ (∀ w ∈ words, SpellsByte s w.1 w.2) ∧ last ≠ [] ∧
    descend s s.root last = some leaf ∧ treeNode leaf s = some e ∧ e.sym = .byte b ∧
    s.bitSource = ((words.flatMap (·.1)) ++ last).map BitAnswer.bit ++ rest ∧
    SinkAccepts s.byteSink words.length ∧ sinkAnswer s.byteSink words.length = answer

theorem dec_stops (answer : SinkAnswer) : DecStops answer := by
  let s := { treeState with bitSource := [.bit true, .bit false], byteSink := ⟨[answer], .ok⟩ }
  have hd : descend s 2 [true] = some 0 :=
    (descend_congr (s := treeState) (t := s) rfl rfl _ _).trans (by decide +kernel)
  have ht : treeNode 0 s = some ⟨.byte 97, 4, 0x3FF, 0x3FF⟩ :=
    (treeNode_congr (s := treeState) (t := s) _ rfl rfl).trans (by decide +kernel)
  exact ⟨s, [], [true], 0, _, 97, [.bit false], rfl, rfl, by simp, by simp, hd, ht, rfl, rfl,
    fun m hm => absurd hm (Nat.not_lt_zero m), rfl⟩

/-- The first byte refused. -/
theorem test_witness_DecSinkFault : DecStops .err := dec_stops _

/-- The four hangs: after one byte, at a bit of a code, inside a code of DEC's source (V-DE-8's bits), at a byte. -/
theorem test_witness_EncAndDecHang :
    (∃ (s : State) (bs : List Byte), s.fault = false ∧ s.codeV = true ∧ s.byteSource = bs.map ByteAnswer.byte ∧
      (∀ c ∈ bs, (readCode (byteIndex c) s).len ≠ 0) ∧ SinkAccepts s.bitSink (encoded s bs).length ∧ bs ≠ []) ∧
    (∃ (s : State) (words : List (List Bool × Byte)) (part : List Bool) (at_ : NodeIndex), s.fault = false ∧
      s.treeV = true ∧ (∀ w ∈ words, SpellsByte s w.1 w.2) ∧ Partway s part at_ ∧
      s.bitSource = ((words.flatMap (·.1)) ++ part).map BitAnswer.bit ∧ SinkAccepts s.byteSink words.length ∧
      part ≠ []) :=
  ⟨⟨{ bothState with byteSource := [.byte 97] }, [97], rfl, rfl, rfl, by decide +kernel, accepts_reset _, by simp⟩,
   ⟨{ tieTree with bitSource := [.bit true, .bit false, .bit true], byteSink := ⟨[], .ok⟩ }, [([true, false], 97)], [true],
    3, rfl, rfl, (words_tieTree _ _).1, (words_tieTree _ _).2, rfl, accepts_reset _, by simp⟩⟩

theorem test_witness_EncHangsOnSink : EncStops .never := enc_stops _

theorem test_witness_DecHangsOnSink : DecStops .never := dec_stops _

/-- V-DE-1 and V-DE-2, and a tree with two leaves. -/
theorem test_witness_DecOneLeafTree :
    (∀ b : Bool, ∃ (s : State) (e : Node) (rest : List BitAnswer), s.fault = false ∧ s.treeV = true ∧
      treeNode s.root s = some e ∧ e.sym = .endOfData ∧ s.bitSource = .bit b :: rest) ∧
    (∃ s t : State, TreeShape s ∧ 2 ≤ s.leafcnt.toNat ∧ exec .dec s = .next t) :=
  ⟨fun b => ⟨{ oneLeaf with bitSource := [.bit b, .eof] }, ⟨.endOfData, 1, 0x3FF, 0x3FF⟩, [.eof], rfl, rfl,
      (treeNode_congr (s := oneLeaf) (t := { oneLeaf with bitSource := [.bit b, .eof] }) 0 rfl rfl).trans
        (by decide +kernel), rfl, rfl⟩,
   ⟨treeState, _, shape_treeState, by decide, (next_of_portOf (p := .waiting .bitSource) (by decide +kernel)).1⟩⟩

theorem dec_end : exec .dec { treeState with bitSource := bitsOf "11110" } =
      .next (after .dec { treeState with bitSource := bitsOf "11110" }) ∧
    (after .dec { treeState with bitSource := bitsOf "11110" }).port = .responding ⟨.ok, 0⟩ :=
  next_of_portOf (by decide +kernel)

theorem test_witness_DecOkOnlyAtEndOfData : ∃ (s t : State) (d : Word), exec .dec s = .next t ∧
    t.port = .responding ⟨.ok, d⟩ := ⟨_, _, _, dec_end.1, dec_end.2⟩

theorem test_witness_DecTakesCountedBits : ∃ s t : State, exec .dec s = .next t ∧ t.port = .responding ⟨.ok, 0⟩ :=
  ⟨_, _, dec_end.1, dec_end.2⟩

/-- The first clause along P1 and P2: table, tree, map, "aaaa" encoded to 11110, decoded with padding after it. -/
theorem test_witness_RoundTrip :
    (∃ (s0 s1 s2 e0 e1 d0 d1 d2 : State) (bs : List Byte) (sent : List Bool) (rest : List ByteAnswer)
      (more : List BitAnswer),
      exec .build s0 = .next s1 ∧ s1.port = .responding ⟨.ok, 0⟩ ∧ exec .gen s1 = .next s2 ∧
      s2.port = .responding ⟨.ok, 0⟩ ∧ e0.code = s2.code ∧ e0.byteSource = bs.map ByteAnswer.byte ++ .eof :: rest ∧
      exec .enc e0 = .next e1 ∧ e1.port = .responding ⟨.ok, 0⟩ ∧ e1.bitsOut = e0.bitsOut ++ sent ∧
      d0.freq = s0.freq ∧ exec .build d0 = .next d1 ∧ d1.port = .responding ⟨.ok, 0⟩ ∧ d2.node = d1.node ∧
      d2.nodecnt = d1.nodecnt ∧ d2.root = d1.root ∧ d2.treeV = true ∧ d2.fault = false ∧
      d2.bitSource = sent.map BitAnswer.bit ++ more ∧ SinkAccepts d2.byteSink bs.length) ∧
    (∃ (s0 s1 s2 : State) (bs : List Byte), CountsFit bs ∧ s0.freq = histogram bs ∧ exec .build s0 = .next s1 ∧
      s1.port = .responding ⟨.ok, 0⟩ ∧ exec .gen s1 = .next s2 ∧ s2.port = .responding ⟨.ok, 0⟩) := by
  have h1 := next_of_portOf (i := .build) (s := tableState) (p := .responding ⟨.ok, 0⟩) (by decide +kernel)
  have h2 := next_of_portOf (i := .gen) (s := after .build tableState) (p := .responding ⟨.ok, 0⟩) (by decide +kernel)
  have h3 := next_of_portOf (i := .enc)
    (s := { after .gen (after .build tableState) with byteSource := source "aaaa" }) (p := .responding ⟨.ok, 0⟩)
    (by decide +kernel)
  refine ⟨⟨tableState, _, _, { after .gen (after .build tableState) with byteSource := source "aaaa" }, _, tableState, _,
    { after .build tableState with bitSource := bitsOf "11110111" }, bytes "aaaa", bits "11110", [],
    (bits "111").map .bit ++ [.eof], h1.1, h1.2, h2.1, h2.2, by with_reducible rfl, by decide +kernel, h3.1, h3.2, ?_,
    by with_reducible rfl, h1.1, h1.2, by with_reducible rfl, by with_reducible rfl, by with_reducible rfl, ?_, ?_,
    by decide +kernel, ?_⟩, tableState, _, _, [97, 97, 97, 97], countsFit_short (by decide), freq_tableState, h1.1, h1.2,
    h2.1, h2.2⟩
  · decide +kernel
  · decide +kernel
  · decide +kernel
  · exact accepts_of_eq (by decide +kernel)

/-- E_CNTOVF is raised at V-FT-14's source, its length a variable. -/
theorem cntovf_raised (n : Nat) (h : n = 4294967295) :
    ∃ s t, exec .count s = .next t ∧ t.port = .responding ⟨.fault .cntovf, 0⟩ := by
  refine ⟨{ State.reset with byteSource := (List.replicate n 0x41#8).map ByteAnswer.byte ++ [.byte 0x41#8] },
    countLoop ((List.replicate n 0x41#8).map ByteAnswer.byte ++ [.byte 0x41#8])
      { State.reset with byteSource := (List.replicate n 0x41#8).map ByteAnswer.byte ++ [.byte 0x41#8] }, rfl, ?_⟩
  obtain ⟨f, hf, -, hcnt⟩ := countLoop_bytes (List.replicate n 0x41#8) [.byte 0x41#8]
    { State.reset with byteSource := (List.replicate n 0x41#8).map ByteAnswer.byte ++ [.byte 0x41#8] } rfl
    (fun b => by
      have h0 : (readFreq (byteIndex b) State.reset).toNat = 0 := by simp [readFreq, State.reset]
      have h1 : (List.replicate n 0x41#8).count b ≤ n :=
        Nat.le_trans List.count_le_length (Nat.le_of_eq List.length_replicate)
      show (readFreq (byteIndex b) State.reset).toNat + _ ≤ _
      omega)
  have h41 : f[byteIndex 0x41#8] = 0xFFFFFFFF#32 := by
    apply BitVec.eq_of_toNat_eq
    rw [hcnt, List.count_replicate_self]
    have h0 : (readFreq (byteIndex 0x41#8) State.reset).toNat = 0 := by simp [readFreq, State.reset]
    show (readFreq (byteIndex 0x41#8) State.reset).toNat + n = 4294967295
    omega
  rw [hf, countLoop_full _ _ _ h41]
  rfl

/-- Each kind of fault, from a command that can raise it. -/
theorem test_witness_FaultEntry :
    (∃ s t, exec .count s = .next t ∧ t.port = .responding ⟨.fault .io, 0⟩) ∧
    (∃ s t, exec .build s = .next t ∧ t.port = .responding ⟨.fault .table, 0⟩) ∧
    (∃ s t, exec .dec s = .next t ∧ t.port = .responding ⟨.fault .trunc, 0⟩) ∧
    (∃ s t, exec .enc s = .next t ∧ t.port = .responding ⟨.fault .nocode, 0⟩) ∧
    (∃ s t, exec .dec s = .next t ∧ t.port = .responding ⟨.fault .corrupt, 0⟩) ∧
    (∃ s t, exec .count s = .next t ∧ t.port = .responding ⟨.fault .cntovf, 0⟩) :=
  ⟨⟨{ State.reset with byteSource := [.err] }, _, next_of_portOf (by decide +kernel)⟩,
   ⟨State.reset, _, next_of_portOf (by decide +kernel)⟩,
   ⟨{ treeState with bitSource := [.eof] }, _, next_of_portOf (by decide +kernel)⟩,
   ⟨{ bothState with byteSource := [.byte 99] }, _, next_of_portOf (by decide +kernel)⟩,
   ⟨{ oneLeaf with bitSource := [.bit true] }, _, next_of_portOf (by decide +kernel)⟩,
   cntovf_raised 4294967295 rfl⟩

theorem test_witness_OnlyClrLeavesFaulted : faultState.fault = true ∧ Instr.csrr 0 ≠ .clr ∧
    ∃ t, exec (.csrr 0) faultState = .next t :=
  ⟨rfl, by decide, _, (next_of_portOf (p := .responding ⟨.ok, 0x48554631⟩) (by decide)).1⟩

theorem test_witness_ReadsHaveNoSideEffect : ∃ t, exec (.ndr 2 3) treeState = .next t :=
  ⟨_, (next_of_portOf (p := .responding ⟨.ok, 1⟩) (by decide +kernel)).1⟩

theorem test_witness_DataOnlyFromReads : ∃ t, exec (.ndr 2 3) treeState = .next t ∧ t.port = .responding ⟨.ok, 1⟩ :=
  ⟨_, next_of_portOf (by decide +kernel)⟩

/-- Also the witness of FlagWriters and StreamUse: ENC moves items, GEN sets CODE_V, CLR clears the flags. -/
theorem test_witness_StateWriters : (∃ t, exec .gen treeState = .next t ∧ treeState.codeV = false ∧ t.codeV = true) ∧
    (∃ t, exec .clr bothState = .next t ∧ t.freq ≠ bothState.freq ∧ bothState.codeV = true ∧ t.codeV = false) ∧
    (∃ s t, exec .enc s = .next t ∧ t.bitsOut ≠ s.bitsOut ∧ t.byteSource ≠ s.byteSource) := by
  have h1 := next_of_portOf (i := .clr) (s := bothState) (p := .responding ⟨.ok, 0⟩) (by decide +kernel)
  have h2 := next_of_portOf (i := .enc) (s := { bothState with byteSource := source "aaaa" })
    (p := .responding ⟨.ok, 0⟩) (by decide +kernel)
  refine ⟨⟨_, gen_treeState.1, rfl, by decide +kernel⟩, ⟨_, h1.1, fun h => ?_, rfl, by decide +kernel⟩,
    _, _, h2.1, by decide +kernel, by decide +kernel⟩
  have : readFreq eodIndex (after .clr bothState) = readFreq eodIndex bothState := by simp only [readFreq, h]
  revert this
  decide +kernel

theorem test_witness_FlagWriters : ∃ t, exec .build State.reset = .next t ∧ State.reset.fault = false ∧ t.fault = true :=
  ⟨_, (next_of_portOf (p := .responding ⟨.fault .table, 0⟩) (by decide +kernel)).1, rfl, by decide +kernel⟩

theorem test_witness_StreamUse : ∃ s t : State, exec .dec s = .next t ∧ t.bytesOut ≠ s.bytesOut :=
  ⟨_, _, dec_end.1, by decide +kernel⟩

theorem test_witness_StepKeepsInvariant : ∃ s t : State, Inv s ∧ s.treeV = true ∧ step s = .next t :=
  ⟨_, _, inv_treeState, rfl, rfl⟩

theorem test_witness_StepNeverStops : ∃ s : State, Inv s ∧ s.treeV = true := ⟨_, inv_treeState, rfl⟩

end Sys2Proof.Machine.Tests
end

section
/-! SUPPORT. What a command that answers a next state has done to the state (spec/60_exceptions.md R250, R257). -/

namespace Sys2Proof.Machine

/-- What the pseudocode of an admitted command does to the state, command by command. -/
inductive Runs (s : State) : Instr → State → Prop where
  | nop : Runs s .nop (respond 0 s)
  | clr : Runs s .clr (respond 0 (releaseAll s))
  | ftw (a : Operand) (c : Word) (i : TableIndex) (hi : symbolOperand a = some i) :
      Runs s (.ftw a c) (respond 0 (writeFreq i c s))
  | ftr (a : Operand) (i : TableIndex) (hi : symbolOperand a = some i) : Runs s (.ftr a) (respond (readFreq i s) s)
  | count : Runs s .count (countLoop s.byteSource { clearFreq s with bytecnt := 0 })
  | buildEmpty (h : entries s = []) : Runs s .build (raise .table 0 s)
  | buildNoEnd (hne : entries s ≠ []) (h : readFreq eodIndex s = 0) : Runs s .build (raise .table 1 s)
  | build (t : State) (hne : entries s ≠ []) (heod : readFreq eodIndex s ≠ 0) (ht : buildTree s = .next t) :
      Runs s .build t
  | ndr (a b : Operand) (f : NdrField) (e : Node) (hf : ndrField b = some f) (he : treeNode (a.setWidth 10) s = some e) :
      Runs s (.ndr a b) (respond (nodeField e f) s)
  | free : Runs s .free (respond 0 (releaseTree s))
  | gen (u : State) (hu : walk 257 s.root 0 0 (clearCode s) = .ok u) : Runs s .gen (respond 0 { u with codeV := true })
  | ctr (a b : Operand) (i : TableIndex) (f : CtrField) (hi : symbolOperand a = some i) (hf : ctrField b = some f) :
      Runs s (.ctr a b) (respond (codeField (readCode i s) f) s)
  | enc : Runs s .enc (encLoop s.byteSource { s with bitcnt := 0, bytecnt := 0 })
  | dec (t : State) (ht : decLoop s.bitSource { s with bitcnt := 0, bytecnt := 0, cur := s.root } = .next t) :
      Runs s .dec t
  | csrr (a : Operand) (r : Csr) (hr : csrOperand a = some r) : Runs s (.csrr a) (respond (readCsr r s) s)

/-- A command is refused with nothing but the response written, or it is admitted and has run. -/
def RefusedOrRan (i : Instr) (s t : State) : Prop :=
  (∃ r, admission i s = some r ∧ t = refuse r s) ∨ (admission i s = none ∧ Runs s i t)

/-- Behind the admission checks only the admitted run is left to see. -/
theorem refusedOrRan_of_admitted {i : Instr} {s t : State} {run : State → Result} (h : admitted i s run = .next t)
    (hrun : rangeAdmits i s = true → run s = .next t → Runs s i t) : RefusedOrRan i s t := by
  rcases admitted_cases i s run with ⟨r, ha, hr⟩ | ⟨ha, hr⟩
  · rw [hr] at h
    cases h
    exact .inl ⟨r, ha, rfl⟩
  · obtain ⟨-, -, hrange⟩ := admission_none ha
    exact .inr ⟨ha, hrun hrange (hr ▸ h)⟩

theorem execNop_cases {s t : State} (h : execNop s = .next t) : RefusedOrRan .nop s t :=
  refusedOrRan_of_admitted h fun _ hr => by cases hr; exact .nop

theorem execClr_cases {s t : State} (h : execClr s = .next t) : RefusedOrRan .clr s t :=
  refusedOrRan_of_admitted h fun _ hr => by cases hr; exact .clr

theorem execFtw_cases {a : Operand} {c : Word} {s t : State} (h : execFtw a c s = .next t) :
    RefusedOrRan (.ftw a c) s t := by
  refine refusedOrRan_of_admitted h fun ha hr => ?_
  obtain ⟨i, hi⟩ := Option.isSome_iff_exists.mp ha
  rw [hi] at hr
  cases hr
  exact .ftw a c i hi

theorem execFtr_cases {a : Operand} {s t : State} (h : execFtr a s = .next t) : RefusedOrRan (.ftr a) s t := by
  refine refusedOrRan_of_admitted h fun ha hr => ?_
  obtain ⟨i, hi⟩ := Option.isSome_iff_exists.mp ha
  rw [hi] at hr
  cases hr
  exact .ftr a i hi

theorem execCount_cases {s t : State} (h : execCount s = .next t) : RefusedOrRan .count s t :=
  refusedOrRan_of_admitted h fun _ hr => by cases hr; exact .count

theorem execBuild_cases {s t : State} (h : execBuild s = .next t) : RefusedOrRan .build s t := by
  refine refusedOrRan_of_admitted h fun _ hr => ?_
  split at hr
  next hempty => cases hr; exact .buildEmpty hempty
  next hne =>
    split at hr
    next hend => cases hr; exact .buildNoEnd hne hend
    next hend => exact .build t hne hend hr

theorem execNdr_cases {a b : Operand} {s t : State} (h : execNdr a b s = .next t) : RefusedOrRan (.ndr a b) s t := by
  refine refusedOrRan_of_admitted h fun ha hr => ?_
  obtain ⟨f, hf⟩ := Option.isSome_iff_exists.mp (Bool.and_eq_true_iff.mp ha).2
  rw [hf] at hr
  cases he : treeNode (a.setWidth 10) s with
  | none => rw [he] at hr; cases hr
  | some e => rw [he] at hr; cases hr; exact .ndr a b f e hf he

theorem execFree_cases {s t : State} (h : execFree s = .next t) : RefusedOrRan .free s t :=
  refusedOrRan_of_admitted h fun _ hr => by cases hr; exact .free

theorem execGen_cases {s t : State} (h : execGen s = .next t) : RefusedOrRan .gen s t := by
  refine refusedOrRan_of_admitted h fun _ hr => ?_
  cases hu : walk 257 s.root 0 0 (clearCode s) with
  | error f => rw [hu] at hr; cases hr
  | ok u => rw [hu] at hr; cases hr; exact .gen u hu

theorem execCtr_cases {a b : Operand} {s t : State} (h : execCtr a b s = .next t) : RefusedOrRan (.ctr a b) s t := by
  refine refusedOrRan_of_admitted h fun ha hr => ?_
  obtain ⟨hi, hf⟩ := Bool.and_eq_true_iff.mp ha
  obtain ⟨i, hi⟩ := Option.isSome_iff_exists.mp hi
  obtain ⟨f, hf⟩ := Option.isSome_iff_exists.mp hf
  rw [hi, hf] at hr
  cases hr
  exact .ctr a b i f hi hf

theorem execEnc_cases {s t : State} (h : execEnc s = .next t) : RefusedOrRan .enc s t :=
  refusedOrRan_of_admitted h fun _ hr => by cases hr; exact .enc

theorem execDec_cases {s t : State} (h : execDec s = .next t) : RefusedOrRan .dec s t :=
  refusedOrRan_of_admitted h fun _ hr => .dec t hr

theorem execCsrr_cases {a : Operand} {s t : State} (h : execCsrr a s = .next t) : RefusedOrRan (.csrr a) s t := by
  refine refusedOrRan_of_admitted h fun ha hr => ?_
  obtain ⟨r, hc⟩ := Option.isSome_iff_exists.mp ha
  rw [hc] at hr
  cases hr
  exact .csrr a r hc

/-- Everything a command that answers a next state can have done. -/
theorem exec_cases {i : Instr} {s t : State} (h : exec i s = .next t) : RefusedOrRan i s t :=
  match i, h with
  | .nop, h => execNop_cases h
  | .clr, h => execClr_cases h
  | .ftw _ _, h => execFtw_cases h
  | .ftr _, h => execFtr_cases h
  | .count, h => execCount_cases h
  | .build, h => execBuild_cases h
  | .ndr _ _, h => execNdr_cases h
  | .free, h => execFree_cases h
  | .gen, h => execGen_cases h
  | .ctr _ _, h => execCtr_cases h
  | .enc, h => execEnc_cases h
  | .dec, h => execDec_cases h
  | .csrr _, h => execCsrr_cases h

end Sys2Proof.Machine
end

section
/-! SUPPORT. What BUILD's and GEN's parts leave alone, in every state (spec/41_tree_build.md R144 to R146,
42_code_table.md R170, R171). -/

namespace Sys2Proof.Machine

theorem pqPop_frame {s t : State} {n : NodeIndex} (h : pqPop s = some (n, t)) : t = { s with pq := t.pq } := by
  unfold pqPop at h
  split at h <;> cases h
  rfl

theorem mergeStep_frame {n : Nat} {s t : State} (h : mergeStep n s = some t) :
    t = { s with node := t.node, pq := t.pq } := by
  unfold mergeStep at h
  split at h <;> [contradiction; skip]
  next a s1 h1 =>
    split at h <;> [contradiction; skip]
    next b s2 h2 =>
      cases h
      rw [pqPop_frame h2, pqPop_frame h1]
      rfl

theorem mergeLoop_frame {k n : Nat} {s t : State} (h : mergeLoop k n s = some t) :
    t = { s with node := t.node, pq := t.pq } := by
  induction k generalizing n s with
  | zero => cases h; rfl
  | succ k ih =>
    unfold mergeLoop at h
    split at h <;> [contradiction; skip]
    next u hu => rw [ih h, mergeStep_frame hu]

/-- Everything BUILD leaves alone when it gets as far as the tree. -/
theorem buildTree_frame {s t : State} (h : buildTree s = .next t) :
    t = { s with
      node := t.node, pq := t.pq, leafcnt := t.leafcnt, nodecnt := t.nodecnt, root := t.root
      cur := Config.nil, treeV := true, port := .responding ⟨.ok, 0⟩ } := by
  have hle := entries_length_le s
  obtain ⟨hleaves, -, -⟩ := allocLeaves_spec (entries s) 0 { s with pq := [] } (by omega)
  unfold buildTree at h
  dsimp only at h
  generalize allocLeaves (entries s) 0 { s with pq := [] } = w at h hleaves
  split at h <;> [contradiction; skip]
  next u hu =>
    split at h <;> [contradiction; skip]
    next root v hv =>
      cases h
      rw [pqPop_frame hv, mergeLoop_frame hu, hleaves]
      rfl

/-- The walk writes CODE alone. -/
theorem walk_frame {levels : Nat} {n : NodeIndex} {path : CodeBits} {d : Nat} {s t : State}
    (h : walk levels n path d s = .ok t) : t = { s with code := t.code } := by
  induction levels generalizing n path d s t with
  | zero => cases h
  | succ levels ih =>
    unfold walk at h
    split at h <;> [contradiction; skip]
    split at h
    · cases h; rfl
    · cases h; rfl
    · split at h <;> [contradiction; skip]
      next u hu => rw [ih h, ih hu]

end Sys2Proof.Machine
end

section
/-! PROOFS. The three flags: what each command does to them, and the word STATUS shows (spec/10_state.md R22, R37). -/

namespace Sys2Proof.Machine

/-- DEC's loop when it answers a next state. -/
theorem decLoop_ends {l : List BitAnswer} {s t : State} (h : decLoop l s = .next t) : DecEnds l s t := by
  rcases decLoop_frame l s with hf | ⟨u, hu, hends⟩
  · rw [hf] at h; cases h
  · rw [hu] at h; cases h; exact hends

/-- What a command can do to the three flags (10_state.md R22). -/
inductive FlagChange (s t : State) : Instr → Prop where
  | kept (i : Instr) (tree : t.treeV = s.treeV) (code : t.codeV = s.codeV) (fault : t.fault = s.fault) :
      FlagChange s t i
  | faulted (i : Instr) (f : FaultKind) (tree : t.treeV = s.treeV) (code : t.codeV = s.codeV)
      (port : t.port = .responding ⟨.fault f, 0⟩) (fault : t.fault = true) : FlagChange s t i
  | treeSet (tree : t.treeV = true) (code : t.codeV = s.codeV) (fault : t.fault = s.fault)
      (port : t.port = .responding ⟨.ok, 0⟩) : FlagChange s t .build
  | treeCleared (tree : t.treeV = false) (code : t.codeV = s.codeV) (fault : t.fault = s.fault) : FlagChange s t .free
  | codeSet (tree : t.treeV = s.treeV) (code : t.codeV = true) (fault : t.fault = s.fault)
      (port : t.port = .responding ⟨.ok, 0⟩) : FlagChange s t .gen
  | allCleared (tree : t.treeV = false) (code : t.codeV = false) (fault : t.fault = false) : FlagChange s t .clr

theorem count_flagChange (s : State) :
    FlagChange s (countLoop s.byteSource { clearFreq s with bytecnt := 0 }) .count := by
  obtain ⟨t, ht, hframe, -, hend⟩ := countLoop_frame s.byteSource { clearFreq s with bytecnt := 0 }
  rw [ht]
  have htree : t.treeV = s.treeV := by rw [hframe]; rfl
  have hcode : t.codeV = s.codeV := by rw [hframe]; rfl
  rcases hend with ⟨-, hf, -⟩ | ⟨-, -, hf, -⟩ | ⟨⟨hp, -⟩ | ⟨hp, -⟩, hf, -⟩
  · exact .kept _ htree hcode hf
  · exact .kept _ htree hcode hf
  · exact .faulted _ _ htree hcode hp hf
  · exact .faulted _ _ htree hcode hp hf

theorem enc_flagChange (s : State) : FlagChange s (encLoop s.byteSource { s with bitcnt := 0, bytecnt := 0 }) .enc := by
  obtain ⟨hframe, -, -, hend⟩ := encLoop_frame s.byteSource { s with bitcnt := 0, bytecnt := 0 }
  generalize encLoop s.byteSource { s with bitcnt := 0, bytecnt := 0 } = t at hframe hend ⊢
  have htree : t.treeV = s.treeV := by rw [hframe]
  have hcode : t.codeV = s.codeV := by rw [hframe]
  rcases hend with ⟨-, hf, -⟩ | ⟨⟨hp, -⟩ | ⟨hp, -⟩, hf⟩
  · exact .kept _ htree hcode hf
  · exact .faulted _ _ htree hcode hp hf
  · exact .faulted _ _ htree hcode hp hf

theorem dec_flagChange {s t : State}
    (h : decLoop s.bitSource { s with bitcnt := 0, bytecnt := 0, cur := s.root } = .next t) : FlagChange s t .dec := by
  obtain ⟨hframe, -, -, hend⟩ := decLoop_ends h
  have htree : t.treeV = s.treeV := by rw [hframe]
  have hcode : t.codeV = s.codeV := by rw [hframe]
  rcases hend with ⟨-, hf, -⟩ | ⟨⟨hp, -⟩ | ⟨hp, -⟩ | ⟨hp, -⟩, hf⟩
  · exact .kept _ htree hcode hf
  · exact .faulted _ _ htree hcode hp hf
  · exact .faulted _ _ htree hcode hp hf
  · exact .faulted _ _ htree hcode hp hf

theorem Runs.flagChange {i : Instr} {s t : State} (h : Runs s i t) : FlagChange s t i := by
  cases h with
  | nop | ftw | ftr | ndr | ctr | csrr => exact .kept _ rfl rfl rfl
  | clr => exact .allCleared rfl rfl rfl
  | count => exact count_flagChange s
  | buildEmpty | buildNoEnd => exact .faulted _ _ rfl rfl rfl rfl
  | build _ _ _ ht => rw [buildTree_frame ht]; exact .treeSet rfl rfl rfl rfl
  | free => exact .treeCleared rfl rfl rfl
  | gen u hu => rw [walk_frame hu]; exact .codeSet rfl rfl rfl rfl
  | enc => exact enc_flagChange s
  | dec _ ht => exact dec_flagChange ht

/-- The flags after any command that answers a next state; a refusal keeps all three. -/
theorem exec_flagChange {i : Instr} {s t : State} (h : exec i s = .next t) : FlagChange s t i := by
  rcases exec_cases h with ⟨r, -, rfl⟩ | ⟨-, hrun⟩
  · exact .kept i rfl rfl rfl
  · exact hrun.flagChange

/-- Settles O55: every way a command changes a flag, read off `FlagChange`. -/
theorem flagWriters : Obligations.FlagWriters := by
  intro i s t h
  cases exec_flagChange h with
  | kept _ tree code fault => simp_all
  | faulted _ f tree code port fault => simp_all
  | treeSet tree code fault port => simp_all
  | treeCleared tree code fault => simp_all
  | codeSet tree code fault port => simp_all
  | allCleared tree code fault => simp_all

/-- Settles O21: the four parts of STATUS occupy disjoint bits, so each bit is that of the one part that covers it. -/
theorem statusBits : Obligations.StatusBits := by
  intro s k
  simp only [statusWord, BitVec.getLsbD_or, BitVec.getLsbD_shiftLeft, BitVec.getLsbD_setWidth, BitVec.getLsbD_ofBool]
  by_cases hk : k < 8
  · interval_cases k <;> simp
  · have herr : s.errcode.getLsbD (k - 4) = false := BitVec.getLsbD_of_ge _ _ (by omega)
    simp [herr, show ¬ k = 0 by omega, show ¬ k = 1 by omega, show ¬ k = 2 by omega, show ¬ k ≤ 7 by omega,
      show ¬ k - 1 = 0 by omega, show ¬ k - 2 = 0 by omega]

end Sys2Proof.Machine
end

section
/-! SUPPORT. The map GEN leaves: every code is a path of the tree, so the codes are padded, none begins another, exactly
the leaves have one, and it leads to its leaf (spec/42_code_table.md R171 to R178). -/

namespace Sys2Proof.Machine

/-- CODE of `t` is what the walk of `base`'s tree writes: the code of a path to the symbol's leaf, or nothing where no path
leads to such a leaf. -/
def WalkedCodes (base t : State) : Prop :=
  ∀ i, (∃ p, Reaches base base.root p i ∧ p.length ≤ 256 ∧ readCode i t = leafCode (extendPath 0 0 p) p.length) ∨
    ((∀ p, ¬ Reaches base base.root p i) ∧ readCode i t = ⟨0, 0⟩)

/-- GEN's walk of a tree from its root completes, and its codes are those of the tree's paths. -/
theorem walk_root {s : State} (h : TreeShape s) :
    ∃ u, walk 257 s.root 0 0 (clearCode s) = .ok u ∧ u = { s with code := u.code } ∧ WalkedCodes s u := by
  have hle := h.leaves_le
  obtain ⟨u, hu, hframe, hcodes⟩ := walk_spec h 257 s.root 0 0 (clearCode s) rfl h.depthOk_root (by omega) (by omega)
  refine ⟨u, hu, hframe, fun i => ?_⟩
  rcases hcodes i with ⟨p, hp, hlen, hc⟩ | ⟨hno, hc⟩
  · rw [Nat.zero_add] at hc
    exact .inl ⟨p, hp, by omega, hc⟩
  · rw [readCode_clearCode] at hc
    exact .inr ⟨hno, hc⟩

variable {s t : State} {i : TableIndex}

/-- A node with a table symbol is one of the leaves (10_state.md R27). -/
theorem TreeShape.lt_leafcnt (h : TreeShape s) {n : Nat} {e : Node} (hn : n < s.nodecnt.toNat)
    (he : arenaNode n s = some e) (hs : e.sym = symbolAt i) : n < s.leafcnt.toNat := by
  by_contra hge
  obtain ⟨f, hf, hint, -⟩ := h.internal_nodes n (by omega) hn
  rw [hf] at he
  cases he
  exact symbolAt_ne_internal i (hs.symm.trans hint)

/-- Leaves with the same symbol are the same leaf (10_state.md R27). -/
theorem TreeShape.leaf_unique (h : TreeShape s) {m n : Nat} {e f : Node} (hm : m < s.leafcnt.toNat)
    (hn : n < s.leafcnt.toNat) (he : arenaNode m s = some e) (hf : arenaNode n s = some f) (hs : e.sym = f.sym) :
    m = n := by
  rcases Nat.lt_trichotomy m n with hlt | heq | hgt
  · have := h.leaves_ascending m n hlt hn e f he hf
    rw [hs] at this
    exact absurd this (BitVec.lt_irrefl _)
  · exact heq
  · have := h.leaves_ascending n m hgt hm f e hf he
    rw [hs] at this
    exact absurd this (BitVec.lt_irrefl _)

/-- Every leaf is reached from the root. -/
theorem TreeShape.reaches_of_leaf (h : TreeShape s) {n : Nat} {e : Node} (hn : n < s.leafcnt.toNat)
    (he : arenaNode n s = some e) (hs : e.sym = symbolAt i) : ∃ p, Reaches s s.root p i := by
  have hroot := h.root_eq
  have hcnt := h.nodecnt_eq
  have hle := h.leaves_le
  have hnat : (BitVec.ofNat 10 n).toNat = n := toNat_ofNat10 (by omega)
  obtain ⟨p, hp⟩ := h.reachable n (by omega)
  exact ⟨p, _, e, hp, treeNode_eq_some.mpr ⟨by omega, by rw [hnat]; exact he⟩, hs⟩

/-- What is reached from the root is a leaf. -/
theorem TreeShape.leaf_of_reaches (h : TreeShape s) {p : List Bool} (hp : Reaches s s.root p i) :
    ∃ n e, n < s.leafcnt.toNat ∧ arenaNode n s = some e ∧ e.sym = symbolAt i ∧
      descend s s.root p = some (BitVec.ofNat 10 n) := by
  obtain ⟨m, e, hd, hm, hs⟩ := hp
  obtain ⟨hlt, he⟩ := treeNode_eq_some.mp hm
  refine ⟨m.toNat, e, h.lt_leafcnt hlt he hs, he, hs, ?_⟩
  rw [hd, BitVec.ofNat_toNat, BitVec.setWidth_eq]

/-- In a tree of two leaves or more every path to a leaf has a step. -/
theorem TreeShape.path_ne_nil (h : TreeShape s) (h2 : 2 ≤ s.leafcnt.toNat) {p : List Bool}
    (hp : Reaches s s.root p i) : p ≠ [] := by
  rintro rfl
  obtain ⟨m, e, hd, hm, hs⟩ := hp
  cases hd
  obtain ⟨hlt, he⟩ := treeNode_eq_some.mp hm
  have := h.lt_leafcnt hlt he hs
  have := h.root_eq
  omega

/-- In a tree of one leaf the only path to a leaf has no step. -/
theorem TreeShape.path_eq_nil (h : TreeShape s) (h1 : s.leafcnt.toNat = 1) {p : List Bool}
    (hp : Reaches s s.root p i) : p = [] := by
  have hroot := h.root_eq
  obtain ⟨e, j, he, -, -, hs⟩ | ⟨-, -, -, hge, -⟩ := h.node_cases h.depthOk_root
  · exact ((reaches_leaf he hs p i).mp hp).1
  · omega

theorem codeString_leafCode {p : List Bool} (hne : p ≠ []) (hlen : p.length ≤ 256) :
    codeString (leafCode (extendPath 0 0 p) p.length) = p := by
  have : p.length ≠ 0 := by simpa using hne
  rw [leafCode, if_neg this]
  exact codeString_extendPath p hlen

theorem leafCode_len_ne_zero {p : List Bool} (hlen : p.length ≤ 256) :
    (leafCode (extendPath 0 0 p) p.length).len ≠ 0 := by
  unfold leafCode
  split
  · decide
  · intro h0
    have := congrArg BitVec.toNat h0
    change p.length % 2 ^ 9 = 0 at this
    omega

theorem leafCode_padded {p : List Bool} (hlen : p.length ≤ 256) :
    (leafCode (extendPath 0 0 p) p.length).len.toNat ≤ 256 ∧
    ∀ k, (leafCode (extendPath 0 0 p) p.length).len.toNat ≤ k →
      (leafCode (extendPath 0 0 p) p.length).bits.getLsbD k = false := by
  unfold leafCode
  split
  · simp
  · have hl : (BitVec.ofNat 9 p.length).toNat = p.length := by rw [BitVec.toNat_ofNat]; omega
    simp only [hl]
    refine ⟨hlen, fun k hk => ?_⟩
    rw [getLsbD_extendPath p 0 0 k (by omega) (by simp)]
    simp [List.getElem?_eq_none hk]

/-- A symbol with a code is reached, and its code is its path's. -/
theorem WalkedCodes.reached (h : WalkedCodes s t) (hi : (readCode i t).len ≠ 0) :
    ∃ p, Reaches s s.root p i ∧ p.length ≤ 256 ∧ readCode i t = leafCode (extendPath 0 0 p) p.length := by
  refine (h i).resolve_right fun ⟨_, hc⟩ => hi ?_
  rw [hc]

/-- A symbol that is reached has the code of a path to its leaf. -/
theorem WalkedCodes.of_reaches (h : WalkedCodes s t) {p : List Bool} (hp : Reaches s s.root p i) :
    ∃ q, Reaches s s.root q i ∧ q.length ≤ 256 ∧ readCode i t = leafCode (extendPath 0 0 q) q.length :=
  (h i).resolve_right fun ⟨hno, _⟩ => hno p hp

theorem WalkedCodes.padded (h : WalkedCodes s t) : CodesPadded t := by
  intro i
  rcases h i with ⟨p, -, hlen, hc⟩ | ⟨-, hc⟩
  · rw [hc]
    exact leafCode_padded hlen
  · rw [hc]
    simp

/-- Exactly the symbols of the tree's leaves have a code (42_code_table.md R173). -/
theorem WalkedCodes.len_ne_zero_iff (h : WalkedCodes s t) (hs : TreeShape s) :
    (readCode i t).len ≠ 0 ↔ ∃ n e, n < s.leafcnt.toNat ∧ arenaNode n s = some e ∧ e.sym = symbolAt i := by
  constructor
  · intro hi
    obtain ⟨p, hp, -⟩ := h.reached hi
    obtain ⟨n, e, hn, he, hsym, -⟩ := hs.leaf_of_reaches hp
    exact ⟨n, e, hn, he, hsym⟩
  · rintro ⟨n, e, hn, he, hsym⟩
    obtain ⟨p, hp⟩ := hs.reaches_of_leaf hn he hsym
    obtain ⟨q, -, hlen, hc⟩ := h.of_reaches hp
    rw [hc]
    exact leafCode_len_ne_zero hlen

/-- Where one code begins another, one path to a leaf begins the other, so both are paths to the same leaf
(42_code_table.md R177). -/
theorem WalkedCodes.prefixFree (h : WalkedCodes s t) (hs : TreeShape s) : PrefixFree t := by
  intro i j hij hi hj hpre
  obtain ⟨p, hp, hplen, hpc⟩ := h.reached hi
  obtain ⟨q, hq, hqlen, hqc⟩ := h.reached hj
  refine hij (reaches_prefix hp hq ?_)
  have hpos := hs.leaves_pos
  rcases Nat.lt_or_ge 1 s.leafcnt.toNat with h2 | h1
  · rwa [hpc, hqc, codeString_leafCode (hs.path_ne_nil h2 hp) hplen,
      codeString_leafCode (hs.path_ne_nil h2 hq) hqlen] at hpre
  · rw [hs.path_eq_nil (by omega) hp]
    exact List.nil_prefix

/-- The map of a walked tree, read in any state with that tree and that CODE (42_code_table.md R172, R173, R178). -/
theorem WalkedCodes.mapOfTree (h : WalkedCodes s t) (hs : TreeShape s) (hnode : t.node = s.node)
    (hleafcnt : t.leafcnt = s.leafcnt) (hnodecnt : t.nodecnt = s.nodecnt) (hroot : t.root = s.root) : MapOfTree t := by
  have harena : ∀ n, arenaNode n t = arenaNode n s := fun n => by rw [arenaNode, arenaNode, hnode]
  refine ⟨h.padded, ?_, ?_, ?_⟩
  · intro h2 n e i hn he hsym
    rw [hleafcnt] at h2 hn
    rw [harena] at he
    obtain ⟨p, hp⟩ := hs.reaches_of_leaf hn he hsym
    obtain ⟨q, hq, hlen, hc⟩ := h.of_reaches hp
    obtain ⟨m, f, hm, hf, hfsym, hd⟩ := hs.leaf_of_reaches hq
    rw [hc, codeString_leafCode (hs.path_ne_nil h2 hq) hlen, descend_congr hnode hnodecnt, hroot, hd,
      hs.leaf_unique hm hn hf he (hfsym.trans hsym.symm)]
  · intro h1 e i he hsym
    rw [hleafcnt] at h1
    rw [harena] at he
    obtain ⟨p, hp⟩ := hs.reaches_of_leaf (by omega) he hsym
    obtain ⟨q, hq, -, hc⟩ := h.of_reaches hp
    rw [hc, hs.path_eq_nil h1 hq]
    rfl
  · intro i hno
    rcases h i with ⟨p, hp, -⟩ | ⟨-, hc⟩
    · obtain ⟨n, e, hn, he, hsym, -⟩ := hs.leaf_of_reaches hp
      exact absurd hsym (hno n e (by rwa [hleafcnt]) (by rwa [harena]))
    · exact hc

end Sys2Proof.Machine
end

section
/-! SUPPORT. The tree BUILD leaves has BUILD's laws (spec/41_tree_build.md R140 to R147). -/

namespace Sys2Proof.Machine

/-- A pop of a queue with one member takes it. -/
theorem pqPop_singleton {s : State} {n : NodeIndex} (h : s.pq = [n]) : pqPop s = some (n, { s with pq := [] }) := by
  simp [pqPop, pqLeast, h]

/-- BUILD of a valid table answers a next state with a tree of BUILD's laws and an empty queue. -/
theorem buildTree_laws (s : State) (hne : entries s ≠ []) (heod : readFreq eodIndex s ≠ 0) :
    ∃ t, buildTree s = .next t ∧ TreeLaws t ∧ t.pq = [] := by
  have hpos := List.length_pos_iff.mpr hne
  have hle := entries_length_le s
  obtain ⟨halloc, -, hleaves⟩ := allocLeaves_spec (entries s) 0 { s with pq := [] } (by omega)
  have hstart : Forest { allocLeaves (entries s) 0 { s with pq := [] } with leafcnt := BitVec.ofNat 9 (entries s).length }
      (entries s).length (entries s).length (s.freq.toList.map BitVec.toNat).sum
      { allocLeaves (entries s) 0 { s with pq := [] } with leafcnt := BitVec.ofNat 9 (entries s).length } :=
    allocLeaves_forest { s with pq := [] } hne rfl _
  unfold buildTree
  dsimp only
  generalize allocLeaves (entries s) 0 { s with pq := [] } = w at halloc hleaves hstart ⊢
  obtain ⟨u, hu, hforest⟩ := mergeLoop_forest ((total_lt s).trans (by norm_num)) ((entries s).length - 1) _ _ hstart
    (by omega)
  obtain ⟨nodes, queue, rfl⟩ :
      ∃ v q, u = { s with node := v, pq := q, leafcnt := BitVec.ofNat 9 (entries s).length } :=
    ⟨u.node, u.pq, by rw [hforest.frame, halloc]⟩
  rw [hu]
  dsimp only
  rw [pqPop_singleton hforest.queue_eq]
  refine ⟨_, rfl, ?_, rfl⟩
  apply Forest.treeLaws (L := (entries s).length)
  case h => exact hforest
  case hnode => rfl
  case hL => rfl
  case hvalid => exact heod
  case hleafcnt =>
    show (BitVec.ofNat 9 _).toNat = _
    rw [BitVec.toNat_ofNat]
    omega
  case hnodecnt => exact toNat_ofNat10 (by omega)
  case hroot => exact toNat_ofNat10 (by omega)
  case hleaves =>
    intro k hk
    have := hleaves k hk
    rwa [Nat.zero_add] at this

end Sys2Proof.Machine
end

section
/-! SUPPORT. The invariant by its parts: the fault registers, CUR, the tables; and the states it holds in
(spec/10_state.md R27 to R35, R40). -/

namespace Sys2Proof.Machine

variable {s t : State}

/-- ERRCODE and ERRINFO are as FAULT says (10_state.md R35). -/
def FaultRegisters (s : State) : Prop :=
  (s.fault = false → s.errcode = 0 ∧ s.errinfo = 0) ∧ (s.fault = true → 8 ≤ s.errcode.toNat ∧ s.errcode.toNat ≤ 13)

/-- CUR is NIL without a tree, and NIL or a node of the tree with one (10_state.md R32, 70_reset_and_hazards.md R292). -/
def CursorOk (s : State) : Prop :=
  (s.treeV = false → s.cur = Config.nil) ∧ (s.treeV = true → s.cur = Config.nil ∨ s.cur.toNat < s.nodecnt.toNat)

/-- What the tree and the map are made of is the same in both states. -/
structure SameTables (s t : State) : Prop where
  freq : t.freq = s.freq
  node : t.node = s.node
  code : t.code = s.code
  pq : t.pq = s.pq
  leafcnt : t.leafcnt = s.leafcnt
  nodecnt : t.nodecnt = s.nodecnt
  root : t.root = s.root
  treeV : t.treeV = s.treeV
  codeV : t.codeV = s.codeV

theorem Inv.faultRegisters (h : Inv s) : FaultRegisters s := ⟨h.no_fault, h.fault_code⟩

theorem Inv.cursorOk (h : Inv s) : CursorOk s := ⟨fun ht => (h.no_tree ht).2.2.2, h.cursor⟩

/-- The laws of a tree speak of FREQ, NODE and the tree's registers alone. -/
theorem TreeLaws.congr (h : TreeLaws s) (hfreq : t.freq = s.freq) (hnode : t.node = s.node)
    (hleafcnt : t.leafcnt = s.leafcnt) (hnodecnt : t.nodecnt = s.nodecnt) (hroot : t.root = s.root) : TreeLaws t := by
  cases s
  cases t
  dsimp only at hfreq hnode hleafcnt hnodecnt hroot
  subst hfreq hnode hleafcnt hnodecnt hroot
  exact { h with }

theorem CodesPadded.congr (h : CodesPadded s) (hcode : t.code = s.code) : CodesPadded t := by
  simpa only [CodesPadded, readCode, hcode] using h

theorem PrefixFree.congr (h : PrefixFree s) (hcode : t.code = s.code) : PrefixFree t := by
  simpa only [PrefixFree, readCode, hcode] using h

/-- A map is the tree's in any state with the same CODE, NODE and tree registers. -/
theorem MapOfTree.congr (h : MapOfTree s) (same : SameTables s t) : MapOfTree t := by
  have hcode : ∀ i, readCode i t = readCode i s := fun i => by rw [readCode, readCode, same.code]
  have harena : ∀ n, arenaNode n t = arenaNode n s := fun n => by rw [arenaNode, arenaNode, same.node]
  refine ⟨h.padded.congr same.code, ?_, ?_, ?_⟩
  · simpa only [hcode, harena, same.leafcnt, same.root, descend_congr same.node same.nodecnt] using h.path
  · simpa only [hcode, harena, same.leafcnt] using h.root_leaf
  · simpa only [hcode, harena, same.leafcnt] using h.no_leaf

/-- The invariant of a state whose tables are those of a state with the invariant needs only the fault registers and
CUR. -/
theorem Inv.of_sameTables (h : Inv s) (same : SameTables s t) (hfault : FaultRegisters t) (hcur : CursorOk t) : Inv t where
  queue_empty := same.pq.trans h.queue_empty
  no_fault := hfault.1
  fault_code := hfault.2
  no_tree ht := by
    obtain ⟨hleafcnt, hnodecnt, hroot, -⟩ := h.no_tree (same.treeV ▸ ht)
    exact ⟨same.leafcnt.trans hleafcnt, same.nodecnt.trans hnodecnt, same.root.trans hroot, hcur.1 ht⟩
  tree ht := (h.tree (same.treeV ▸ ht)).congr same.freq same.node same.leafcnt same.nodecnt same.root
  cursor := hcur.2
  codes_padded hc := (h.codes_padded (same.codeV ▸ hc)).congr same.code
  codes_of_entries hc := by
    simpa only [readCode, readFreq, same.code, same.freq] using h.codes_of_entries (same.codeV ▸ hc)
  codes_prefix_free hc := (h.codes_prefix_free (same.codeV ▸ hc)).congr same.code
  terminator hc := by simpa only [readFreq, same.freq] using h.terminator (same.codeV ▸ hc)
  map_of_tree ht hc := (h.map_of_tree (same.treeV ▸ ht) (same.codeV ▸ hc)).congr same

theorem FaultRegisters.congr (h : FaultRegisters s) (hfault : t.fault = s.fault) (herrcode : t.errcode = s.errcode)
    (herrinfo : t.errinfo = s.errinfo) : FaultRegisters t := by
  simpa only [FaultRegisters, hfault, herrcode, herrinfo] using h

theorem CursorOk.congr (h : CursorOk s) (htree : t.treeV = s.treeV) (hcur : t.cur = s.cur)
    (hnodecnt : t.nodecnt = s.nodecnt) : CursorOk t := by
  simpa only [CursorOk, htree, hcur, hnodecnt] using h

theorem faultRegisters_of_code (hfault : t.fault = true) (hlow : 8 ≤ t.errcode.toNat) (hhigh : t.errcode.toNat ≤ 13) :
    FaultRegisters t :=
  ⟨fun h => absurd (hfault.symm.trans h) (by decide), fun _ => ⟨hlow, hhigh⟩⟩

/-- A fault's code is one of 8..13 (30_encoding.md R96). -/
theorem FaultKind.number_bounds (f : FaultKind) : 8 ≤ f.number.toNat ∧ f.number.toNat ≤ 13 := by cases f <;> decide

theorem faultRegisters_raise (f : FaultKind) (info : Word) (s : State) : FaultRegisters (raise f info s) :=
  faultRegisters_of_code rfl f.number_bounds.1 f.number_bounds.2

/-- The invariant in the phase TABLE: nothing is asked of FREQ, NODE or CODE there. -/
theorem inv_of_phase_table (hq : t.pq = []) (hfault : FaultRegisters t) (ht : t.treeV = false) (hc : t.codeV = false)
    (hregs : t.leafcnt = 0 ∧ t.nodecnt = 0 ∧ t.root = Config.nil ∧ t.cur = Config.nil) : Inv t where
  queue_empty := hq
  no_fault := hfault.1
  fault_code := hfault.2
  no_tree _ := hregs
  tree h := absurd (ht.symm.trans h) (by decide)
  cursor h := absurd (ht.symm.trans h) (by decide)
  codes_padded h := absurd (hc.symm.trans h) (by decide)
  codes_of_entries h := absurd (hc.symm.trans h) (by decide)
  codes_prefix_free h := absurd (hc.symm.trans h) (by decide)
  terminator h := absurd (hc.symm.trans h) (by decide)
  map_of_tree _ h := absurd (hc.symm.trans h) (by decide)

theorem AtReset.inv (h : AtReset s) : Inv s :=
  inv_of_phase_table h.pq ⟨fun _ => ⟨h.errcode, h.errinfo⟩, fun hf => absurd (h.fault.symm.trans hf) (by decide)⟩
    h.treeV h.codeV ⟨h.leafcnt, h.nodecnt, h.root, h.cur⟩

theorem atReset_reset : AtReset State.reset := by constructor <;> rfl

theorem atReset_releaseAll (s : State) : AtReset (releaseAll s) := by constructor <;> rfl

theorem atReset_pulseReset (s : State) : AtReset (pulseReset s) := by constructor <;> rfl

end Sys2Proof.Machine
end

section
/-! PROOFS. The machine after reset (spec/10_state.md R38, R40; 60_exceptions.md R255). -/

namespace Sys2Proof.Machine

/-- Without a tree NDR is out of sequence (60_exceptions.md R255). -/
theorem execNdr_without_tree {a b : Operand} {s : State} (h : s.treeV = false) :
    exec (.ndr a b) s = refusedWith .seq s := by
  have hadm : admission (.ndr a b) s = some .seq := by simp [admission, faultChecked, phaseAdmits, h]
  rw [exec, execNdr, admitted_some _ hadm]
  rfl

/-- Without a map CTR is out of sequence (60_exceptions.md R255). -/
theorem execCtr_without_map {a b : Operand} {s : State} (h : s.codeV = false) :
    exec (.ctr a b) s = refusedWith .seq s := by
  have hadm : admission (.ctr a b) s = some .seq := by simp [admission, faultChecked, phaseAdmits, h]
  rw [exec, execCtr, admitted_some _ hadm]
  rfl

/-- Settles O11: the registers are those of `AtReset`, which has neither tree nor map, and CSRR reads them. -/
theorem resetValues : Obligations.ResetValues :=
  ⟨atReset_reset, rfl, fun _ _ => execNdr_without_tree rfl, fun _ _ => execCtr_without_map rfl, rfl, rfl, rfl, rfl⟩

/-- Settles O57: the registers' reset values put the machine in phase TABLE. -/
theorem resetHasInvariant : Obligations.ResetHasInvariant := atReset_reset.inv

end Sys2Proof.Machine
end

section
/-! PROOFS. Every command and every action of the host keeps the invariant (spec/70_reset_and_hazards.md R292). -/

namespace Sys2Proof.Machine

variable {s t : State}

/-! ### The host's actions and the reads -/

/-- A state that differs only in the port, the counters, the host's side and the free values. -/
theorem Inv.of_sameRegisters (h : Inv s) (same : SameTables s t) (hcur : t.cur = s.cur) (hfault : t.fault = s.fault)
    (herrcode : t.errcode = s.errcode) (herrinfo : t.errinfo = s.errinfo) : Inv t :=
  h.of_sameTables same (h.faultRegisters.congr hfault herrcode herrinfo)
    (h.cursorOk.congr same.treeV hcur same.nodecnt)

theorem Inv.respond (h : Inv s) (d : Word) : Inv (respond d s) :=
  h.of_sameRegisters (by constructor <;> rfl) rfl rfl rfl rfl

theorem Inv.refuse (h : Inv s) (r : RefusalKind) : Inv (refuse r s) :=
  h.of_sameRegisters (by constructor <;> rfl) rfl rfl rfl rfl

theorem Inv.script (h : Inv s) (rest : List HostAct) : Inv { s with script := rest } :=
  h.of_sameRegisters (by constructor <;> rfl) rfl rfl rfl rfl

theorem Inv.takeResponse (h : Inv s) (r : Response) : Inv (takeResponse r s) :=
  h.of_sameRegisters (by constructor <;> rfl) rfl rfl rfl rfl

theorem Inv.concludeInvocation (h : Inv s) : Inv (concludeInvocation s) :=
  h.of_sameRegisters (by constructor <;> rfl) rfl rfl rfl rfl

theorem Inv.streams (h : Inv s) (rest : List HostAct) (bys : List ByteAnswer) (bis : List BitAnswer) (byk bik : Sink) :
    Inv { s with script := rest, byteSource := bys, bitSource := bis, byteSink := byk, bitSink := bik } :=
  h.of_sameRegisters (by constructor <;> rfl) rfl rfl rfl rfl

theorem Inv.raise (h : Inv s) (f : FaultKind) (info : Word) : Inv (raise f info s) :=
  h.of_sameTables (by constructor <;> rfl) (faultRegisters_raise f info s) (h.cursorOk.congr rfl rfl rfl)

theorem inv_clr (s : State) : Inv (respond 0 (releaseAll s)) := (atReset_releaseAll s).inv.respond 0

/-! ### FTW, COUNT -/

theorem Inv.ftw (h : Inv s) (ht : s.treeV = false) (hc : s.codeV = false) (i : TableIndex) (c : FreqCount) :
    Inv (Machine.respond 0 (writeFreq i c s)) :=
  inv_of_phase_table h.queue_empty (h.faultRegisters.congr rfl rfl rfl) ht hc (h.no_tree ht)

theorem countLoop_faultRegisters (l : List ByteAnswer) (hs : FaultRegisters s) : FaultRegisters (countLoop l s) := by
  obtain ⟨t, ht, -, -, hend⟩ := countLoop_frame l s
  rw [ht]
  rcases hend with ⟨-, hf, hcode, hinfo⟩ | ⟨-, -, hf, hcode, hinfo⟩ | ⟨⟨-, hcode, -⟩ | ⟨-, hcode, -⟩, hf, -⟩
  · exact hs.congr hf hcode hinfo
  · exact hs.congr hf hcode hinfo
  · exact faultRegisters_of_code hf (by rw [hcode]; decide) (by rw [hcode]; decide)
  · exact faultRegisters_of_code hf (by rw [hcode]; decide) (by rw [hcode]; decide)

theorem Inv.count (h : Inv s) (ht : s.treeV = false) (hc : s.codeV = false) :
    Inv (countLoop s.byteSource { clearFreq s with bytecnt := 0 }) := by
  have hfault := countLoop_faultRegisters (s := { clearFreq s with bytecnt := 0 }) s.byteSource
    (h.faultRegisters.congr rfl rfl rfl)
  obtain ⟨t, heq, hframe, -⟩ := countLoop_frame s.byteSource { clearFreq s with bytecnt := 0 }
  rw [heq] at hfault ⊢
  have hcleared := h.no_tree ht
  refine inv_of_phase_table ?_ hfault ?_ ?_ ?_ <;> rw [hframe]
  · exact h.queue_empty
  · exact ht
  · exact hc
  · exact hcleared

/-! ### BUILD, FREE -/

theorem Inv.build (h : Inv s) (hc : s.codeV = false) (hne : entries s ≠ []) (heod : readFreq eodIndex s ≠ 0)
    (hb : buildTree s = .next t) : Inv t := by
  obtain ⟨u, hu, hlaws, hq⟩ := buildTree_laws s hne heod
  rw [hu] at hb
  cases hb
  have hframe := buildTree_frame hu
  have htree : t.treeV = true := by rw [hframe]
  have hcode : t.codeV = false := by rw [hframe]; exact hc
  have hfault : FaultRegisters t := h.faultRegisters.congr (by rw [hframe]) (by rw [hframe]) (by rw [hframe])
  exact {
    queue_empty := hq
    no_fault := hfault.1
    fault_code := hfault.2
    no_tree := fun ht => absurd (htree.symm.trans ht) (by decide)
    tree := fun _ => hlaws
    cursor := fun _ => .inl (by rw [hframe])
    codes_padded := fun hv => absurd (hcode.symm.trans hv) (by decide)
    codes_of_entries := fun hv => absurd (hcode.symm.trans hv) (by decide)
    codes_prefix_free := fun hv => absurd (hcode.symm.trans hv) (by decide)
    terminator := fun hv => absurd (hcode.symm.trans hv) (by decide)
    map_of_tree := fun _ hv => absurd (hcode.symm.trans hv) (by decide) }

/-- Without the tree the map is all there is to keep, and it does not speak of NODE, whatever NODE then holds. -/
theorem Inv.without_tree (h : Inv s) (nodes : Vector Node 513) (draws : Nat) :
    Inv { s with
      treeV := false, leafcnt := 0, nodecnt := 0, root := Config.nil, cur := Config.nil
      node := nodes, draws := draws } where
  queue_empty := h.queue_empty
  no_fault := h.no_fault
  fault_code := h.fault_code
  no_tree _ := ⟨rfl, rfl, rfl, rfl⟩
  tree ht := absurd ht Bool.false_ne_true
  cursor ht := absurd ht Bool.false_ne_true
  codes_padded hc := (h.codes_padded hc).congr rfl
  codes_of_entries := h.codes_of_entries
  codes_prefix_free hc := (h.codes_prefix_free hc).congr rfl
  terminator := h.terminator
  map_of_tree ht := absurd ht Bool.false_ne_true

theorem Inv.free (h : Inv s) : Inv (Machine.respond 0 (releaseTree s)) := (h.without_tree _ _).respond 0

/-! ### GEN -/

/-- In a walked tree with BUILD's laws exactly the entries of FREQ have a code (42_code_table.md R173). -/
theorem WalkedCodes.len_ne_zero_iff_entry (h : WalkedCodes s t) (hs : TreeLaws s) (i : TableIndex) :
    (readCode i t).len ≠ 0 ↔ readFreq i s ≠ 0 := by
  rw [h.len_ne_zero_iff hs.toTreeShape]
  constructor
  · rintro ⟨n, e, hn, he, hsym⟩
    obtain ⟨j, hj, hfreq, -⟩ := hs.entry_of_leaf n e hn he
    rwa [symbolAt_injective (hsym.symm.trans hj)]
  · exact hs.leaf_of_entry i

theorem Inv.gen (h : Inv s) (ht : s.treeV = true) {u : State} (hu : walk 257 s.root 0 0 (clearCode s) = .ok u) :
    Inv (Machine.respond 0 { u with codeV := true }) := by
  have hlaws := h.tree ht
  obtain ⟨v, hv, hframe, hcodes⟩ := walk_root hlaws.toTreeShape
  rw [hv] at hu
  cases hu
  rw [hframe] at hcodes ⊢
  replace hcodes : WalkedCodes s (Machine.respond 0 { s with code := u.code, codeV := true }) := hcodes
  exact {
    queue_empty := h.queue_empty
    no_fault := h.no_fault
    fault_code := h.fault_code
    no_tree := fun hf => absurd (ht.symm.trans hf) (by decide)
    tree := fun _ => hlaws.congr rfl rfl rfl rfl rfl
    cursor := h.cursor
    codes_padded := fun _ => hcodes.padded
    codes_of_entries := fun _ => hcodes.len_ne_zero_iff_entry hlaws
    codes_prefix_free := fun _ => hcodes.prefixFree hlaws.toTreeShape
    terminator := fun _ => hlaws.table_valid
    map_of_tree := fun _ _ => hcodes.mapOfTree hlaws.toTreeShape rfl rfl rfl rfl }

/-! ### ENC, DEC -/

theorem EncEnds.faultRegisters {l : List ByteAnswer} (h : EncEnds l s t) (hs : FaultRegisters s) : FaultRegisters t := by
  obtain ⟨-, -, -, hend⟩ := h
  rcases hend with ⟨-, hf, hcode, hinfo⟩ | ⟨⟨-, hcode, -⟩ | ⟨-, hcode, -⟩, hf⟩
  · exact hs.congr hf hcode hinfo
  · exact faultRegisters_of_code hf (by rw [hcode]; decide) (by rw [hcode]; decide)
  · exact faultRegisters_of_code hf (by rw [hcode]; decide) (by rw [hcode]; decide)

theorem DecEnds.faultRegisters {l : List BitAnswer} (h : DecEnds l s t) (hs : FaultRegisters s) : FaultRegisters t := by
  obtain ⟨-, -, -, hend⟩ := h
  rcases hend with ⟨-, hf, hcode, hinfo⟩ | ⟨⟨-, hcode, -⟩ | ⟨-, hcode, -⟩ | ⟨-, hcode, -⟩, hf⟩
  · exact hs.congr hf hcode hinfo
  · exact faultRegisters_of_code hf (by rw [hcode]; decide) (by rw [hcode]; decide)
  · exact faultRegisters_of_code hf (by rw [hcode]; decide) (by rw [hcode]; decide)
  · exact faultRegisters_of_code hf (by rw [hcode]; decide) (by rw [hcode]; decide)

theorem Inv.enc (h : Inv s) : Inv (encLoop s.byteSource { s with bitcnt := 0, bytecnt := 0 }) := by
  have hends := encLoop_frame s.byteSource { s with bitcnt := 0, bytecnt := 0 }
  generalize encLoop s.byteSource { s with bitcnt := 0, bytecnt := 0 } = t at hends ⊢
  have hfault := hends.faultRegisters (h.faultRegisters.congr rfl rfl rfl)
  obtain ⟨hframe, -⟩ := hends
  refine h.of_sameTables ?_ hfault (h.cursorOk.congr ?_ ?_ ?_)
  · constructor <;> rw [hframe]
  all_goals rw [hframe]

/-- DEC leaves CUR at a node of the tree: every node it moves to is followed there, and a byte puts it back to ROOT. -/
theorem decLoop_cur_lt {l : List BitAnswer} (h : decLoop l s = .next t) (hroot : s.root.toNat < s.nodecnt.toNat)
    (hcur : s.cur.toNat < s.nodecnt.toNat) : t.cur.toNat < s.nodecnt.toNat := by
  induction l generalizing s with
  | nil => cases h; exact hcur
  | cons a rest ih =>
    cases a with
    | err => cases h; exact hcur
    | eof => cases h; exact hcur
    | bit b =>
      simp only [decLoop] at h
      split at h
      · cases h
      · cases h; exact hcur
      next c _ =>
        split at h
        · cases h
        next e he =>
          have hc : c.toNat < s.nodecnt.toNat := (treeNode_eq_some.mp he).1
          split at h
          · exact (ih h hroot hc :)
          · cases h; exact hc
          next v _ =>
            rcases byteOut_cases v { bumpBitcnt (bitTaken rest s) with cur := c } with ⟨k, hk⟩ | ⟨k, hk⟩ | ⟨k, hk⟩
            · simp only [hk] at h
              exact (ih h hroot hroot :)
            · rw [hk] at h
              cases h
              exact hc
            · rw [hk] at h
              cases h
              exact hc

theorem Inv.dec (h : Inv s) (ht : s.treeV = true)
    (hd : decLoop s.bitSource { s with bitcnt := 0, bytecnt := 0, cur := s.root } = .next t) : Inv t := by
  obtain ⟨hroot, -⟩ := (h.tree ht).toTreeShape.depthOk_root
  have hcur := decLoop_cur_lt hd hroot hroot
  have hends := decLoop_ends hd
  have hfault := hends.faultRegisters (h.faultRegisters.congr rfl rfl rfl)
  obtain ⟨hframe, -⟩ := hends
  have htree : t.treeV = true := by rw [hframe]; exact ht
  refine h.of_sameTables ?_ hfault ⟨fun hf => absurd (htree.symm.trans hf) (by decide), fun _ => .inr ?_⟩
  · constructor <;> rw [hframe]
  · rw [show t.nodecnt = s.nodecnt by rw [hframe]]
    exact hcur

/-! ### Every command, every step -/

theorem phaseTable_of_admission {i : Instr} (h : admission i s = none)
    (hi : phaseAdmits i s = (!s.treeV && !s.codeV)) : s.treeV = false ∧ s.codeV = false := by
  obtain ⟨-, hphase, -⟩ := admission_none h
  simpa [hi] using hphase

theorem Runs.inv {i : Instr} (h : Inv s) (ha : admission i s = none) (hrun : Runs s i t) : Inv t := by
  cases hrun with
  | nop | ftr | ndr | ctr | csrr => exact h.respond _
  | clr => exact inv_clr s
  | ftw a c i =>
    obtain ⟨ht, hc⟩ := phaseTable_of_admission ha rfl
    exact h.ftw ht hc i c
  | count =>
    obtain ⟨ht, hc⟩ := phaseTable_of_admission ha rfl
    exact h.count ht hc
  | buildEmpty | buildNoEnd => exact h.raise _ _
  | build _ hne heod hb =>
    obtain ⟨-, hc⟩ := phaseTable_of_admission ha rfl
    exact h.build hc hne heod hb
  | free => exact h.free
  | gen u hu =>
    obtain ⟨-, hphase, -⟩ := admission_none ha
    exact h.gen (Bool.and_eq_true_iff.mp hphase).1 hu
  | enc => exact h.enc
  | dec _ hd =>
    obtain ⟨-, hphase, -⟩ := admission_none ha
    exact h.dec hphase hd

/-- Every command that answers a next state keeps the invariant. -/
theorem Inv.exec {i : Instr} (h : Inv s) (hx : exec i s = .next t) : Inv t := by
  rcases exec_cases hx with ⟨r, -, rfl⟩ | ⟨ha, hrun⟩
  · exact h.refuse r
  · exact hrun.inv h ha

theorem step_of_settled {u : State} (h : hostMove s = .settled u) : step s = .next u := by rw [step, h]

theorem step_of_run {i : Instr} {u : State} (h : hostMove s = .run i u) : step s = Machine.exec i u := by rw [step, h]

/-- Settles O58: a step is one of the host's actions, which keep every register or reset them all, or a command. -/
theorem stepKeepsInvariant : Obligations.StepKeepsInvariant := by
  intro s t h hstep
  rcases hostMove_cases s with hm | ⟨rest, -, hm⟩ | ⟨r, rest, -, hm⟩ | ⟨rest, bys, bis, byk, bik, hm⟩ | ⟨rest, hm⟩ |
    ⟨rest, hm⟩ | ⟨i, rest, -, hm⟩
  · cases (step_of_settled hm).symm.trans hstep
    exact h
  · cases (step_of_settled hm).symm.trans hstep
    exact (atReset_pulseReset _).inv
  · cases (step_of_settled hm).symm.trans hstep
    exact (h.script rest).takeResponse r
  · cases (step_of_settled hm).symm.trans hstep
    exact h.streams rest bys bis byk bik
  · cases (step_of_settled hm).symm.trans hstep
    exact (h.script rest).concludeInvocation
  · cases (step_of_settled hm).symm.trans hstep
    exact (h.script rest).refuse .illegal
  · exact (h.script rest).exec ((step_of_run hm).symm.trans hstep)

end Sys2Proof.Machine
end

section
/-! PROOFS. What each command writes, and what follows for the state, the streams and the host's record
(spec/20_memory.md R60, R61, R64, R79). -/

namespace Sys2Proof.Machine

variable {s t : State}

/-- What each command may write, every other field being as before; a source loses items from the front alone, and what a
sink has accepted stays accepted (R60, R61, R79). -/
def Footprint (s t : State) : Instr → Prop
  | .nop | .ftr _ | .ndr _ _ | .ctr _ _ | .csrr _ => t = { s with port := t.port }
  | .clr => t = { s with
      freq := t.freq, node := t.node, code := t.code, pq := t.pq, leafcnt := t.leafcnt, nodecnt := t.nodecnt
      root := t.root, cur := t.cur, bitcnt := t.bitcnt, bytecnt := t.bytecnt, treeV := t.treeV, codeV := t.codeV
      fault := t.fault, errcode := t.errcode, errinfo := t.errinfo, draws := t.draws, port := t.port }
  | .ftw _ _ => t = { s with freq := t.freq, port := t.port }
  | .count => t = { s with
      freq := t.freq, bytecnt := t.bytecnt, byteSource := t.byteSource, fault := t.fault, errcode := t.errcode
      errinfo := t.errinfo, port := t.port } ∧ t.byteSource <:+ s.byteSource
  | .build => t = { s with
      node := t.node, pq := t.pq, leafcnt := t.leafcnt, nodecnt := t.nodecnt, root := t.root, cur := t.cur
      treeV := t.treeV, fault := t.fault, errcode := t.errcode, errinfo := t.errinfo, port := t.port }
  | .free => t = { s with
      node := t.node, leafcnt := t.leafcnt, nodecnt := t.nodecnt, root := t.root, cur := t.cur, treeV := t.treeV
      draws := t.draws, port := t.port }
  | .gen => t = { s with code := t.code, codeV := t.codeV, port := t.port }
  | .enc => t = { s with
      bitsOut := t.bitsOut, bitSink := t.bitSink, bitcnt := t.bitcnt, bytecnt := t.bytecnt, byteSource := t.byteSource
      fault := t.fault, errcode := t.errcode, errinfo := t.errinfo, port := t.port } ∧
      t.byteSource <:+ s.byteSource ∧ s.bitsOut <+: t.bitsOut
  | .dec => t = { s with
      bytesOut := t.bytesOut, byteSink := t.byteSink, bitcnt := t.bitcnt, bytecnt := t.bytecnt, cur := t.cur
      bitSource := t.bitSource, fault := t.fault, errcode := t.errcode, errinfo := t.errinfo, port := t.port } ∧
      t.bitSource <:+ s.bitSource ∧ s.bytesOut <+: t.bytesOut

/-- A list that is the old one or ends it ends it. -/
theorem suffix_of_eq_or_suffix {α : Type} {l m : List α} (h : l = m ∨ l <:+ m) : l <:+ m :=
  h.elim (fun heq => heq ▸ List.suffix_refl l) id

theorem footprint_refuse (r : RefusalKind) (i : Instr) (s : State) : Footprint s (refuse r s) i := by
  cases i with
  | count => exact ⟨rfl, List.suffix_refl _⟩
  | enc | dec => exact ⟨rfl, List.suffix_refl _, List.prefix_refl _⟩
  | _ => exact rfl

theorem count_footprint (s : State) : Footprint s (countLoop s.byteSource { clearFreq s with bytecnt := 0 }) .count := by
  obtain ⟨t, ht, hframe, hsrc, -⟩ := countLoop_frame s.byteSource { clearFreq s with bytecnt := 0 }
  rw [ht]
  exact ⟨hframe, suffix_of_eq_or_suffix hsrc⟩

theorem enc_footprint (s : State) : Footprint s (encLoop s.byteSource { s with bitcnt := 0, bytecnt := 0 }) .enc := by
  obtain ⟨hframe, hsrc, hout, -⟩ := encLoop_frame s.byteSource { s with bitcnt := 0, bytecnt := 0 }
  exact ⟨hframe, suffix_of_eq_or_suffix hsrc, hout⟩

theorem dec_footprint (h : decLoop s.bitSource { s with bitcnt := 0, bytecnt := 0, cur := s.root } = .next t) :
    Footprint s t .dec := by
  obtain ⟨hframe, hsrc, hout, -⟩ := decLoop_ends h
  exact ⟨hframe, suffix_of_eq_or_suffix hsrc, hout⟩

theorem Runs.footprint {i : Instr} (h : Runs s i t) : Footprint s t i := by
  cases h with
  | nop | ftr | ndr | ctr | csrr | clr | ftw | free | buildEmpty | buildNoEnd => exact rfl
  | count => exact count_footprint s
  | build _ _ _ ht => rw [buildTree_frame ht]; exact rfl
  | gen u hu => rw [walk_frame hu]; exact rfl
  | enc => exact enc_footprint s
  | dec _ ht => exact dec_footprint ht

/-- Every command that answers a next state, refused or run, stays within its footprint. -/
theorem exec_footprint {i : Instr} (h : exec i s = .next t) : Footprint s t i := by
  rcases exec_cases h with ⟨r, -, rfl⟩ | ⟨-, hrun⟩
  · exact footprint_refuse r i s
  · exact hrun.footprint

/-- The host's script, the responses taken and the record of invocations are the same in both. -/
structure SameRecord (s t : State) : Prop where
  script : t.script = s.script
  responses : t.responses = s.responses
  outcomes : t.outcomes = s.outcomes
  bytesEnded : t.bytesEnded = s.bytesEnded
  bitsEnded : t.bitsEnded = s.bitsEnded
  cause : t.cause = s.cause

/-- The host's record is in no command's footprint. -/
theorem Footprint.sameRecord {i : Instr} (h : Footprint s t i) : SameRecord s t := by
  cases i with
  | count | enc | dec =>
    obtain ⟨hframe, -⟩ := h
    rw [hframe]
    exact ⟨rfl, rfl, rfl, rfl, rfl, rfl⟩
  | _ =>
    simp only [Footprint] at h
    rw [h]
    exact ⟨rfl, rfl, rfl, rfl, rfl, rfl⟩

/-- Settles O52: the footprint of the five commands is the port alone. -/
theorem readsHaveNoSideEffect : Obligations.ReadsHaveNoSideEffect := by
  intro i s t hi h
  have hfoot := exec_footprint h
  rcases hi with rfl | ⟨a, rfl⟩ | ⟨a, b, rfl⟩ | ⟨a, b, rfl⟩ | ⟨a, rfl⟩ <;> exact hfoot

/-- Settles O54: a field outside the command's footprint has not changed. -/
theorem stateWriters : Obligations.StateWriters := by
  intro i s t h
  have hfoot := exec_footprint h
  cases i with
  | count | enc | dec =>
    obtain ⟨hframe, -⟩ := hfoot
    rw [hframe]
    simp
  | _ =>
    simp only [Footprint] at hfoot
    rw [hfoot]
    simp

/-- Settles O56: the streams in each footprint, and the host's record in none. -/
theorem streamUse : Obligations.StreamUse := by
  intro i s t h
  have hfoot := exec_footprint h
  obtain ⟨hscript, hresponses, houtcomes, hbytes, hbits, hcause⟩ := hfoot.sameRecord
  simp only [hscript, hresponses, houtcomes, hbytes, hbits, hcause, and_true]
  cases i with
  | count =>
    obtain ⟨hframe, hsrc⟩ := hfoot
    rw [hframe]
    simpa using hsrc
  | enc | dec =>
    obtain ⟨hframe, hsrc, hout⟩ := hfoot
    rw [hframe]
    simpa using ⟨hsrc, hout⟩
  | _ =>
    simp only [Footprint] at hfoot
    rw [hfoot]
    simp

end Sys2Proof.Machine
end

section
/-! PROOFS. The ports: how a transfer's signals read, and what a step of the host does in each state of the port
(spec/20_memory.md R75, R76, R78; 45_system.md R234). -/

namespace Sys2Proof.Machine

variable {s t : State}

/-- Settles O12: each signal combination is one branch of the reading. -/
theorem signalPriority : Obligations.SignalPriority :=
  ⟨fun _ _ => rfl, fun _ => ⟨rfl, rfl⟩, fun _ _ => rfl, fun _ => ⟨rfl, rfl⟩, rfl, rfl⟩

/-! ### The actions of the host -/

theorem hostMove_send {w d : Word} {rest : List HostAct} (hp : s.port = .idle) (hs : s.script = .send w d :: rest) :
    hostMove s = acceptWord w d { s with script := rest } := by
  simp only [hostMove, hs, hp]

theorem hostMove_send_busy {w d : Word} {rest : List HostAct} (hp : s.port ≠ .idle)
    (hs : s.script = .send w d :: rest) : hostMove s = .settled s := by
  cases hport : s.port with
  | idle => exact absurd hport hp
  | _ => simp only [hostMove, hs, hport]

theorem hostMove_take {r : Response} {rest : List HostAct} (hp : s.port = .responding r)
    (hs : s.script = .take :: rest) : hostMove s = .settled (takeResponse r { s with script := rest }) := by
  simp only [hostMove, hs, hp]

theorem hostMove_takeOk {r : Response} {skip : Nat} {rest : List HostAct} (hp : s.port = .responding r)
    (hs : s.script = .takeOk skip :: rest) : hostMove s =
      .settled (takeResponse r { s with script := if r.rc = .ok then rest else rest.drop skip }) := by
  simp only [hostMove, hs, hp]

theorem hostMove_conclude {rest : List HostAct} (hp : s.port = .idle) (hs : s.script = .conclude :: rest) :
    hostMove s = .settled (concludeInvocation { s with script := rest }) := by
  simp only [hostMove, hs, hp]

/-- Only `rst` moves a port that waits for a stream (R78). -/
theorem hostMove_waiting {on : Stream} (hp : s.port = .waiting on) (hs : ∀ rest, s.script ≠ .reset :: rest) :
    hostMove s = .settled s := by
  cases hscript : s.script with
  | nil => simp only [hostMove, hscript]
  | cons act rest =>
    cases act with
    | reset => exact absurd hscript (hs rest)
    | _ => simp only [hostMove, hscript, hp]

/-- Settles O5: the idle block takes the word, and a word that decodes is run. -/
theorem stepRunsDecodedCommand : Obligations.StepRunsDecodedCommand := by
  intro s w d rest i hp hs hd
  exact step_of_run (by rw [hostMove_send hp hs, acceptWord, hd])

/-- Settles O9: a waiting port leaves the host no move but `rst`. -/
theorem nothingButResetEndsAHang : Obligations.NothingButResetEndsAHang :=
  fun _ _ hp hs => step_of_settled (hostMove_waiting hp hs)

/-! ### The invocation -/

theorem failureKind_eq_none (k : Completion) : failureKind k = none ↔ k = .ok := by
  cases k with
  | ok | refusal r => simp [failureKind]
  | fault f => cases f <;> simp [failureKind]

/-- The state a move comes to, or from which it runs its command. -/
def Move.state : Move → State
  | .settled s => s
  | .run _ s => s

theorem acceptWord_cause (w d : Word) (s : State) : (acceptWord w d s).state.cause = s.cause := by
  unfold acceptWord
  cases decode w d <;> rfl

/-- The host's actions but the end of an invocation keep a cause that stands. -/
theorem hostMove_cause {c : Cause} (hc : s.cause = some c) (hs : ∀ rest, s.script ≠ .conclude :: rest) :
    (hostMove s).state.cause = some c := by
  cases hscript : s.script with
  | nil => simp [hostMove, hscript, Move.state, hc]
  | cons act rest =>
    cases act with
    | conclude => exact absurd hscript (hs rest)
    | reset => simp [hostMove, hscript, Move.state, hc]
    | send w d =>
      cases hp : s.port with
      | idle => rw [hostMove_send hp hscript, acceptWord_cause]; exact hc
      | _ => rw [hostMove_send_busy (by simp [hp]) hscript]; exact hc
    | take | takeOk | byteSource | bitSource | byteSink | bitSink =>
      cases hp : s.port <;> simp [hostMove, hscript, hp, Move.state, hc]

/-- Every step but the end of an invocation keeps a cause that stands. -/
theorem step_cause {c : Cause} (hc : s.cause = some c) (hs : ∀ rest, s.script ≠ .conclude :: rest)
    (h : step s = .next t) : t.cause = some c := by
  have hmove := hostMove_cause hc hs
  cases hm : hostMove s with
  | settled u =>
    rw [hm] at hmove
    cases (step_of_settled hm).symm.trans h
    exact hmove
  | run i u =>
    rw [hm] at hmove
    exact (exec_footprint ((step_of_run hm).symm.trans h)).sameRecord.cause.trans hmove

/-- Settles O7: the host's action of each clause, the cases of the cause and FAULT at `conclude`, and `step_cause`. -/
theorem responseBeforeNextCommand : Obligations.ResponseBeforeNextCommand := by
  refine ⟨fun s r rest hp hs => step_of_settled (hostMove_take hp hs),
    fun s w d rest hp hs => step_of_settled (hostMove_send_busy hp hs),
    fun s r skip rest hp hs => step_of_settled (hostMove_takeOk hp hs), failureKind_eq_none,
    fun s rest hp hs => ?_, fun s t c hc hs h => step_cause hc hs h⟩
  rw [step_of_settled (hostMove_conclude hp hs)]
  simp only [concludeInvocation, invocationOutcome, invocationCause, faultPin]
  cases s.cause with
  | some c => rfl
  | none => cases s.fault <;> rfl

end Sys2Proof.Machine
end

section
/-! PROOFS. COUNT and ENC with a stream that stops answering (spec/20_memory.md R78, 40_freq_table.md R122,
43_encoder.md R190). -/

namespace Sys2Proof.Machine

variable {s : State}

/-! ### COUNT -/

theorem execCount_eq (hf : s.fault = false) (ht : s.treeV = false) (hc : s.codeV = false) :
    exec .count s = .next (countLoop s.byteSource { clearFreq s with bytecnt := 0 }) := by
  have hadm : admission .count s = none := admission_eq_none (fun _ => hf) (by simp [phaseAdmits, ht, hc]) rfl
  rw [exec, execCount, admitted_none _ hadm]

/-- Settles O10: the loop counts every byte into the cleared table and then finds no answer. -/
theorem countHangs : Obligations.CountHangs := by
  intro s bs hf ht hc hsrc hfit
  obtain ⟨f, hloop, hend, hcount⟩ := countLoop_bytes bs [] { clearFreq s with bytecnt := 0 } (by simpa using hsrc)
    (fun b => by simpa [readFreq, clearFreq] using hfit b)
  rw [List.append_nil, ← hsrc] at hloop
  rw [execCount_eq hf ht hc, hloop]
  refine ⟨_, rfl, fun b => ?_, ?_, ?_⟩
  · simpa [readFreq, clearFreq, countLoop] using hcount b
  · simpa [readFreq, clearFreq, countLoop, eodIndex] using hend
  · simp [countLoop, waitFor, clearFreq]

/-! ### ENC -/

theorem execEnc_eq (hf : s.fault = false) (hc : s.codeV = true) :
    exec .enc s = .next (encLoop s.byteSource { s with bitcnt := 0, bytecnt := 0 }) := by
  have hadm : admission .enc s = none := admission_eq_none (fun _ => hf) hc rfl
  rw [exec, execEnc, admitted_none _ hadm]

/-- The state of ENC once the codes of `bs` are accepted, with `tail` left in the source (R190). -/
def encodedBytes (bs : List Byte) (tail : List ByteAnswer) (s : State) : State :=
  { s with
    bitsOut := s.bitsOut ++ encoded s bs, bitcnt := BitVec.ofNat 64 (encoded s bs).length
    bytecnt := BitVec.ofNat 64 bs.length, byteSource := tail, bitSink := sinkAfter s.bitSink (encoded s bs).length }

/-- ENC over bytes that have codes, into a sink that accepts them. -/
theorem execEnc_bytes {bs : List Byte} {tail : List ByteAnswer} (hf : s.fault = false) (hc : s.codeV = true)
    (hsrc : s.byteSource = bs.map ByteAnswer.byte ++ tail) (hcodes : ∀ b ∈ bs, (readCode (byteIndex b) s).len ≠ 0)
    (hacc : SinkAccepts s.bitSink (encoded s bs).length) :
    exec .enc s = .next (encLoop tail (encodedBytes bs tail s)) := by
  have hloop := encLoop_bytes bs tail { s with bitcnt := 0, bytecnt := 0 } hsrc hcodes hacc
  simp only [BitVec.ofNat_eq_ofNat, BitVec.zero_add, ← hsrc] at hloop
  rw [execEnc_eq hf hc]
  exact congrArg _ hloop

/-- A sink that refuses or never takes bit `k` of a code ends the code there: E_IO(3), or a wait for ever. -/
theorem emit_of_stops {i : TableIndex} {k : Nat} (hk : k < (codeString (readCode i s)).length)
    (hacc : SinkAccepts s.bitSink k) (hstop : sinkAnswer s.bitSink k ≠ .ok) :
    let u := { s with
      bitsOut := s.bitsOut ++ (codeString (readCode i s)).take k, bitcnt := s.bitcnt + BitVec.ofNat 64 k
      bitSink := sinkAfter s.bitSink (k + 1) }
    emit i s = .ended (if sinkAnswer s.bitSink k = .err then raise .io 3 u else waitFor .bitSink u) := by
  have hlen : (readCode i s).len ≠ 0 := fun h => by simp [codeString, h] at hk
  rw [emit, if_neg hlen]
  exact emitBits_of_stops _ k s hk hacc hstop

/-- Where the code of an item ends ENC, the item has been taken from the source. -/
theorem encLoop_item_ended {item : ByteAnswer} {i : TableIndex} {rest : List ByteAnswer} {t : State}
    (hi : Encodes item i) (h : emit i (byteTaken rest s) = .ended t) : encLoop (item :: rest) s = t := by
  rcases hi with ⟨b, rfl, rfl⟩ | ⟨rfl, rfl⟩
  · simp only [encLoop, h]
  · simp only [encLoop, h]

/-- ENC whose bit sink refuses or never takes bit `k` of the code after those of `bs`. -/
theorem execEnc_stops {bs : List Byte} {item : ByteAnswer} {i : TableIndex} {rest : List ByteAnswer} {k : Nat}
    (hf : s.fault = false) (hc : s.codeV = true) (hsrc : s.byteSource = bs.map ByteAnswer.byte ++ item :: rest)
    (hcodes : ∀ b ∈ bs, (readCode (byteIndex b) s).len ≠ 0) (hi : Encodes item i)
    (hk : k < (codeString (readCode i s)).length) (hacc : SinkAccepts s.bitSink ((encoded s bs).length + k))
    (hstop : sinkAnswer s.bitSink ((encoded s bs).length + k) ≠ .ok) :
    let u := { encodedBytes bs rest s with
      bitsOut := s.bitsOut ++ encoded s bs ++ (codeString (readCode i s)).take k
      bitcnt := BitVec.ofNat 64 ((encoded s bs).length + k)
      bitSink := sinkAfter s.bitSink ((encoded s bs).length + k + 1) }
    exec .enc s = .next
      (if sinkAnswer s.bitSink ((encoded s bs).length + k) = .err then raise .io 3 u else waitFor .bitSink u) := by
  have hemit := emit_of_stops (s := byteTaken rest (encodedBytes bs (item :: rest) s)) (i := i) hk hacc.after
    (by simpa [encodedBytes] using hstop)
  rw [execEnc_bytes hf hc hsrc hcodes (hacc.mono (Nat.le_add_right _ _)), encLoop_item_ended hi hemit]
  simp only [byteTaken, encodedBytes, sinkAnswer_sinkAfter, sinkAfter_sinkAfter, ← BitVec.ofNat_add, Nat.add_assoc]
  rfl

end Sys2Proof.Machine
end

section
/-! PROOFS. DEC over the bit strings of bytes (spec/44_decoder.md R210 to R212), and ENC and DEC with a stream that stops
answering (20_memory.md R78). -/

namespace Sys2Proof.Machine

variable {s : State}

/-! ### One leaf -/

/-- A path that is not empty ends with one descent from an internal node. -/
theorem descend_concat {n m : NodeIndex} {p : List Bool} {b : Bool} (h : descend s n (p ++ [b]) = some m) :
    ∃ k f, descend s n p = some k ∧ treeNode k s = some f ∧ f.isLeaf = false ∧
      m = if b then f.right else f.left := by
  rw [descend_append, Option.bind_eq_some_iff] at h
  obtain ⟨k, hk, h⟩ := h
  simp only [descend] at h
  cases hf : treeNode k s with
  | none => simp [hf] at h
  | some f =>
    cases hleaf : f.isLeaf with
    | true => simp [hf, hleaf] at h
    | false => exact ⟨k, f, hk, hf, hleaf, by simpa [hf, hleaf, eq_comm] using h⟩

/-- One bit that leads DEC to a byte's leaf: it offers the byte, and goes on at ROOT where the byte is accepted. -/
theorem decLoop_bit_byte (c : Bool) (tail : List BitAnswer) (s : State) {f e : Node} {b : Byte}
    (hf : treeNode s.cur s = some f) (hleaf : f.isLeaf = false)
    (he : treeNode (if c then f.right else f.left) s = some e) (hb : e.sym = .byte b) :
    let u := { s with cur := if c then f.right else f.left, bitcnt := s.bitcnt + 1, bitSource := tail }
    (∀ v, byteOut b u = .goOn v → decLoop (.bit c :: tail) s = decLoop tail { bumpBytecnt v with cur := v.root }) ∧
    (∀ v, byteOut b u = .ended v → decLoop (.bit c :: tail) s = .next v) := by
  intro u
  have hchild : child (bumpBitcnt (bitTaken tail s)).cur c (bumpBitcnt (bitTaken tail s)) = .to u.cur := by
    simp [child, show treeNode s.cur (bumpBitcnt (bitTaken tail s)) = some f from hf, hleaf, u]
  have hu : { bumpBitcnt (bitTaken tail s) with cur := u.cur } = u := rfl
  have hnode : treeNode u.cur u = some e := he
  simp only [decLoop, hchild, hu, hnode, hb]
  exact ⟨fun v hv => by simp only [hv], fun v hv => by simp only [hv]⟩

/-- DEC along a path to a byte's leaf: it offers the byte, and goes on at ROOT where the byte is accepted. -/
theorem decLoop_leaf {p : List Bool} {tail : List BitAnswer} {n : NodeIndex} {e : Node} {b : Byte}
    (hsrc : s.bitSource = p.map BitAnswer.bit ++ tail) (hp : p ≠ []) (hd : descend s s.cur p = some n)
    (he : treeNode n s = some e) (hb : e.sym = .byte b) :
    let u := { s with cur := n, bitcnt := s.bitcnt + BitVec.ofNat 64 p.length, bitSource := tail }
    (∀ v, byteOut b u = .goOn v →
      decLoop (p.map BitAnswer.bit ++ tail) s = decLoop tail { bumpBytecnt v with cur := v.root }) ∧
    (∀ v, byteOut b u = .ended v → decLoop (p.map BitAnswer.bit ++ tail) s = .next v) := by
  obtain rfl | ⟨q, c, rfl⟩ := p.eq_nil_or_concat'
  · exact absurd rfl hp
  obtain ⟨k, f, hk, hf, hleaf, rfl⟩ := descend_concat hd
  simp only [List.map_append, List.map_cons, List.map_nil, List.append_assoc, List.cons_append, List.nil_append]
    at hsrc ⊢
  have hcount : s.bitcnt + BitVec.ofNat 64 q.length + 1 = s.bitcnt + BitVec.ofNat 64 (q ++ [c]).length := by
    rw [List.length_append, List.length_singleton, BitVec.ofNat_add, ← BitVec.add_assoc]
    rfl
  rw [decLoop_descend q _ s k f hsrc hk hf (.inr (isLeaf_iff.mp hleaf)), ← hcount]
  exact decLoop_bit_byte c tail { s with
    cur := k, bitcnt := s.bitcnt + BitVec.ofNat 64 q.length, bitSource := BitAnswer.bit c :: tail } hf hleaf he hb

/-! ### Words -/

theorem execDec_eq (hf : s.fault = false) (ht : s.treeV = true) :
    exec .dec s = decLoop s.bitSource { s with bitcnt := 0, bytecnt := 0, cur := s.root } := by
  have hadm : admission .dec s = none := admission_eq_none (fun _ => hf) ht rfl
  rw [exec, execDec, admitted_none _ hadm]

/-- What bit strings lead to depends on NODE, NODECNT and ROOT alone. -/
theorem SpellsByte.congr {t : State} {p : List Bool} {b : Byte} (h : SpellsByte s p b) (hn : t.node = s.node)
    (hc : t.nodecnt = s.nodecnt) (hr : t.root = s.root) : SpellsByte t p b := by
  obtain ⟨hp, n, e, hd, he, hb⟩ := h
  exact ⟨hp, n, e, by rw [descend_congr hn hc, hr, hd], by rw [treeNode_congr n hn hc, he], hb⟩

/-- DEC at ROOT over the bit strings of bytes, into a sink that accepts them: it goes on at ROOT. -/
theorem decLoop_words (words : List (List Bool × Byte)) (tail : List BitAnswer) (s : State) (hcur : s.cur = s.root)
    (hsrc : s.bitSource = (words.flatMap (·.1)).map BitAnswer.bit ++ tail)
    (hwords : ∀ w ∈ words, SpellsByte s w.1 w.2) (hacc : SinkAccepts s.byteSink words.length) :
    decLoop ((words.flatMap (·.1)).map BitAnswer.bit ++ tail) s = decLoop tail { s with
      bytesOut := s.bytesOut ++ words.map (·.2), bytecnt := s.bytecnt + BitVec.ofNat 64 words.length
      bitcnt := s.bitcnt + BitVec.ofNat 64 (words.flatMap (·.1)).length, bitSource := tail
      byteSink := sinkAfter s.byteSink words.length } := by
  induction words generalizing s with
  | nil =>
    simp only [List.flatMap_nil, List.map_nil, List.nil_append] at hsrc
    simp [← hsrc]
  | cons w words ih =>
    obtain ⟨hp, n, e, hd, he, hb⟩ := hwords w List.mem_cons_self
    rw [← hcur] at hd
    simp only [List.flatMap_cons, List.map_append, List.append_assoc] at hsrc ⊢
    obtain ⟨haccepted, -⟩ := decLoop_leaf hsrc hp hd he hb
    rw [haccepted _ (by rw [byteOut_eq, hacc 0 (by simp)])]
    rw [ih _ rfl rfl]
    · simp [bumpBytecnt, hcur, Nat.add_comm 1, BitVec.add_comm (1#64), BitVec.ofNat_add, BitVec.add_assoc]
    · exact fun v hv => (hwords v (List.mem_cons_of_mem _ hv)).congr rfl rfl rfl
    · exact SinkAccepts.after (m := 1) (hacc.mono (by simp [Nat.add_comm]))

/-- The state of DEC after the bit strings of `words` and then the path `part` to the node `n`, with `tail` left in the
source (R210). -/
def decodedWords (words : List (List Bool × Byte)) (part : List Bool) (n : NodeIndex) (tail : List BitAnswer)
    (s : State) : State :=
  { s with
    bytesOut := s.bytesOut ++ words.map (·.2), bytecnt := BitVec.ofNat 64 words.length
    bitcnt := BitVec.ofNat 64 ((words.flatMap (·.1)).length + part.length), cur := n, bitSource := tail
    byteSink := sinkAfter s.byteSink words.length }

theorem descend_decodedWords {words : List (List Bool × Byte)} {part p : List Bool} {n m : NodeIndex}
    {tail : List BitAnswer} : descend (decodedWords words part n tail s) m p = descend s m p :=
  descend_congr (s := s) (t := decodedWords words part n tail s) rfl rfl m p

/-- DEC over the bit strings of bytes, into a sink that accepts them. -/
theorem execDec_words {words : List (List Bool × Byte)} {tail : List BitAnswer} (hf : s.fault = false)
    (ht : s.treeV = true) (hsrc : s.bitSource = (words.flatMap (·.1)).map BitAnswer.bit ++ tail)
    (hwords : ∀ w ∈ words, SpellsByte s w.1 w.2) (hacc : SinkAccepts s.byteSink words.length) :
    exec .dec s = decLoop tail (decodedWords words [] s.root tail s) := by
  have hloop := decLoop_words words tail { s with bitcnt := 0, bytecnt := 0, cur := s.root } rfl hsrc
    (fun w hw => (hwords w hw).congr rfl rfl rfl) hacc
  simp only [BitVec.ofNat_eq_ofNat, BitVec.zero_add, ← hsrc] at hloop
  rw [execDec_eq hf ht]
  exact hloop

/-- DEC over the bit strings of bytes and then part of one. -/
theorem execDec_partway {words : List (List Bool × Byte)} {part : List Bool} {n : NodeIndex} {tail : List BitAnswer}
    (hf : s.fault = false) (ht : s.treeV = true)
    (hsrc : s.bitSource = ((words.flatMap (·.1)) ++ part).map BitAnswer.bit ++ tail)
    (hwords : ∀ w ∈ words, SpellsByte s w.1 w.2) (hpart : Partway s part n)
    (hacc : SinkAccepts s.byteSink words.length) :
    exec .dec s = decLoop tail (decodedWords words part n tail s) := by
  rw [List.map_append, List.append_assoc] at hsrc
  rw [execDec_words hf ht hsrc hwords hacc]
  obtain ⟨hd, rfl | ⟨e, he, hint⟩⟩ := hpart
  · cases hd
    rfl
  · rw [decLoop_descend part tail (decodedWords words [] s.root _ s) n e rfl (descend_decodedWords.trans hd) he
      (.inr hint)]
    simp only [decodedWords, List.length_nil, Nat.add_zero, BitVec.ofNat_add]

/-- DEC over the bit strings of bytes and then one more, whose byte the sink refuses or never takes. -/
theorem execDec_stops {words : List (List Bool × Byte)} {last : List Bool} {leaf : NodeIndex} {e : Node} {b : Byte}
    {rest : List BitAnswer} {t : State} (hf : s.fault = false) (ht : s.treeV = true)
    (hsrc : s.bitSource = ((words.flatMap (·.1)) ++ last).map BitAnswer.bit ++ rest)
    (hwords : ∀ w ∈ words, SpellsByte s w.1 w.2) (hacc : SinkAccepts s.byteSink words.length) (hlast : last ≠ [])
    (hd : descend s s.root last = some leaf) (he : treeNode leaf s = some e) (hb : e.sym = .byte b)
    (hout : byteOut b (decodedWords words last leaf rest s) = .ended t) : exec .dec s = .next t := by
  rw [List.map_append, List.append_assoc] at hsrc
  rw [execDec_words hf ht hsrc hwords hacc]
  obtain ⟨-, hended⟩ := decLoop_leaf (s := decodedWords words [] s.root (last.map BitAnswer.bit ++ rest) s)
    (tail := rest) rfl hlast (descend_decodedWords.trans hd) he hb
  refine hended t ?_
  rw [← hout]
  simp only [decodedWords, List.length_nil, Nat.add_zero, BitVec.ofNat_add]

/-- Settles O60: what is left of each run, once the items before it are given, is one wait. -/
theorem encAndDecHang : Obligations.EncAndDecHang := by
  refine ⟨fun s bs hf hc hsrc hcodes hacc => ?_, fun s bs item i rest k hf hc hsrc hcodes hi hk hacc hnever => ?_,
    fun s words part n hf ht hwords hpart hsrc hacc => ?_,
    fun s words last leaf e b rest hf ht hwords hlast hd he hb hsrc hacc hnever => ?_⟩
  · rw [execEnc_bytes (tail := []) hf hc (by simpa using hsrc) hcodes hacc]
    rfl
  · rw [execEnc_stops hf hc hsrc hcodes hi hk hacc (by simp [hnever]), hnever]
    rfl
  · rw [execDec_partway (tail := []) hf ht (by simpa using hsrc) hwords hpart hacc]
    rfl
  · refine execDec_stops hf ht hsrc hwords hacc hlast hd he hb ?_
    rw [byteOut_eq, show sinkAnswer (decodedWords words last leaf rest s).byteSink 0 = .never from
      (sinkAnswer_sinkAfter _ _ _).trans hnever]
    simp only [decodedWords, sinkAfter_sinkAfter]
    rfl

end Sys2Proof.Machine
end

section
/-! PROOFS. Command words: decoding and encoding are inverse, and the opcode map's rows are those of the decoder
(spec/30_encoding.md R91 to R94, R97, R106). -/

namespace Sys2Proof

/-! ### Formats -/

@[simp] theorem formatA_assemble (op : OpNumber) (a : Operand) (i : Instr) : formatA (assemble op a 0#12) i = .ok i := by
  simp [formatA]

@[simp] theorem formatZ_assemble (op : OpNumber) (i : Instr) : formatZ (assemble op 0#12 0#12) i = .ok i := by
  simp [formatZ]

variable {w d : Word} {op : OpNumber} {i j : Instr}

/-- What passes format A has B = 0 (R92). -/
theorem formatA_ok (hop : opField w = op) (h : formatA w i = .ok j) : j = i ∧ assemble op (aField w) 0 = w := by
  unfold formatA at h
  split at h <;> cases h
  next hb => exact ⟨rfl, by rw [← hop, ← hb, assemble_fields]⟩

/-- What passes format Z has A = 0 and B = 0 (R92). -/
theorem formatZ_ok (hop : opField w = op) (h : formatZ w i = .ok j) : j = i ∧ assemble op 0 0 = w := by
  unfold formatZ at h
  split at h
  next ha =>
    obtain ⟨hj, hw⟩ := formatA_ok hop h
    exact ⟨hj, by rwa [ha] at hw⟩
  next => cases h

/-! ### Decoding and encoding -/

/-- The write operand of FTW is `d`; every other command ignores it (R91). -/
def TakesOperand (i : Instr) (d : Word) : Prop := ∀ a c, i = .ftw a c → c = d

/-- The word of a command decodes to it, given the write operand the command takes. -/
theorem decode_encode (h : TakesOperand i d) : decode (encode i).word d = .ok i := by
  cases i with
  | ftw a c => obtain rfl := h a c rfl; simp [decode, encode]
  | _ => simp [decode, encode]

/-- A word that decodes to a command is its word, and the command takes the write operand beside it. -/
theorem encode_of_decode (h : decode w d = .ok i) : (encode i).word = w ∧ TakesOperand i d := by
  unfold decode at h
  split at h
  -- FTW
  case h_3 hop =>
    obtain ⟨rfl, hw⟩ := formatA_ok hop h
    exact ⟨hw, by rintro _ _ ⟨⟩; rfl⟩
  -- NDR and CTR
  case h_7 hop | h_10 hop =>
    cases h
    exact ⟨by rw [← assemble_fields w, hop]; simp [encode], nofun⟩
  -- FTR and CSRR
  case h_4 hop | h_13 hop =>
    obtain ⟨rfl, hw⟩ := formatA_ok hop h
    exact ⟨hw, nofun⟩
  -- no command has this OP
  case h_14 => cases h
  -- the commands of format Z
  all_goals
    obtain ⟨rfl, hw⟩ := formatZ_ok ‹_› h
    exact ⟨hw, nofun⟩

/-- Decoding is the inverse of encoding (R94, R106). -/
theorem decode_eq_ok_iff : decode w d = .ok i ↔ (encode i).word = w ∧ TakesOperand i d :=
  ⟨encode_of_decode, fun ⟨hw, hd⟩ => hw ▸ decode_encode hd⟩

/-- Settles O2: a command takes its own write operand, and any other command than FTW takes every one. -/
theorem decodeEncode : Obligations.DecodeEncode := by
  refine fun i => ⟨decode_encode ?_, fun d hne => decode_encode fun a c hi => absurd hi (hne a c)⟩
  rintro a c rfl
  rfl

/-- Settles O3: the inverse, read from the decoder's side. -/
theorem encodeDecode : Obligations.EncodeDecode :=
  fun _ _ _ => encode_of_decode

/-- Settles O1: decoding and assembling the fixed words of R94, by evaluation. -/
theorem specExampleWords : Obligations.SpecExampleWords :=
  ⟨rfl, rfl, rfl, rfl, rfl, rfl, rfl, rfl, rfl, rfl⟩

/-! ### The opcode map -/

theorem assemble_inj {o o' : OpNumber} {a a' b b' : Operand} (h : assemble o a b = assemble o' a' b') :
    o = o' ∧ a = a' ∧ b = b' :=
  ⟨by simpa using congrArg opField h, by simpa using congrArg aField h, by simpa using congrArg bField h⟩

/-- A row whose mask covers OP fixes it, and makes 0 of the operand bits its mask covers. -/
theorem fields_of_matches {r : OpcodeRow} {a b : Operand} (hmask : r.maskBits = assemble 0xFF a b)
    (hmatch : r.matchBits = assemble op 0 0) (h : r.matches w = true) :
    opField w = op ∧ aField w &&& a = 0 ∧ bField w &&& b = 0 := by
  rw [OpcodeRow.matches, beq_iff_eq, hmask, hmatch, ← assemble_fields w, assemble_and] at h
  obtain ⟨ho, ha, hb⟩ := assemble_inj h
  exact ⟨(BitVec.and_allOnes (x := opField w)).symm.trans ho, ha, hb⟩

/-- A word that matches a row of format Z is the row's. -/
theorem eq_assemble_of_matches_z {r : OpcodeRow} (hmask : r.maskBits = assemble 0xFF 0xFFF 0xFFF)
    (hmatch : r.matchBits = assemble op 0 0) (h : r.matches w = true) : assemble op 0 0 = w := by
  obtain ⟨ho, ha, hb⟩ := fields_of_matches hmask hmatch h
  rw [show (0xFFF : Operand) = BitVec.allOnes 12 from rfl, BitVec.and_allOnes] at ha hb
  rw [← assemble_fields w, ho, ha, hb]

/-- A word that matches a row of format A or AW is the row's but for A. -/
theorem eq_assemble_of_matches_a {r : OpcodeRow} (hmask : r.maskBits = assemble 0xFF 0 0xFFF)
    (hmatch : r.matchBits = assemble op 0 0) (h : r.matches w = true) : assemble op (aField w) 0 = w := by
  obtain ⟨ho, -, hb⟩ := fields_of_matches hmask hmatch h
  rw [show (0xFFF : Operand) = BitVec.allOnes 12 from rfl, BitVec.and_allOnes] at hb
  rw [← hb, ← ho, assemble_fields]

/-- A word that matches a row of format AB is the row's but for A and B. -/
theorem eq_assemble_of_matches_ab {r : OpcodeRow} (hmask : r.maskBits = assemble 0xFF 0 0)
    (hmatch : r.matchBits = assemble op 0 0) (h : r.matches w = true) : assemble op (aField w) (bField w) = w := by
  obtain ⟨ho, -, -⟩ := fields_of_matches hmask hmatch h
  rw [← ho, assemble_fields]

/-- A word that matches a row is legal, and its command is the row's. -/
theorem exists_decode_of_matches (d : Word) {r : OpcodeRow} (hr : r ∈ opcodeMap) (h : r.matches w = true) :
    ∃ i, decode w d = .ok i ∧ r.mnemonic = i.mnemonic := by
  suffices ∃ i, ((encode i).word = w ∧ TakesOperand i d) ∧ r.mnemonic = i.mnemonic by
    simpa only [decode_eq_ok_iff] using this
  simp only [opcodeMap, List.mem_cons, List.not_mem_nil, or_false] at hr
  rcases hr with rfl | rfl | rfl | rfl | rfl | rfl | rfl | rfl | rfl | rfl | rfl | rfl | rfl
  · exact ⟨.nop, ⟨eq_assemble_of_matches_z rfl rfl h, nofun⟩, rfl⟩
  · exact ⟨.clr, ⟨eq_assemble_of_matches_z rfl rfl h, nofun⟩, rfl⟩
  · exact ⟨.ftw (aField w) d, ⟨eq_assemble_of_matches_a rfl rfl h, by rintro _ _ ⟨⟩; rfl⟩, rfl⟩
  · exact ⟨.ftr (aField w), ⟨eq_assemble_of_matches_a rfl rfl h, nofun⟩, rfl⟩
  · exact ⟨.count, ⟨eq_assemble_of_matches_z rfl rfl h, nofun⟩, rfl⟩
  · exact ⟨.build, ⟨eq_assemble_of_matches_z rfl rfl h, nofun⟩, rfl⟩
  · exact ⟨.ndr (aField w) (bField w), ⟨eq_assemble_of_matches_ab rfl rfl h, nofun⟩, rfl⟩
  · exact ⟨.free, ⟨eq_assemble_of_matches_z rfl rfl h, nofun⟩, rfl⟩
  · exact ⟨.gen, ⟨eq_assemble_of_matches_z rfl rfl h, nofun⟩, rfl⟩
  · exact ⟨.ctr (aField w) (bField w), ⟨eq_assemble_of_matches_ab rfl rfl h, nofun⟩, rfl⟩
  · exact ⟨.enc, ⟨eq_assemble_of_matches_z rfl rfl h, nofun⟩, rfl⟩
  · exact ⟨.dec, ⟨eq_assemble_of_matches_z rfl rfl h, nofun⟩, rfl⟩
  · exact ⟨.csrr (aField w), ⟨eq_assemble_of_matches_a rfl rfl h, nofun⟩, rfl⟩

open Laws.MatchesTable in
/-- The word of every command matches the row with its mnemonic. -/
theorem encode_matches_own_row : ∀ i : Instr, Statement i
  | .nop => nop
  | .clr => clr
  | .ftw a c => ftw a c
  | .ftr a => ftr a
  | .count => count
  | .build => build
  | .ndr a b => ndr a b
  | .free => free
  | .gen => gen
  | .ctr a b => ctr a b
  | .enc => enc
  | .dec => dec
  | .csrr a => csrr a

/-- No two rows have the same mnemonic. -/
theorem opcodeMap_mnemonic_nodup : (opcodeMap.map (·.mnemonic)).Nodup := by
  decide

/-- A legal word matches a row exactly when the row has its command's mnemonic. -/
theorem matches_eq_of_decode (hd : decode w d = .ok i) {r : OpcodeRow} (hr : r ∈ opcodeMap) :
    r.matches w = (r.mnemonic == i.mnemonic) := by
  rw [Bool.eq_iff_iff, beq_iff_eq]
  constructor
  · intro h
    obtain ⟨j, hj, hname⟩ := exists_decode_of_matches d hr h
    cases hd.symm.trans hj
    exact hname
  · intro hname
    obtain ⟨own, hown, hownName, hmatch⟩ := encode_matches_own_row i
    rw [List.inj_on_of_nodup_map opcodeMap_mnemonic_nodup hr hown (hname.trans hownName.symm)]
    rwa [(encode_of_decode hd).1] at hmatch

/-- Every command has exactly one row. -/
theorem opcodeMap_rows_of_mnemonic (i : Instr) :
    (opcodeMap.filter (·.mnemonic == i.mnemonic)).map (·.mnemonic) = [i.mnemonic] := by
  cases i <;> rfl

/-- Settles O4: the rows a word matches are those of its command's mnemonic; one that matched an illegal word would decode
it. -/
theorem wordMatchesItsRowOnly : Obligations.WordMatchesItsRowOnly := by
  intro w d
  cases hd : decode w d with
  | ok i =>
    rw [List.filter_congr fun r hr => matches_eq_of_decode hd hr]
    exact opcodeMap_rows_of_mnemonic i
  | error e =>
    simp only [List.map_eq_nil_iff, List.filter_eq_nil_iff]
    intro r hr h
    obtain ⟨i, hi, -⟩ := exists_decode_of_matches d hr h
    cases hd.symm.trans hi

end Sys2Proof
end

section
/-! PROOFS. The data of a response (spec/30_encoding.md R95). -/

namespace Sys2Proof.Machine

variable {s t : State}

/-- A response, if there is one, carries data 0. -/
def AnswersNoData (t : State) : Prop := ∀ r, t.port = .responding r → r.rdata = 0

theorem AnswersNoData.of_waiting {on : Stream} (hp : t.port = .waiting on) : AnswersNoData t := by
  intro r hr
  cases hp.symm.trans hr

theorem AnswersNoData.of_responding {c : Completion} (hp : t.port = .responding ⟨c, 0⟩) : AnswersNoData t := by
  intro r hr
  cases hp.symm.trans hr
  rfl

theorem count_answersNoData (l : List ByteAnswer) (s : State) : AnswersNoData (countLoop l s) := by
  obtain ⟨t, rfl, -, -, ⟨hp, -⟩ | ⟨hp, -⟩ | ⟨⟨hp, -⟩ | ⟨hp, -⟩, -⟩⟩ := countLoop_frame l s
  · exact .of_waiting hp
  all_goals exact .of_responding hp

theorem enc_answersNoData (l : List ByteAnswer) (s : State) : AnswersNoData (encLoop l s) := by
  obtain ⟨-, -, -, ⟨hp | hp | hp, -⟩ | ⟨⟨hp, -⟩ | ⟨hp, -⟩, -⟩⟩ := encLoop_frame l s
  · exact .of_waiting hp
  · exact .of_waiting hp
  all_goals exact .of_responding hp

theorem dec_answersNoData {l : List BitAnswer} (h : decLoop l s = .next t) : AnswersNoData t := by
  obtain ⟨-, -, -, ⟨hp | hp | ⟨hp, -⟩, -⟩ | ⟨⟨hp, -⟩ | ⟨hp, -⟩ | ⟨hp, -⟩, -⟩⟩ := decLoop_ends h
  · exact .of_waiting hp
  · exact .of_waiting hp
  all_goals exact .of_responding hp

/-- The commands that answer OK with data (R95). -/
inductive ReadsData : Instr → Prop where
  | ftr (a : Operand) : ReadsData (.ftr a)
  | ndr (a b : Operand) : ReadsData (.ndr a b)
  | ctr (a b : Operand) : ReadsData (.ctr a b)
  | csrr (a : Operand) : ReadsData (.csrr a)

/-- A command that has run answers without data, or it is a read and answers OK. -/
theorem Runs.answersNoData_or_read {i : Instr} (h : Runs s i t) :
    AnswersNoData t ∨ (ReadsData i ∧ ∃ v, t.port = .responding ⟨.ok, v⟩) := by
  cases h with
  | nop | clr | ftw | free | buildEmpty | buildNoEnd | gen => exact .inl (.of_responding rfl)
  | build _ _ _ ht => rw [buildTree_frame ht]; exact .inl (.of_responding rfl)
  | count => exact .inl (count_answersNoData _ _)
  | enc => exact .inl (enc_answersNoData _ _)
  | dec _ ht => exact .inl (dec_answersNoData ht)
  | ftr => exact .inr ⟨.ftr _, _, rfl⟩
  | ndr => exact .inr ⟨.ndr _ _, _, rfl⟩
  | ctr => exact .inr ⟨.ctr _ _, _, rfl⟩
  | csrr => exact .inr ⟨.csrr _, _, rfl⟩

/-- Settles O53: a refusal carries no data, and of the commands that run only the reads' OK does. -/
theorem dataOnlyFromReads : Obligations.DataOnlyFromReads := by
  intro i s t r h hr
  rcases exec_cases h with ⟨k, -, rfl⟩ | ⟨-, hrun⟩
  · exact .inl (AnswersNoData.of_responding rfl r hr)
  · rcases hrun.answersNoData_or_read with hno | ⟨hread, v, hp⟩
    · exact .inl (hno r hr)
    · cases hp.symm.trans hr
      refine .inr ⟨rfl, ?_⟩
      cases hread <;> simp

end Sys2Proof.Machine
end

section
/-! PROOFS. The commands of the frequency table: FTW, FTR, and COUNT of a source that answers every transfer
(spec/40_freq_table.md R120 to R122). -/

namespace Sys2Proof.Machine

variable {s : State}

/-! ### COUNT -/

theorem getElem_histogram_byteIndex (bs : List Byte) (b : Byte) :
    (histogram bs)[byteIndex b] = BitVec.ofNat 32 (bs.count b) := by
  have hb : b.toNat ≠ 256 := by omega
  simp [histogram, byteIndex, hb]

theorem getElem_histogram_eodIndex (bs : List Byte) : (histogram bs)[256] = 1 := by
  simp [histogram]

/-- Two tables are equal if they agree at every symbol. -/
theorem freq_ext {f g : Vector FreqCount 257} (hbytes : ∀ b, f[byteIndex b] = g[byteIndex b])
    (hend : f[256] = g[256]) : f = g := by
  ext i hi : 1
  by_cases h : i = 256
  · subst h
    exact hend
  · have hnat : (BitVec.ofNat 8 i).toNat = i := by
      rw [BitVec.toNat_ofNat]
      omega
    simpa [byteIndex, hnat] using hbytes (BitVec.ofNat 8 i)

/-- The state of COUNT once the bytes `bs` are counted, with `tail` left in the source (R122). -/
def countedBytes (bs : List Byte) (tail : List ByteAnswer) (s : State) : State :=
  { s with
    freq := (histogram bs).set 256 0, bytecnt := BitVec.ofNat 64 bs.length, byteSource := tail }

theorem readFreq_countedBytes (bs : List Byte) (tail : List ByteAnswer) (s : State) (b : Byte) :
    readFreq (byteIndex b) (countedBytes bs tail s) = BitVec.ofNat 32 (bs.count b) := by
  rw [← getElem_histogram_byteIndex]
  have hb : 256 ≠ b.toNat := by omega
  simp [readFreq, countedBytes, byteIndex, hb]

/-- In phase TABLE, COUNT of bytes whose counts fit counts them all and goes on with what the source answers next. -/
theorem execCount_bytes {bs : List Byte} {tail : List ByteAnswer} (hf : s.fault = false) (ht : s.treeV = false)
    (hc : s.codeV = false) (hsrc : s.byteSource = bs.map ByteAnswer.byte ++ tail) (hfit : CountsFit bs) :
    exec .count s = .next (countLoop tail (countedBytes bs tail s)) := by
  have hzero : ∀ b, (readFreq (byteIndex b) { clearFreq s with bytecnt := 0 }).toNat = 0 := fun b =>
    congrArg BitVec.toNat (readFreq_clearFreq (byteIndex b) s)
  obtain ⟨f, hloop, hend, hcount⟩ := countLoop_bytes bs tail { clearFreq s with bytecnt := 0 } hsrc
    (fun b => by rw [hzero, Nat.zero_add]; exact hfit b)
  have hfreq : f = (histogram bs).set 256 0 := by
    refine freq_ext (fun b => BitVec.eq_of_toNat_eq ?_) ?_
    · have hb : bs.count b < 2 ^ 32 := Nat.lt_succ_of_le (hfit b)
      have hread := readFreq_countedBytes bs tail s b
      simp only [readFreq, countedBytes] at hread
      rw [hcount, hzero, hread, BitVec.toNat_ofNat, Nat.mod_eq_of_lt hb, Nat.zero_add]
    · simpa [clearFreq] using hend
  rw [execCount_eq hf ht hc, hsrc, hloop, hfreq]
  simp [countedBytes, clearFreq]

/-- COUNT at the end of the source: the histogram gets its one END_OF_DATA. -/
theorem countLoop_eof_countedBytes (bs : List Byte) (rest : List ByteAnswer) (s : State) :
    countLoop (.eof :: rest) (countedBytes bs (.eof :: rest) s) =
      { s with
        freq := histogram bs, bytecnt := BitVec.ofNat 64 bs.length, byteSource := rest
        port := .responding ⟨.ok, 0⟩ } := by
  have hset : (histogram bs).set 256 1 = histogram bs := by
    rw [← getElem_histogram_eodIndex bs, Vector.set_getElem_self]
  simpa [countLoop, countedBytes, byteTaken, writeFreq, respond, eodIndex] using hset

/-- Settles O24: the bytes leave the histogram without END_OF_DATA, the end of the source enters it. -/
theorem countEffect : Obligations.CountEffect := by
  intro s bs rest hf ht hc hsrc hfit
  rw [execCount_bytes hf ht hc hsrc hfit, countLoop_eof_countedBytes]

/-- Settles O25: either fault comes after `bs` is counted; at the second, the count of `b` is full. -/
theorem countFaults : Obligations.CountFaults := by
  refine ⟨fun s bs rest hf ht hc hsrc hfit => ?_, fun s bs b rest hf ht hc hsrc hfit hfull => ?_⟩
  · rw [execCount_bytes hf ht hc hsrc hfit]
    simp [countLoop, raise, clearFreq, byteTaken, countedBytes, FaultKind.number, Stream.number]
  · have hread := readFreq_countedBytes bs (.byte b :: rest) s b
    rw [hfull] at hread
    rw [execCount_bytes hf ht hc hsrc hfit, countLoop_full b rest _ hread]
    simp [raise, clearFreq, byteTaken, countedBytes, FaultKind.number]

/-! ### FTW and FTR -/

theorem execFtw_eq {a : Operand} {c : Word} {i : TableIndex} (hi : symbolOperand a = some i) (hf : s.fault = false)
    (ht : s.treeV = false) (hc : s.codeV = false) : exec (.ftw a c) s = .next (respond 0 (writeFreq i c s)) := by
  have hadm : admission (.ftw a c) s = none :=
    admission_eq_none (fun _ => hf) (by simp [phaseAdmits, ht, hc]) (by simp [rangeAdmits, hi])
  rw [exec, execFtw, admitted_none _ hadm, hi]

theorem execFtr_eq {a : Operand} {i : TableIndex} (hi : symbolOperand a = some i) (s : State) :
    exec (.ftr a) s = .next (respond (readFreq i s) s) := by
  have hadm : admission (.ftr a) s = none :=
    admission_eq_none (fun h => nomatch h) rfl (by simp [rangeAdmits, hi])
  rw [exec, execFtr, admitted_none _ hadm, hi]

/-- Settles O22: the command is admitted and its operand is the symbol it writes. -/
theorem ftwEffect : Obligations.FtwEffect :=
  fun _ _ _ h hf ht hc => execFtw_eq (symbolOperand_of_lt h) hf ht hc

/-- Settles O23: no flag keeps FTR from reading the symbol its operand names. -/
theorem ftrEffect : Obligations.FtrEffect :=
  fun s _ h => execFtr_eq (symbolOperand_of_lt h) s

end Sys2Proof.Machine
end

section
/-! PROOFS. The commands of the tree builder: BUILD, NDR, FREE, and the queue BUILD pops (spec/41_tree_build.md). -/

namespace Sys2Proof.Machine

variable {s t : State}

/-! ### NDR and FREE -/

theorem execNdr_eq {a b : Operand} {f : NdrField} (ht : s.treeV = true) (h : a.toNat < 513)
    (hlt : a.toNat < s.nodecnt.toNat) (hf : ndrField b = some f) :
    exec (.ndr a b) s = .next (respond (nodeField s.node[a.toNat] f) s) := by
  have hadm : admission (.ndr a b) s = none :=
    admission_eq_none (fun h => nomatch h) ht (by simp [rangeAdmits, hlt, hf])
  have hindex : (a.setWidth 10).toNat = a.toNat := by rw [BitVec.toNat_setWidth]; omega
  have hnode : treeNode (a.setWidth 10) s = some s.node[a.toNat] :=
    treeNode_eq_some.mpr (by simp [hindex, hlt, arenaNode, h])
  rw [exec, execNdr, admitted_none _ hadm, hf, hnode]

/-- Settles O31: one admitted read for each of the five selectors. -/
theorem ndrEffect : Obligations.NdrEffect :=
  fun _ _ h ht hlt =>
    ⟨execNdr_eq (f := .sym) ht h hlt rfl, execNdr_eq (f := .wlo) ht h hlt rfl, execNdr_eq (f := .whi) ht h hlt rfl,
      execNdr_eq (f := .left) ht h hlt rfl, execNdr_eq (f := .right) ht h hlt rfl⟩

theorem execFree_eq (hf : s.fault = false) (ht : s.treeV = true) :
    exec .free s = .next (respond 0 (releaseTree s)) := by
  have hadm : admission .free s = none := admission_eq_none (fun _ => hf) ht rfl
  rw [exec, execFree, admitted_none _ hadm]

/-- Settles O32: the admitted release writes the tree's registers alone. -/
theorem freeEffect : Obligations.FreeEffect :=
  fun _ hf ht => ⟨_, execFree_eq hf ht, rfl⟩

/-! ### The queue -/

/-- A pop takes the least member and nothing else. -/
theorem pqLeast_of_pqPop {n : NodeIndex} (h : pqPop s = some (n, t)) :
    pqLeast s s.pq = some n ∧ t = { s with pq := s.pq.erase n } := by
  unfold pqPop at h
  split at h <;> [contradiction; skip]
  next hleast => cases h; exact ⟨hleast, rfl⟩

/-- Settles O29: the least member by `before` is what a pop takes, and a queue with a member has a least one. -/
theorem popTakesLeast : Obligations.PopTakesLeast := by
  refine ⟨fun s t n h => ?_, fun s hne => ?_⟩
  · obtain ⟨hleast, rfl⟩ := pqLeast_of_pqPop h
    obtain ⟨hmem, hmin⟩ := pqLeast_some hleast
    exact ⟨hmem, rfl, fun k hk hkn => by simpa [before] using hmin k hk hkn⟩
  · obtain ⟨n, -, hpop⟩ := pqPop_cases hne
    exact ⟨n, _, hpop⟩

/-! ### BUILD -/

theorem execBuild_eq (hf : s.fault = false) (ht : s.treeV = false) (hc : s.codeV = false) :
    exec .build s =
      if entries s = [] then .next (raise .table 0 s)
      else if readFreq eodIndex s = 0 then .next (raise .table 1 s)
      else buildTree s := by
  have hadm : admission .build s = none := admission_eq_none (fun _ => hf) (by simp [phaseAdmits, ht, hc]) rfl
  rw [exec, execBuild, admitted_none _ hadm]

theorem entries_ne_nil {i : TableIndex} (h : readFreq i s ≠ 0) : entries s ≠ [] :=
  List.ne_nil_of_mem (mem_entries.mpr h)

/-- Settles O26: the two checks of R140 in their order. -/
theorem buildFaults : Obligations.BuildFaults := by
  refine ⟨fun s hf ht hc hall => ?_, fun s i hf ht hc hi hend => ?_⟩
  · rw [execBuild_eq hf ht hc, if_pos (entries_eq_nil.mpr hall)]
    rfl
  · have hend' : readFreq eodIndex s = 0 := hend
    rw [execBuild_eq hf ht hc, if_neg (entries_ne_nil hi), if_pos hend']
    rfl

/-- Settles O27: the checks pass, the forest of the merge steps ends as a tree with the laws, and BUILD leaves the rest
alone. -/
theorem buildCompletesWithTreeLaws : Obligations.BuildCompletesWithTreeLaws := by
  intro s hf ht hc hend
  have hend' : readFreq eodIndex s ≠ 0 := hend
  obtain ⟨t, hbuild, hlaws, hqueue⟩ := buildTree_laws s (entries_ne_nil hend') hend'
  have hframe := buildTree_frame hbuild
  rw [hqueue] at hframe
  rw [execBuild_eq hf ht hc, if_neg (entries_ne_nil hend'), if_neg hend']
  exact ⟨t, hbuild, hlaws, hframe⟩

/-- Every leaf of the tree is the leaf R141 allocates for an entry. -/
theorem TreeLaws.exists_leafNode (h : TreeLaws s) {n : Nat} (hn : n < s.leafcnt.toNat) :
    ∃ i, readFreq i s ≠ 0 ∧ arenaNode n s = some (leafNode i s) := by
  obtain ⟨⟨sym, weight, left, right⟩, hnode, -, hleft, hright⟩ := h.leaf_nodes n hn
  obtain ⟨i, hsym, hentry, hcount⟩ := h.entry_of_leaf n _ hn hnode
  have hweight : weight = (readFreq i s).setWidth 64 := BitVec.eq_of_toNat_eq (by
    rw [hcount, BitVec.toNat_setWidth]
    omega)
  dsimp only at hsym hleft hright
  exact ⟨i, hentry, by rw [hnode, hsym, hweight, hleft, hright, leafNode]⟩

/-- The leaves ascend strictly, so a table with one entry has a tree with one leaf (R149). -/
theorem TreeLaws.leafcnt_eq_one (h : TreeLaws s) {i : TableIndex} (hone : ∀ j, readFreq j s ≠ 0 → j = i) :
    s.leafcnt.toNat = 1 := by
  by_contra hmany
  have hpos := h.leaves_pos
  obtain ⟨j, hj, hfirst⟩ := h.exists_leafNode (n := 0) (by omega)
  obtain ⟨k, hk, hsecond⟩ := h.exists_leafNode (n := 1) (by omega)
  have hlt := h.leaves_ascending 0 1 (by omega) (by omega) _ _ hfirst hsecond
  rw [hone j hj, hone k hk] at hlt
  exact BitVec.lt_irrefl _ hlt

/-- Settles O28: the laws leave room for one leaf only, the one of END_OF_DATA. -/
theorem buildOneEntry : Obligations.BuildOneEntry := by
  intro s hf ht hc hend hrest
  obtain ⟨t, hexec, hlaws, hframe⟩ := buildCompletesWithTreeLaws s hf ht hc hend
  have hfreq : t.freq = s.freq := by rw [hframe]
  have hone : ∀ i, readFreq i t ≠ 0 → i = eodIndex := fun i hi => by
    by_contra hne
    rw [readFreq, hfreq] at hi
    exact hi (hrest i fun hval => hne (Fin.ext hval))
  have hleafcnt := hlaws.leafcnt_eq_one hone
  have hnodecnt := hlaws.nodecnt_eq
  have hroot := hlaws.root_eq
  rw [hleafcnt] at hnodecnt hroot
  obtain ⟨i, hi, hleaf⟩ := hlaws.exists_leafNode (n := 0) (by omega)
  refine ⟨t, hexec, by rw [hframe], BitVec.eq_of_toNat_eq hroot, BitVec.eq_of_toNat_eq hnodecnt,
    BitVec.eq_of_toNat_eq hleafcnt, ?_⟩
  rw [hleaf, hone i hi, leafNode, symbolAt_eodIndex, readFreq, hfreq]
  rfl

/-! ### Determinism (R152): two runs of BUILD agree on the queue and on the arena in use -/

/-- Two states in the middle of a BUILD that have the same queue and the same arena entries below `n`, those in use;
what the arena holds beyond may differ. -/
structure AgreeBelow (n : Nat) (s t : State) : Prop where
  queue_eq : t.pq = s.pq
  queue_lt : ∀ m ∈ s.pq, m.toNat < n
  node_eq : ∀ m, m < n → arenaNode m t = arenaNode m s

variable {n : Nat}

theorem AgreeBelow.queueWeight_eq (h : AgreeBelow n s t) {m : NodeIndex} (hm : m.toNat < n) :
    queueWeight m t = queueWeight m s := by
  rw [queueWeight, queueWeight, h.node_eq _ hm]

/-- The least member depends on the members' weights alone. -/
theorem pqLeast_congr {l : List NodeIndex} (h : ∀ m ∈ l, queueWeight m t = queueWeight m s) :
    pqLeast t l = pqLeast s l := by
  induction l with
  | nil => rfl
  | cons m l ih =>
    rw [pqLeast, pqLeast, ih fun k hk => h k (List.mem_cons_of_mem _ hk)]
    cases hl : pqLeast s l with
    | none => rfl
    | some k =>
      have hk := h k (List.mem_cons_of_mem _ (pqLeast_some hl).1)
      have hbefore : before m k t = before m k s := by rw [before, before, hk, h m List.mem_cons_self]
      simp only [hbefore]

/-- Both pop the same member, and what is left agrees. -/
theorem AgreeBelow.pop (h : AgreeBelow n s t) {a b : NodeIndex} {s' t' : State} (hs : pqPop s = some (a, s'))
    (ht : pqPop t = some (b, t')) : b = a ∧ a.toNat < n ∧ AgreeBelow n s' t' := by
  obtain ⟨hsleast, rfl⟩ := pqLeast_of_pqPop hs
  obtain ⟨htleast, rfl⟩ := pqLeast_of_pqPop ht
  rw [h.queue_eq, pqLeast_congr fun m hm => h.queueWeight_eq (h.queue_lt m hm), hsleast] at htleast
  cases htleast
  refine ⟨rfl, h.queue_lt a (pqLeast_some hsleast).1, ?_, ?_, h.node_eq⟩
  · exact congrArg (List.erase · a) h.queue_eq
  · exact fun m hm => h.queue_lt m (List.mem_of_mem_erase hm)

/-- Both write and queue the same node at index `n`. -/
theorem AgreeBelow.alloc (h : AgreeBelow n s t) (hn : n < 513) (e : Node) :
    AgreeBelow (n + 1) (pqInsert (BitVec.ofNat 10 n) (writeNode n e s))
      (pqInsert (BitVec.ofNat 10 n) (writeNode n e t)) where
  queue_eq := congrArg (· ++ [BitVec.ofNat 10 n]) h.queue_eq
  queue_lt m hm := by
    rcases List.mem_append.mp hm with hm | hm
    · exact Nat.lt_succ_of_lt (h.queue_lt m hm)
    · rw [List.mem_singleton.mp hm, toNat_ofNat10 (by omega)]
      exact Nat.lt_succ_self n
  node_eq m hm := by
    show arenaNode m (writeNode n e t) = arenaNode m (writeNode n e s)
    rw [arenaNode_writeNode m n e t hn, arenaNode_writeNode m n e s hn]
    split
    · rfl
    · exact h.node_eq m (by omega)

theorem entries_congr (hfreq : t.freq = s.freq) : entries t = entries s := by rw [entries, entries, hfreq]

/-- Leaf allocation reads the table alone. -/
theorem AgreeBelow.allocLeaves (h : AgreeBelow n s t) (hfreq : t.freq = s.freq) (l : List TableIndex)
    (hle : n + l.length ≤ 513) : AgreeBelow (n + l.length) (allocLeaves l n s) (allocLeaves l n t) := by
  induction l generalizing n s t with
  | nil => exact h
  | cons i l ih =>
    have hleaf : leafNode i t = leafNode i s := by rw [leafNode, leafNode, readFreq, readFreq, hfreq]
    rw [List.length_cons] at hle ⊢
    rw [Machine.allocLeaves, Machine.allocLeaves, hleaf, ← Nat.succ_add_eq_add_succ]
    exact ih (h.alloc (by omega) (leafNode i s)) hfreq (by omega)

/-- The parts of a merge step: two pops and an allocation (R144). -/
theorem mergeStep_parts (h : mergeStep n s = some t) :
    ∃ a b s1 s2, pqPop s = some (a, s1) ∧ pqPop s1 = some (b, s2) ∧
      t = pqInsert (BitVec.ofNat 10 n) (writeNode n (internalNode a b s2) s2) := by
  unfold mergeStep at h
  split at h <;> [contradiction; skip]
  next a s1 h1 =>
    split at h <;> [contradiction; skip]
    next b s2 h2 => cases h; exact ⟨a, b, s1, s2, h1, h2, rfl⟩

theorem AgreeBelow.mergeStep (h : AgreeBelow n s t) (hn : n < 513) {s' t' : State} (hs : mergeStep n s = some s')
    (ht : mergeStep n t = some t') : AgreeBelow (n + 1) s' t' := by
  obtain ⟨a, b, s1, s2, hs1, hs2, rfl⟩ := mergeStep_parts hs
  obtain ⟨a', b', t1, t2, ht1, ht2, rfl⟩ := mergeStep_parts ht
  obtain ⟨rfl, ha, h1⟩ := h.pop hs1 ht1
  obtain ⟨rfl, hb, h2⟩ := h1.pop hs2 ht2
  have hnode : internalNode a' b' t2 = internalNode a' b' s2 := by
    rw [internalNode, internalNode, h2.queueWeight_eq ha, h2.queueWeight_eq hb]
  rw [hnode]
  exact h2.alloc hn _

theorem AgreeBelow.mergeLoop {k : Nat} (h : AgreeBelow n s t) (hle : n + k ≤ 513) {s' t' : State}
    (hs : mergeLoop k n s = some s') (ht : mergeLoop k n t = some t') : AgreeBelow (n + k) s' t' := by
  induction k generalizing n s t with
  | zero => cases hs; cases ht; exact h
  | succ k ih =>
    unfold Machine.mergeLoop at hs ht
    split at hs <;> [contradiction; skip]
    next s1 hs1 =>
      split at ht <;> [contradiction; skip]
      next t1 ht1 =>
        rw [← Nat.succ_add_eq_add_succ]
        exact ih (h.mergeStep (by omega) hs1 ht1) (by omega) hs ht

/-- The state BUILD's merge steps start from (R141). -/
def leafForest (s : State) : State :=
  { allocLeaves (entries s) 0 { s with pq := [] } with leafcnt := BitVec.ofNat 9 (entries s).length }

theorem leafForest_agree (hfreq : t.freq = s.freq) : AgreeBelow (entries s).length (leafForest s) (leafForest t) := by
  have hstart : AgreeBelow 0 { s with pq := [] } { t with pq := [] } := ⟨rfl, by simp, by simp⟩
  have hle := entries_length_le s
  have hleaves := hstart.allocLeaves hfreq (entries s) (by omega)
  rw [Nat.zero_add] at hleaves
  rw [leafForest, leafForest, entries_congr hfreq]
  exact ⟨hleaves.queue_eq, hleaves.queue_lt, hleaves.node_eq⟩

/-- The parts of BUILD on a valid table: the leaves, the merge steps, the root (R146). -/
theorem buildTree_parts (h : buildTree s = .next t) :
    ∃ u v root, mergeLoop ((entries s).length - 1) (entries s).length (leafForest s) = some u ∧
      pqPop u = some (root, v) ∧
      t = respond 0
        { v with
          root := root, nodecnt := BitVec.ofNat 10 (2 * (entries s).length - 1)
          cur := Config.nil, treeV := true } := by
  unfold buildTree at h
  dsimp only at h
  split at h <;> [contradiction; skip]
  next u hu =>
    split at h <;> [contradiction; skip]
    next root v hv => cases h; exact ⟨u, v, root, hu, hv, rfl⟩

theorem buildTree_leafcnt (h : buildTree s = .next t) : t.leafcnt = BitVec.ofNat 9 (entries s).length := by
  obtain ⟨u, v, root, hloop, hpop, rfl⟩ := buildTree_parts h
  show v.leafcnt = _
  rw [pqPop_frame hpop, mergeLoop_frame hloop]
  rfl

/-- A BUILD that answered OK has passed both checks and built a tree. -/
theorem buildTree_of_build_ok {d : Word} (h : exec .build s = .next t) (hok : t.port = .responding ⟨.ok, d⟩) :
    entries s ≠ [] ∧ buildTree s = .next t := by
  rcases exec_cases h with ⟨r, -, rfl⟩ | ⟨-, hrun⟩
  · cases hok
  · cases hrun with
    | buildEmpty => cases hok
    | buildNoEnd => cases hok
    | build _ hne _ ht => exact ⟨hne, ht⟩

/-- Settles O30: two runs agree on the queue and the arena in use from the leaves to the root. -/
theorem buildDependsOnTableAlone : Obligations.BuildDependsOnTableAlone := by
  intro s1 s2 t1 t2 hfreq hexec1 hexec2 hok1 hok2
  obtain ⟨hne, hbuild1⟩ := buildTree_of_build_ok hexec1 hok1
  obtain ⟨-, hbuild2⟩ := buildTree_of_build_ok hexec2 hok2
  have hentries := entries_congr hfreq.symm
  have hleafcnt : t1.leafcnt = t2.leafcnt := by
    rw [buildTree_leafcnt hbuild1, buildTree_leafcnt hbuild2, hentries]
  have hpos := List.length_pos_iff.mpr hne
  have hle := entries_length_le s1
  obtain ⟨u1, v1, root1, hloop1, hpop1, rfl⟩ := buildTree_parts hbuild1
  obtain ⟨u2, v2, root2, hloop2, hpop2, rfl⟩ := buildTree_parts hbuild2
  rw [hentries] at hloop2 ⊢
  have hforest := (leafForest_agree hfreq.symm).mergeLoop (by omega) hloop1 hloop2
  obtain ⟨rfl, -, hagree⟩ := hforest.pop hpop1 hpop2
  refine ⟨hleafcnt, rfl, rfl, fun n hn => (hagree.node_eq n ?_).symm⟩
  have hnodecnt : n < (BitVec.ofNat 10 (2 * (entries s1).length - 1)).toNat := hn
  rw [toNat_ofNat10 (by omega)] at hnodecnt
  omega

end Sys2Proof.Machine
end

section
/-! PROOFS. Every path of a built tree is the only one to its end, and a weight that internal nodes share out between
their children is shared out between the leaves (spec/10_state.md R27, 42_code_table.md R176 to R178). -/

namespace Sys2Proof.Machine

variable {s t : State} {i : TableIndex}

/-! ### Depth -/

/-- Each step of a path goes one level down. -/
theorem TreeShape.depthOk_descend (h : TreeShape s) {n m : NodeIndex} {d : Nat} {p : List Bool} (hn : DepthOk s n d)
    (hp : descend s n p = some m) : DepthOk s m (d + p.length) := by
  induction p generalizing n d with
  | nil => cases hp; exact hn
  | cons b p ih =>
    rcases h.node_cases hn with ⟨e, -, he, -, hleaf, -⟩ | ⟨e, he, hsym, -, -, -, hleft, hright⟩
    · simp [descend, he, hleaf] at hp
    · have hchild : descend s (if b then e.right else e.left) p = some m := by
        simpa [descend, he, Node.isLeaf, hsym] using hp
      have hdepth : DepthOk s (if b then e.right else e.left) (d + 1) := by
        cases b
        · exact hleft
        · exact hright
      rw [List.length_cons, Nat.add_comm p.length 1, ← Nat.add_assoc]
      exact ih hdepth hchild

/-- A path from the root is shorter than the number of leaves (42_code_table.md R176). -/
theorem TreeShape.length_lt_leafcnt (h : TreeShape s) {m : NodeIndex} {p : List Bool}
    (hp : descend s s.root p = some m) : p.length < s.leafcnt.toNat := by
  obtain ⟨-, hdepth, -⟩ := h.depthOk_descend h.depthOk_root hp
  omega

/-- No path goes down from the root and comes back to it. -/
theorem TreeShape.eq_nil_of_descend_root (h : TreeShape s) {p : List Bool} (hp : descend s s.root p = some s.root) :
    p = [] := by
  obtain ⟨-, hdepth, hinternal⟩ := h.depthOk_descend h.depthOk_root hp
  have hroot := h.root_eq
  exact List.length_eq_zero_iff.mp (by omega)

/-! ### Parents -/

theorem mem_childIndices {k : Nat} :
    k ∈ childIndices s ↔ ∃ n e, s.leafcnt.toNat ≤ n ∧ n < s.leafcnt.toNat + (s.leafcnt.toNat - 1) ∧
      arenaNode n s = some e ∧ (k = e.left.toNat ∨ k = e.right.toNat) := by
  unfold childIndices
  simp only [List.mem_flatMap, List.mem_range'_1]
  constructor
  · rintro ⟨n, ⟨hge, hlt⟩, hk⟩
    cases he : arenaNode n s with
    | none => simp [he] at hk
    | some e => exact ⟨n, e, hge, hlt, he, by simpa [he] using hk⟩
  · rintro ⟨n, e, hge, hlt, he, hk⟩
    exact ⟨n, ⟨hge, hlt⟩, by simpa [he] using hk⟩

/-- The children of the internal nodes are the nodes below the root, each once. -/
theorem TreeShape.childIndices_perm (h : TreeShape s) : (childIndices s).Perm (List.range s.root.toNat) := by
  have hroot := h.root_eq
  have hcnt := h.nodecnt_eq
  have hlt : ∀ k ∈ childIndices s, k < s.root.toNat := fun k hk => by
    obtain ⟨n, e, hge, hn, he, hchild⟩ := mem_childIndices.mp hk
    obtain ⟨f, hf, -, hleft, hright, -⟩ := h.internal_nodes n hge (by omega)
    rw [he] at hf
    cases hf
    omega
  refine List.perm_iff_count.mpr fun k => ?_
  by_cases hk : k < s.root.toNat
  · rw [h.one_parent k hk, List.count_eq_one_of_mem List.nodup_range (List.mem_range.mpr hk)]
  · rw [List.count_eq_zero_of_not_mem fun hmem => hk (hlt k hmem),
      List.count_eq_zero_of_not_mem fun hmem => hk (List.mem_range.mp hmem)]

/-- The nodes that are not leaves are the internal nodes of R27. -/
theorem TreeShape.internal_of_isLeaf_false (h : TreeShape s) {k : NodeIndex} {e : Node} (hk : treeNode k s = some e)
    (he : e.isLeaf = false) : s.leafcnt.toNat ≤ k.toNat ∧ k.toNat < s.nodecnt.toNat ∧ e.left.toNat < k.toNat ∧
      e.right.toNat < k.toNat ∧ e.left ≠ e.right := by
  obtain ⟨hlt, hnode⟩ := treeNode_eq_some.mp hk
  have hge : s.leafcnt.toNat ≤ k.toNat := by
    by_contra hleaf
    obtain ⟨f, hf, hfleaf, -⟩ := h.leaf_nodes k.toNat (by omega)
    rw [hnode] at hf
    cases hf
    exact absurd (he.symm.trans hfleaf) (by decide)
  obtain ⟨f, hf, -, hleft, hright, hsides⟩ := h.internal_nodes k.toNat hge hlt
  rw [hnode] at hf
  cases hf
  exact ⟨hge, hlt, hleft, hright, hsides⟩

/-- Where no member of a flat map repeats, no two lists of it share one. -/
theorem eq_of_nodup_flatMap {α β : Type} {l : List α} {f : α → List β} (h : (l.flatMap f).Nodup) {a b : α}
    {x : β} (ha : a ∈ l) (hb : b ∈ l) (hxa : x ∈ f a) (hxb : x ∈ f b) : a = b := by
  by_contra hne
  have : Std.Symm (Function.onFun List.Disjoint f) := ⟨fun _ _ hd => hd.symm⟩
  exact (List.nodup_flatMap.mp h).2.forall ha hb hne hxa hxb

/-- A node has one parent, and hangs on one side of it (10_state.md R27). -/
theorem TreeShape.parent_unique (h : TreeShape s) {k l : NodeIndex} {e f : Node} {b c : Bool}
    (hk : treeNode k s = some e) (hl : treeNode l s = some f) (he : e.isLeaf = false) (hf : f.isLeaf = false)
    (hchild : (if b then e.right else e.left) = if c then f.right else f.left) : k = l ∧ b = c := by
  have hcnt := h.nodecnt_eq
  obtain ⟨hkge, hklt, -, -, hsides⟩ := h.internal_of_isLeaf_false hk he
  obtain ⟨hlge, hllt, -⟩ := h.internal_of_isLeaf_false hl hf
  have hnodup : (childIndices s).Nodup := h.childIndices_perm.nodup_iff.mpr List.nodup_range
  have hkl : k.toNat = l.toNat := by
    refine eq_of_nodup_flatMap hnodup (x := (if b then e.right else e.left).toNat)
      (List.mem_range'_1.mpr (by omega)) (List.mem_range'_1.mpr (by omega)) ?_ ?_
    · cases b <;> simp [(treeNode_eq_some.mp hk).2]
    · rw [hchild]
      cases c <;> simp [(treeNode_eq_some.mp hl).2]
  obtain rfl := BitVec.eq_of_toNat_eq hkl
  rw [hk] at hl
  cases hl
  refine ⟨rfl, ?_⟩
  cases b <;> cases c
  · rfl
  · exact absurd hchild hsides
  · exact absurd hchild.symm hsides
  · rfl

/-- Only one path leads from the root to a node. -/
theorem TreeShape.path_unique (h : TreeShape s) {p q : List Bool} {m : NodeIndex} (hp : descend s s.root p = some m)
    (hq : descend s s.root q = some m) : p = q := by
  induction p using List.reverseRecOn generalizing q m with
  | nil =>
    cases hp
    exact (h.eq_nil_of_descend_root hq).symm
  | append_singleton p b ih =>
    obtain rfl | ⟨q, c, rfl⟩ := q.eq_nil_or_concat'
    · cases hq
      exact h.eq_nil_of_descend_root hp
    · obtain ⟨k, e, hk, he, hkint, rfl⟩ := descend_concat hp
      obtain ⟨l, f, hl, hf, hlint, hchild⟩ := descend_concat hq
      obtain ⟨rfl, rfl⟩ := h.parent_unique he hf hkint hlint hchild
      rw [ih hk hl]

/-! ### Sums over the leaves -/

/-- Where every internal node's weight is the sum of its children's, the root's is the sum of the leaves'. -/
theorem TreeShape.sum_leaves (h : TreeShape s) {w : Nat → Nat}
    (hw : ∀ n e, s.leafcnt.toNat ≤ n → n < s.nodecnt.toNat → arenaNode n s = some e →
      w e.left.toNat + w e.right.toNat = w n) :
    ((List.range s.leafcnt.toNat).map w).sum = w s.root.toNat := by
  have hpos := h.leaves_pos
  have hroot := h.root_eq
  have hcnt := h.nodecnt_eq
  have hchildren : ((childIndices s).map w).sum =
      ((List.range' s.leafcnt.toNat (s.leafcnt.toNat - 1)).map w).sum := by
    unfold childIndices
    rw [List.map_flatMap, List.flatMap, List.sum_flatten, List.map_map]
    refine congrArg List.sum (List.map_congr_left fun n hn => ?_)
    obtain ⟨hge, hlt⟩ := List.mem_range'_1.mp hn
    obtain ⟨e, he, -⟩ := h.internal_nodes n hge (by omega)
    simp [he, hw n e hge (by omega) he]
  have hbelow := (h.childIndices_perm.map w).sum_eq
  have hsplit : List.range s.leafcnt.toNat ++ List.range' s.leafcnt.toNat (s.leafcnt.toNat - 1) =
      List.range s.root.toNat ++ [s.root.toNat] := by
    have hcount : s.root.toNat + 1 = s.leafcnt.toNat + (s.leafcnt.toNat - 1) := by omega
    rw [← List.range_succ, List.range_eq_range', List.range_eq_range', Nat.succ_eq_add_one, hcount,
      ← List.range'_append_1, Nat.zero_add]
  have hsum := congrArg (fun l => (l.map w).sum) hsplit
  simp only [List.map_append, List.sum_append, List.map_cons, List.map_nil, List.sum_singleton] at hsum
  omega

/-- Paths halve: weighed by 2^(-length), the paths to the leaves sum to 1 (42_code_table.md R178). -/
theorem TreeShape.sum_pow_depth (h : TreeShape s) {depth : Nat → Nat}
    (hd : ∀ p m, descend s s.root p = some m → depth m.toNat = p.length) :
    ((List.range s.leafcnt.toNat).map fun n => 2 ^ (256 - depth n)).sum = 2 ^ 256 := by
  have hroot := h.root_eq
  have hcnt := h.nodecnt_eq
  have hle := h.leaves_le
  have hzero : depth s.root.toNat = 0 := hd [] s.root rfl
  rw [h.sum_leaves, hzero]
  intro n e hge hlt he
  have hnat : (BitVec.ofNat 10 n).toNat = n := toNat_ofNat10 (by omega)
  obtain ⟨f, hf, hsym, -⟩ := h.internal_nodes n hge hlt
  rw [he] at hf
  cases hf
  have hnode : treeNode (BitVec.ofNat 10 n) s = some e := treeNode_eq_some.mpr (by rw [hnat]; exact ⟨hlt, he⟩)
  obtain ⟨p, hp⟩ := h.reachable n (by omega)
  have hchild : ∀ b, descend s s.root (p ++ [b]) = some (if b then e.right else e.left) := fun b => by
    simp [descend_append, hp, descend, hnode, Node.isLeaf, hsym]
  have hparent := hd p _ hp
  have hleft := hd _ _ (hchild false)
  have hright := hd _ _ (hchild true)
  have hlen := h.length_lt_leafcnt (hchild false)
  simp only [List.length_append, List.length_singleton, hnat, if_true, Bool.false_eq_true, if_false]
    at hparent hleft hright hlen
  rw [hleft, hright, hparent, ← Nat.two_mul, ← Nat.pow_succ']
  congr 1
  omega

/-- Since one path leads to a node, its length is the node's depth. -/
theorem TreeShape.exists_depth (h : TreeShape s) :
    ∃ depth : Nat → Nat, ∀ p m, descend s s.root p = some m → depth m.toNat = p.length := by
  choose! path hpath using h.reachable
  refine ⟨fun k => (path k).length, fun p m hp => ?_⟩
  obtain ⟨hlt, -⟩ := h.depthOk_descend h.depthOk_root hp
  have hroot := h.root_eq
  have hcnt := h.nodecnt_eq
  have hm := hpath m.toNat (by omega)
  rw [BitVec.ofNat_toNat, BitVec.setWidth_eq] at hm
  exact congrArg List.length (h.path_unique hm hp)

end Sys2Proof.Machine
end

section
/-! PROOFS. The commands of the code-table generator: GEN and the laws of the map it leaves, CTR
(spec/42_code_table.md). -/

namespace Sys2Proof.Machine

variable {s t : State} {i : TableIndex}

/-! ### The map of a tree -/

/-- Exactly the symbols of the leaves have a code (42_code_table.md R173). -/
theorem MapOfTree.len_ne_zero_iff (h : MapOfTree t) (hs : TreeShape t) :
    (readCode i t).len ≠ 0 ↔ ∃ n e, n < t.leafcnt.toNat ∧ arenaNode n t = some e ∧ e.sym = symbolAt i := by
  have hpos := hs.leaves_pos
  have hle := hs.leaves_le
  have hroot := hs.root_eq
  constructor
  · intro hlen
    by_contra hnone
    exact hlen (congrArg Code.len (h.no_leaf i fun n e hn he hsym => hnone ⟨n, e, hn, he, hsym⟩))
  · rintro ⟨n, e, hn, he, hsym⟩ hlen
    rcases Nat.lt_or_ge 1 t.leafcnt.toNat with h2 | h1
    · have hpath := h.path h2 n e i hn he hsym
      have hnil : codeString (readCode i t) = [] := List.length_eq_zero_iff.mp (by simp [hlen])
      rw [hnil] at hpath
      have := congrArg BitVec.toNat (Option.some.inj hpath)
      rw [toNat_ofNat10 (by omega)] at this
      omega
    · obtain rfl : n = 0 := by omega
      rw [h.root_leaf (by omega) e i he hsym] at hlen
      exact absurd hlen (by decide)

theorem mem_codedSymbols : i ∈ codedSymbols t ↔ (readCode i t).len ≠ 0 := by
  simp [codedSymbols]

/-- A sum over the symbols that have a code is a sum over the leaves. -/
theorem MapOfTree.sum_codedSymbols (h : MapOfTree t) (hs : TreeShape t) {g : TableIndex → Nat} {w : Nat → Nat}
    (hgw : ∀ n e i, n < t.leafcnt.toNat → arenaNode n t = some e → e.sym = symbolAt i → g i = w n) :
    ((codedSymbols t).map g).sum = ((List.range t.leafcnt.toNat).map w).sum := by
  have hleaf : ∀ n, n ∈ (List.range t.leafcnt.toNat).toFinset →
      ∃ i e, n < t.leafcnt.toNat ∧ arenaNode n t = some e ∧ e.sym = symbolAt i := fun n hn => by
    have hlt : n < t.leafcnt.toNat := by simpa using hn
    obtain ⟨e, he, hsym, -⟩ := hs.leaf_nodes n hlt
    obtain ⟨i, hi⟩ := exists_symbolAt (x := e.sym) (by simpa [Node.isLeaf] using hsym)
    exact ⟨i, e, hlt, he, hi⟩
  choose symbol e hlt he hsym using hleaf
  have hnodup : (codedSymbols t).Nodup := (List.nodup_finRange 257).filter _
  rw [← List.sum_toFinset g hnodup, ← List.sum_toFinset w List.nodup_range]
  refine (Finset.sum_bij symbol ?_ ?_ ?_ ?_).symm
  · intro n hn
    have hcode := (h.len_ne_zero_iff hs).mpr ⟨n, e n hn, hlt n hn, he n hn, hsym n hn⟩
    exact List.mem_toFinset.mpr (mem_codedSymbols.mpr hcode)
  · intro m hm n hn heq
    exact hs.leaf_unique (hlt m hm) (hlt n hn) (he m hm) (he n hn) (by rw [hsym m hm, hsym n hn, heq])
  · intro i hi
    obtain ⟨n, f, hn, hf, hi⟩ := (h.len_ne_zero_iff hs).mp (mem_codedSymbols.mp (List.mem_toFinset.mp hi))
    have hn' : n ∈ (List.range t.leafcnt.toNat).toFinset := by simpa using hn
    refine ⟨n, hn', symbolAt_injective ?_⟩
    rw [← hsym n hn', ← hi, Option.some.inj ((he n hn').symm.trans hf)]
  · intro n hn
    exact (hgw n _ _ (hlt n hn) (he n hn) (hsym n hn)).symm

/-- As many symbols have a code as the tree has leaves (42_code_table.md R173). -/
theorem MapOfTree.length_codedSymbols (h : MapOfTree t) (hs : TreeShape t) :
    (codedSymbols t).length = t.leafcnt.toNat := by
  simpa using h.sum_codedSymbols hs (g := fun _ => 1) (w := fun _ => 1) fun _ _ _ _ _ _ => rfl

/-- A code is as long as the path to its leaf, and so shorter than the number of leaves (42_code_table.md R176). -/
theorem MapOfTree.len_lt_leafcnt (h : MapOfTree t) (hs : TreeShape t) (h2 : 2 ≤ t.leafcnt.toNat) (i : TableIndex) :
    (readCode i t).len.toNat < t.leafcnt.toNat := by
  by_cases hlen : (readCode i t).len = 0
  · simp only [hlen, BitVec.ofNat_eq_ofNat, BitVec.toNat_ofNat, Nat.zero_mod]
    omega
  · obtain ⟨n, e, hn, he, hsym⟩ := (h.len_ne_zero_iff hs).mp hlen
    simpa using hs.length_lt_leafcnt (h.path h2 n e i hn he hsym)

/-- The Kraft equality (42_code_table.md R178). -/
theorem MapOfTree.kraftSum_eq (h : MapOfTree t) (hs : TreeShape t) :
    kraftSum t = if t.leafcnt.toNat = 1 then 2 ^ 255 else 2 ^ 256 := by
  have hpos := hs.leaves_pos
  have hle := hs.leaves_le
  unfold kraftSum
  split
  next h1 =>
    rw [h.sum_codedSymbols hs (w := fun _ => 2 ^ 255), h1]
    · rfl
    · intro n e i hn he hsym
      obtain rfl : n = 0 := by omega
      rw [h.root_leaf h1 e i he hsym]
      rfl
  next h1 =>
    obtain ⟨depth, hdepth⟩ := hs.exists_depth
    rw [h.sum_codedSymbols hs (w := fun n => 2 ^ (256 - depth n)), hs.sum_pow_depth hdepth]
    intro n e i hn he hsym
    have hlen := hdepth _ _ (h.path (by omega) n e i hn he hsym)
    rw [toNat_ofNat10 (by omega), length_codeString] at hlen
    rw [hlen]

/-! ### GEN -/

/-- The shape of a tree speaks of NODE and the tree's registers alone. -/
theorem TreeShape.congr (h : TreeShape s) (hnode : t.node = s.node) (hleafcnt : t.leafcnt = s.leafcnt)
    (hnodecnt : t.nodecnt = s.nodecnt) (hroot : t.root = s.root) : TreeShape t := by
  cases s
  cases t
  dsimp only at hnode hleafcnt hnodecnt hroot
  subst hnode hleafcnt hnodecnt hroot
  exact { h with }

/-- A GEN that answered OK has walked the tree, which it leaves as it was. -/
theorem gen_ok (hs : TreeShape s) (h : exec .gen s = .next t) (hok : t.port = .responding ⟨.ok, 0⟩) :
    WalkedCodes s t ∧ TreeShape t ∧ MapOfTree t ∧ t.leafcnt = s.leafcnt := by
  rcases exec_cases h with ⟨r, -, rfl⟩ | ⟨-, ⟨⟩⟩
  · cases hok
  next u hu =>
  obtain ⟨v, hv, hframe, hcodes⟩ := walk_root hs
  rw [hv] at hu
  cases hu
  rw [hframe] at hcodes ⊢
  replace hcodes : WalkedCodes s (respond 0 { s with code := u.code, codeV := true }) := hcodes
  exact ⟨hcodes, hs.congr rfl rfl rfl rfl, hcodes.mapOfTree hs rfl rfl rfl rfl, rfl⟩

/-- Settles O33: the walk completes with the tree's map, in which the leaves' symbols have a code each. -/
theorem genCompletesWithMapOfTree : Obligations.GenCompletesWithMapOfTree := by
  intro s hf ht hc hs
  obtain ⟨u, hu, hframe, -⟩ := walk_root hs
  have hadm : admission .gen s = none := admission_eq_none (fun _ => hf) (by simp [phaseAdmits, ht, hc]) rfl
  have hexec : exec .gen s = .next (respond 0 { u with codeV := true }) := by
    rw [exec, execGen, admitted_none _ hadm, hu]
  obtain ⟨-, hshape, hmap, hleafcnt⟩ := gen_ok hs hexec rfl
  refine ⟨_, hexec, hmap, ?_, ?_⟩
  · rw [hmap.length_codedSymbols hshape, hleafcnt]
  · rw [hframe]
    rfl

/-- Settles O34: one code beginning another would be one path to a leaf going on beyond another leaf. -/
theorem genPrefixFree : Obligations.GenPrefixFree := by
  intro s t hs h hok
  obtain ⟨hcodes, -⟩ := gen_ok hs h hok
  exact hcodes.prefixFree hs

/-- Settles O35: the codes are the paths to the leaves, and paths halve. -/
theorem genKraftEquality : Obligations.GenKraftEquality := by
  intro s t hs h hok
  obtain ⟨-, hshape, hmap, hleafcnt⟩ := gen_ok hs h hok
  rw [hmap.kraftSum_eq hshape, hleafcnt]

/-- Settles O36: a code is a path to a leaf, and no path is as long as there are leaves. -/
theorem genCodeLength : Obligations.GenCodeLength := by
  intro s t i hs h2 h hok
  obtain ⟨-, hshape, hmap, hleafcnt⟩ := gen_ok hs h hok
  rw [← hleafcnt] at h2 ⊢
  exact Nat.le_sub_one_of_lt (hmap.len_lt_leafcnt hshape h2 i)

/-! ### CTR -/

theorem ctrField_of_lt {b : Operand} (h : b.toNat < 8) : ctrField b = some (.chunk ⟨b.toNat, h⟩) := dif_pos h

theorem execCtr_eq {a b : Operand} {f : CtrField} (h : a.toNat < 257) (hf : ctrField b = some f)
    (hc : s.codeV = true) : exec (.ctr a b) s = .next (respond (codeField s.code[a.toNat] f) s) := by
  have hi := symbolOperand_of_lt h
  have hadm : admission (.ctr a b) s = none :=
    admission_eq_none (fun h => nomatch h) hc (by simp [rangeAdmits, hi, hf])
  rw [exec, execCtr, admitted_none _ hadm, hi, hf]
  rfl

/-- A chunk CTR answered is the one its operand names. -/
theorem ctr_ok_chunk {a b : Operand} {d : Word} (ha : a.toNat < 257) (hb : b.toNat < 8)
    (h : exec (.ctr a b) s = .next t) (hok : t.port = .responding ⟨.ok, d⟩) :
    d = s.code[a.toNat].bits.extractLsb' (32 * b.toNat) 32 := by
  rcases exec_cases h with ⟨r, -, rfl⟩ | ⟨-, ⟨⟩⟩
  · cases hok
  next i f hi hf =>
  rw [symbolOperand_of_lt ha] at hi
  rw [ctrField_of_lt hb] at hf
  cases hi
  cases hf
  cases hok
  rfl

/-- Settles O37: one admitted read for the length and for each chunk; a bit of a chunk is the bit it was taken from. -/
theorem ctrEffect : Obligations.CtrEffect := by
  refine ⟨fun s a h hc =>
    ⟨execCtr_eq (f := .len) h rfl hc, fun b hb => execCtr_eq h (ctrField_of_lt hb) hc⟩, ?_⟩
  intro s t a b d ha k hb hk h hok
  rw [ctr_ok_chunk ha hb h hok, BitVec.getLsbD_extractLsb', decide_eq_true hk, Bool.true_and]

end Sys2Proof.Machine
end

section
/-! PROOFS. The command of the encoder: ENC of a source that ends or answers Err, of a symbol without a code and into a
sink that answers Err, and the length law (spec/43_encoder.md R190 to R195). -/

namespace Sys2Proof.Machine

variable {s : State}

/-! ### The end of ENC -/

/-- Settles O38: after the codes of the bytes, the end of the source gives the code of END_OF_DATA and the response. -/
theorem encEffect : Obligations.EncEffect := by
  intro s bs rest hf hc hsrc hcodes heod hacc
  rw [encodedWithEnd, List.length_append] at hacc ⊢
  have hemit := emit_of_accepts (s := byteTaken rest (encodedBytes bs (.eof :: rest) s)) heod hacc.after
  rw [execEnc_bytes hf hc hsrc hcodes (hacc.mono (Nat.le_add_right _ _)), encLoop, hemit]
  simp only [respond, byteTaken, encodedBytes, List.append_assoc, sinkAfter_sinkAfter, ← BitVec.ofNat_add]
  rfl

/-- No bit of a symbol without a code is offered (43_encoder.md R191). -/
theorem emit_of_noCode {i : TableIndex} (hnone : (readCode i s).len = 0) :
    emit i s = .ended (raise .nocode (BitVec.ofNat 32 i.val) s) := if_pos hnone

/-- ENC that meets, after the bytes `bs`, a symbol without a code (43_encoder.md R191). -/
theorem execEnc_noCode {bs : List Byte} {item : ByteAnswer} {i : TableIndex} {rest : List ByteAnswer}
    (hf : s.fault = false) (hc : s.codeV = true) (hsrc : s.byteSource = bs.map ByteAnswer.byte ++ item :: rest)
    (hcodes : ∀ b ∈ bs, (readCode (byteIndex b) s).len ≠ 0) (hi : Encodes item i) (hnone : (readCode i s).len = 0)
    (hacc : SinkAccepts s.bitSink (encoded s bs).length) :
    exec .enc s = .next (raise .nocode (BitVec.ofNat 32 i.val) (encodedBytes bs rest s)) := by
  rw [execEnc_bytes hf hc hsrc hcodes hacc,
    encLoop_item_ended hi (emit_of_noCode (s := byteTaken rest (encodedBytes bs (item :: rest) s)) hnone)]
  rfl

/-- Settles O39: a byte's symbol number is the byte, END_OF_DATA's is 256. -/
theorem encNoCodeFault : Obligations.EncNoCodeFault := by
  refine ⟨fun s bs b rest hf hc hsrc hcodes hnone hacc => ?_, fun s bs rest hf hc hsrc hcodes hnone hacc => ?_⟩
  · have hnumber : BitVec.ofNat 32 (byteIndex b).val = b.setWidth 32 := BitVec.ofNat_toNat 32 b
    rw [execEnc_noCode hf hc hsrc hcodes (.inl ⟨b, rfl, rfl⟩) hnone hacc, hnumber]
    rfl
  · rw [execEnc_noCode hf hc hsrc hcodes (.inr ⟨rfl, rfl⟩) hnone hacc]
    rfl

/-- Settles O40: after the codes of the bytes, the loop takes the Err and faults. -/
theorem encSourceFault : Obligations.EncSourceFault := by
  intro s bs rest hf hc hsrc hcodes hacc
  rw [execEnc_bytes hf hc hsrc hcodes hacc]
  rfl

/-- Settles O41: of the two ways the sink can stop the code of an item, the one at Err. -/
theorem encSinkFault : Obligations.EncSinkFault := by
  intro s bs item i rest k hf hc hsrc hcodes hi hk hacc herr
  rw [execEnc_stops hf hc hsrc hcodes hi hk hacc (by simp [herr]), if_pos herr]
  rfl

/-! ### The length law -/

/-- One symbol's code is accepted and counted whole, or it ends ENC with no OK. -/
theorem emit_cases (i : TableIndex) (s : State) :
    (∃ u, emit i s = .goOn u ∧ (∀ j, readCode j u = readCode j s) ∧
      u.bitcnt = s.bitcnt + BitVec.ofNat 64 (readCode i s).len.toNat) ∨
    (∃ u, emit i s = .ended u ∧ u.port ≠ .responding ⟨.ok, 0⟩) := by
  by_cases hnone : (readCode i s).len = 0
  · exact .inr ⟨_, emit_of_noCode hnone, nofun⟩
  · rw [emit, if_neg hnone, ← length_codeString]
    rcases emitBits_frame (codeString (readCode i s)) s with
      ⟨k, hon⟩ | ⟨k, n, -, hio | hwait⟩
    · exact .inl ⟨_, hon, fun _ => rfl, rfl⟩
    · exact .inr ⟨_, hio, nofun⟩
    · exact .inr ⟨_, hwait, nofun⟩

/-- A loop of ENC that answers OK has counted every code, and END_OF_DATA's (43_encoder.md R195). -/
theorem encLoop_ok_bitcnt {bs : List Byte} {rest : List ByteAnswer}
    (hok : (encLoop (bs.map ByteAnswer.byte ++ .eof :: rest) s).port = .responding ⟨.ok, 0⟩) :
    (encLoop (bs.map ByteAnswer.byte ++ .eof :: rest) s).bitcnt = s.bitcnt + BitVec.ofNat 64
      ((readCode eodIndex s).len.toNat + (bs.map fun b => (readCode (byteIndex b) s).len.toNat).sum) := by
  induction bs generalizing s with
  | nil =>
    rcases emit_cases eodIndex (byteTaken rest s) with ⟨u, hon, -, hbitcnt⟩ | ⟨u, hend, hport⟩
    · simp only [List.map_nil, List.nil_append, encLoop, hon]
      exact hbitcnt
    · simp only [List.map_nil, List.nil_append, encLoop, hend] at hok
      exact absurd hok hport
  | cons b bs ih =>
    rcases emit_cases (byteIndex b) (byteTaken (bs.map ByteAnswer.byte ++ .eof :: rest) s) with
      ⟨u, hon, hcode, hbitcnt⟩ | ⟨u, hend, hport⟩
    · simp only [List.map_cons, List.cons_append, encLoop, hon] at hok ⊢
      replace hcode : ∀ j, readCode j (bumpBytecnt u) = readCode j s := hcode
      replace hbitcnt : (bumpBytecnt u).bitcnt = s.bitcnt + BitVec.ofNat 64 (readCode (byteIndex b) s).len.toNat :=
        hbitcnt
      simp only [ih hok, hcode, hbitcnt]
      rw [List.sum_cons, BitVec.add_assoc, ← BitVec.ofNat_add, Nat.add_left_comm]
    · simp only [List.map_cons, List.cons_append, encLoop, hend] at hok
      exact absurd hok hport

theorem eq_eodIndex_or_byteIndex (i : TableIndex) : i = eodIndex ∨ ∃ b, i = byteIndex b := by
  cases hsym : symbolAt i with
  | byte b => exact .inr ⟨b, symbolAt_injective (hsym.trans (symbolAt_byteIndex b).symm)⟩
  | endOfData => exact .inl (symbolAt_injective (hsym.trans symbolAt_eodIndex.symm))
  | internal => exact absurd hsym (symbolAt_ne_internal i)

/-- A count of the table is how often ENC emits the symbol (40_freq_table.md R122, 43_encoder.md R190). -/
theorem toNat_getElem_histogram {bs : List Byte} (hfit : CountsFit bs) (i : TableIndex) :
    ((histogram bs)[i]).toNat = (eodIndex :: bs.map byteIndex).count i := by
  rcases eq_eodIndex_or_byteIndex i with rfl | ⟨b, rfl⟩
  · have hnone : (bs.map byteIndex).count eodIndex = 0 :=
      List.count_eq_zero.mpr fun h => by
        obtain ⟨b, -, hb⟩ := List.mem_map.mp h
        exact byteIndex_ne_eodIndex b hb
    rw [List.count_cons_self, hnone]
    exact congrArg BitVec.toNat (getElem_histogram_eodIndex bs)
  · have hlt : bs.count b < 2 ^ 32 := Nat.lt_succ_of_le (hfit b)
    rw [getElem_histogram_byteIndex, BitVec.toNat_ofNat, Nat.mod_eq_of_lt hlt,
      List.count_cons_of_ne (byteIndex_ne_eodIndex b).symm,
      List.count_map_of_injective _ _ fun _ _ => byteIndex_injective]

/-- A sum over symbols as they occur is a sum over all symbols, each as often as it occurs. -/
theorem sum_count_mul (l : List TableIndex) (g : TableIndex → Nat) :
    ((List.finRange 257).map fun i => l.count i * g i).sum = (l.map g).sum := by
  rw [← Fin.sum_univ_def, Finset.sum_list_map_count]
  refine (Finset.sum_subset (Finset.subset_univ _) fun i _ hi => ?_).symm
  rw [List.count_eq_zero.mpr fun h => hi (List.mem_toFinset.mpr h), Nat.zero_mul]

/-- Settles O42: an OK has counted every code emitted, and the table tells how often each symbol's was. -/
theorem encLengthLaw : Obligations.EncLengthLaw := by
  intro s t bs rest hexec hok hsrc
  have hlen : t.bitcnt = BitVec.ofNat 64 ((readCode eodIndex s).len.toNat +
      (bs.map fun b => (readCode (byteIndex b) s).len.toNat).sum) := by
    rcases exec_cases hexec with ⟨r, -, rfl⟩ | ⟨-, ⟨⟩⟩
    · cases hok
    · rw [hsrc] at hok ⊢
      exact (encLoop_ok_bitcnt hok).trans (BitVec.zero_add _)
  refine ⟨hlen, fun hfreq hfit => ?_⟩
  have hcount : ∀ i, (readFreq i s).toNat = (eodIndex :: bs.map byteIndex).count i := fun i => by
    rw [readFreq, hfreq, toNat_getElem_histogram hfit]
  simp only [hcount, sum_count_mul, List.map_cons, List.map_map, List.sum_cons]
  exact hlen

end Sys2Proof.Machine
end

section
/-! PROOFS. The command of the decoder: DEC to END_OF_DATA, of a source that ends or answers Err, into a sink that answers
Err, and on the one-leaf tree (spec/44_decoder.md R210 to R216). -/

namespace Sys2Proof.Machine

variable {s t : State}

/-! ### One bit -/

/-- The state of DEC once a bit has led it to the node `c`, with `rest` left in the source (R210). -/
def bitFollowed (c : NodeIndex) (rest : List BitAnswer) (s : State) : State :=
  { s with cur := c, bitcnt := s.bitcnt + 1, bitSource := rest }

/-- Everything one bit can come to when DEC answers a next state: no child, an internal node, the leaf of END_OF_DATA, or
the leaf of a byte and what the sink answers to it (R210). -/
inductive BitRun (s : State) (b : Bool) (rest : List BitAnswer) (t : State) : Prop where
  | noChild (e : Node) (he : treeNode s.cur s = some e) (hleaf : e.isLeaf = true)
      (ht : t = raise .corrupt 0 (bitFollowed s.cur rest s))
  | internal (c : NodeIndex) (e : Node) (he : treeNode c s = some e) (hs : e.sym = .internal)
      (ht : decLoop rest (bitFollowed c rest s) = .next t)
  | endOfData (c : NodeIndex) (ht : t = respond 0 (bitFollowed c rest s))
  | given (v : Byte) (k : Sink)
      (ht : decLoop rest (bumpBytecnt { bitFollowed s.root rest s with byteSink := k, bytesOut := s.bytesOut ++ [v] }) =
        .next t)
  | refused (c : NodeIndex) (k : Sink) (ht : t = raise .io 1 { bitFollowed c rest s with byteSink := k })
  | notTaken (c : NodeIndex) (k : Sink) (ht : t = waitFor .byteSink { bitFollowed c rest s with byteSink := k })

theorem child_of_leaf {n : NodeIndex} {e : Node} (b : Bool) (he : treeNode n s = some e) (hleaf : e.isLeaf = true) :
    child n b s = if b then .noChild else .to n := by
  simp [child, he, hleaf]

theorem child_of_internal {n : NodeIndex} {e : Node} (b : Bool) (he : treeNode n s = some e) (hleaf : e.isLeaf = false) :
    child n b s = .to (if b then e.right else e.left) := by
  simp [child, he, hleaf]

theorem child_eq_noChild {n : NodeIndex} {b : Bool} (h : child n b s = .noChild) :
    ∃ e, treeNode n s = some e ∧ e.isLeaf = true := by
  unfold child at h
  split at h <;> [contradiction; skip]
  next e he =>
    split at h <;> [skip; contradiction]
    next hleaf => exact ⟨e, he, hleaf⟩

theorem decLoop_bit_cases {b : Bool} {rest : List BitAnswer} (h : decLoop (.bit b :: rest) s = .next t) :
    BitRun s b rest t := by
  simp only [decLoop] at h
  split at h
  · contradiction
  next hc =>
    cases h
    obtain ⟨e, he, hleaf⟩ := child_eq_noChild hc
    exact .noChild e he hleaf rfl
  next c _ =>
    split at h <;> [contradiction; skip]
    next e he =>
      split at h
      next hs => exact .internal c e he hs h
      · cases h; exact .endOfData c rfl
      next v _ =>
        rcases byteOut_cases v { bumpBitcnt (bitTaken rest s) with cur := c } with ⟨k, hk⟩ | ⟨k, hk⟩ | ⟨k, hk⟩
        · rw [hk] at h
          exact .given v k h
        · rw [hk] at h
          cases h
          exact .refused c k rfl
        · rw [hk] at h
          cases h
          exact .notTaken c k rfl

/-- A bit that leads DEC to the leaf of END_OF_DATA ends it. -/
theorem decLoop_bit_endOfData {b : Bool} {rest : List BitAnswer} {c : NodeIndex} {e : Node}
    (hc : child s.cur b s = .to c) (he : treeNode c s = some e) (hs : e.sym = .endOfData) :
    decLoop (.bit b :: rest) s = .next (respond 0 (bitFollowed c rest s)) := by
  have hchild : child (bumpBitcnt (bitTaken rest s)).cur b (bumpBitcnt (bitTaken rest s)) = .to c := hc
  have hnode : treeNode c { bumpBitcnt (bitTaken rest s) with cur := c } = some e := he
  simp only [decLoop, hchild, hnode, hs]
  rfl

/-- A bit that leads DEC nowhere is the fault E_CORRUPT (R215). -/
theorem decLoop_bit_noChild {b : Bool} {rest : List BitAnswer} (hc : child s.cur b s = .noChild) :
    decLoop (.bit b :: rest) s = .next (raise .corrupt 0 (bitFollowed s.cur rest s)) := by
  have hchild : child (bumpBitcnt (bitTaken rest s)).cur b (bumpBitcnt (bitTaken rest s)) = .noChild := hc
  simp only [decLoop, hchild]
  rfl

/-! ### Termination (R213, R216) -/

/-- DEC along a path to the leaf of END_OF_DATA ends there. -/
theorem decLoop_endOfData {p : List Bool} {rest : List BitAnswer} {n : NodeIndex} {e : Node}
    (hsrc : s.bitSource = p.map BitAnswer.bit ++ rest) (hp : p ≠ []) (hd : descend s s.cur p = some n)
    (he : treeNode n s = some e) (hs : e.sym = .endOfData) :
    decLoop (p.map BitAnswer.bit ++ rest) s = .next (respond 0 { s with
      cur := n, bitcnt := s.bitcnt + BitVec.ofNat 64 p.length, bitSource := rest }) := by
  obtain rfl | ⟨q, c, rfl⟩ := p.eq_nil_or_concat'
  · exact absurd rfl hp
  obtain ⟨k, f, hk, hf, hleaf, rfl⟩ := descend_concat hd
  simp only [List.map_append, List.map_cons, List.map_nil, List.append_assoc, List.cons_append, List.nil_append]
    at hsrc ⊢
  have hcount : s.bitcnt + BitVec.ofNat 64 q.length + 1 = s.bitcnt + BitVec.ofNat 64 (q ++ [c]).length := by
    rw [List.length_append, List.length_singleton, BitVec.ofNat_add, ← BitVec.add_assoc]
    rfl
  rw [decLoop_descend q _ s k f hsrc hk hf (.inr (isLeaf_iff.mp hleaf)), ← hcount]
  exact decLoop_bit_endOfData (child_of_internal c hf hleaf) he hs

/-- Settles O43: after the bytes' bit strings DEC is back at ROOT, and the last one ends it. -/
theorem decEffect : Obligations.DecEffect := by
  intro s words last leaf e rest hf ht hwords hlast hd he hs hsrc hacc
  rw [List.map_append, List.append_assoc] at hsrc
  rw [execDec_words hf ht hsrc hwords hacc,
    decLoop_endOfData (s := decodedWords words [] s.root _ s) rfl hlast (descend_decodedWords.trans hd) he hs]
  simp only [respond, decodedWords, List.length_nil, Nat.add_zero, BitVec.ofNat_add]

/-- Settles O47: of all ways DEC's loop ends, the one with OK. -/
theorem decOkOnlyAtEndOfData : Obligations.DecOkOnlyAtEndOfData := by
  intro s t d h hok
  rcases exec_cases h with ⟨r, -, rfl⟩ | ⟨-, ⟨⟩⟩
  · cases hok
  next hrun =>
  obtain ⟨-, -, -, ⟨hp | hp | ⟨-, hend⟩, -⟩ | ⟨⟨hp, -⟩ | ⟨hp, -⟩ | ⟨hp, -⟩, -⟩⟩ := decLoop_ends hrun
  case inl.inr.inr => exact hend
  all_goals cases hp.symm.trans hok

/-- A loop of DEC that answers OK has taken bits alone, and counted them and the bytes it gave. -/
theorem decLoop_ok_counts {l : List BitAnswer} (h : decLoop l s = .next t) (hok : t.port = .responding ⟨.ok, 0⟩) :
    ∃ (bits : List Bool) (bytes : List Byte), l = bits.map BitAnswer.bit ++ t.bitSource ∧
      t.bitcnt = s.bitcnt + BitVec.ofNat 64 bits.length ∧ t.bytesOut = s.bytesOut ++ bytes ∧
      t.bytecnt = s.bytecnt + BitVec.ofNat 64 bytes.length := by
  induction l generalizing s with
  | nil => cases h; cases hok
  | cons a rest ih =>
    cases a with
    | err | eof => cases h; cases hok
    | bit b =>
      cases decLoop_bit_cases h with
      | noChild _ _ _ ht | refused _ _ ht | notTaken _ _ ht => subst ht; cases hok
      | internal _ _ _ _ ht =>
        obtain ⟨bits, bytes, hsrc, hbits, hout, hbytes⟩ := ih ht
        exact ⟨b :: bits, bytes, congrArg _ hsrc, hbits.trans (counter_succ _ _), hout, hbytes⟩
      | endOfData _ ht =>
        subst ht
        exact ⟨[b], [], rfl, rfl, (List.append_nil _).symm, (BitVec.add_zero _).symm⟩
      | given v _ ht =>
        obtain ⟨bits, bytes, hsrc, hbits, hout, hbytes⟩ := ih ht
        exact ⟨b :: bits, v :: bytes, congrArg _ hsrc, hbits.trans (counter_succ _ _),
          hout.trans (List.append_assoc _ _ _), hbytes.trans (counter_succ _ _)⟩

/-- Settles O48: DEC counts from 0. -/
theorem decTakesCountedBits : Obligations.DecTakesCountedBits := by
  intro s t h hok
  rcases exec_cases h with ⟨r, -, rfl⟩ | ⟨-, ⟨⟩⟩
  · cases hok
  next hrun =>
  obtain ⟨bits, bytes, hsrc, hbits, hout, hbytes⟩ := decLoop_ok_counts hrun hok
  exact ⟨bits, bytes, hsrc, hbits.trans (BitVec.zero_add _), hout, hbytes.trans (BitVec.zero_add _)⟩

/-! ### Faults of the streams (R214) -/

/-- Settles O44: whether between codes or inside one, the loop stands at the node reached when the answer comes. -/
theorem decSourceEndsEarly : Obligations.DecSourceEndsEarly := by
  intro s words part n rest hf ht hwords hpart hacc
  constructor <;> intro hsrc <;> rw [execDec_partway hf ht hsrc hwords hpart hacc] <;> rfl

/-- Settles O45: the sink has taken the bytes before, and refuses the one after them. -/
theorem decSinkFault : Obligations.DecSinkFault := by
  intro s words last leaf e b rest hf ht hwords hlast hd he hb hsrc hacc herr
  refine execDec_stops hf ht hsrc hwords hacc hlast hd he hb ?_
  rw [byteOut_eq, show sinkAnswer (decodedWords words last leaf rest s).byteSink 0 = .err from
    (sinkAnswer_sinkAfter _ _ _).trans herr]
  simp only [decodedWords, sinkAfter_sinkAfter]
  rfl

/-! ### E_CORRUPT (R215) -/

/-- A loop of DEC that stands at an internal node, and starts again at one after each byte, finds a child for every bit. -/
theorem decLoop_port_ne_corrupt {l : List BitAnswer} {r e : Node} (h : decLoop l s = .next t)
    (hroot : treeNode s.root s = some r) (hr : r.sym = .internal) (hcur : treeNode s.cur s = some e)
    (he : e.sym = .internal) (d : Word) : t.port ≠ .responding ⟨.fault .corrupt, d⟩ := by
  induction l generalizing s e with
  | nil => cases h; exact nofun
  | cons a rest ih =>
    cases a with
    | err | eof => cases h; exact nofun
    | bit b =>
      cases decLoop_bit_cases h with
      | noChild f hf hleaf =>
        cases hcur.symm.trans hf
        exact absurd (hleaf.symm.trans (isLeaf_iff.mpr he)) (by decide)
      | internal c f hf hs ht => exact ih ht hroot hf hs
      | given _ _ ht => exact ih ht hroot hroot hr
      | endOfData _ ht | refused _ _ ht | notTaken _ _ ht => subst ht; exact nofun

/-- The root of a tree of two leaves or more is an internal node (10_state.md R27). -/
theorem TreeShape.root_internal (h : TreeShape s) (h2 : 2 ≤ s.leafcnt.toNat) :
    ∃ e, treeNode s.root s = some e ∧ e.sym = .internal := by
  have hroot := h.root_eq
  obtain ⟨-, -, -, hlt, -⟩ | ⟨e, he, hs, -⟩ := h.node_cases h.depthOk_root
  · omega
  · exact ⟨e, he, hs⟩

/-- Settles O46: the root leaf is its own child on bit 0 and has none on bit 1; an internal root has both. -/
theorem decOneLeafTree : Obligations.DecOneLeafTree := by
  refine ⟨fun s e b rest hf ht he hs hsrc => ?_, fun s t d hshape h2 h => ?_⟩
  · have hleaf : e.isLeaf = true := by simp [Node.isLeaf, hs]
    rw [execDec_eq hf ht, hsrc]
    cases b with
    | false => exact decLoop_bit_endOfData (c := s.root) (child_of_leaf false he hleaf) he hs
    | true => exact decLoop_bit_noChild (child_of_leaf true he hleaf)
  · rcases exec_cases h with ⟨r, -, rfl⟩ | ⟨-, ⟨⟩⟩
    · exact nofun
    next hrun =>
    obtain ⟨e, he, hs⟩ := hshape.root_internal h2
    exact decLoop_port_ne_corrupt hrun he hs he hs d

end Sys2Proof.Machine
end

section
/-! PROOFS. The round trip: what ENC emits with the map of a tree, DEC reads back with the same tree
(spec/44_decoder.md R217, 43_encoder.md R197). -/

namespace Sys2Proof.Machine

variable {s t : State} {i : TableIndex}

/-! ### What ENC emits when it answers OK -/

/-- A symbol whose emission goes on has a code, and all its bits were accepted. -/
theorem emit_goOn (h : emit i s = .goOn t) :
    (readCode i s).len ≠ 0 ∧ t.code = s.code ∧ t.bitsOut = s.bitsOut ++ codeString (readCode i s) := by
  by_cases hnone : (readCode i s).len = 0
  · cases (emit_of_noCode hnone).symm.trans h
  · rw [emit, if_neg hnone] at h
    rcases emitBits_frame (codeString (readCode i s)) s with ⟨k, hon⟩ | ⟨k, n, -, hio | hwait⟩
    · cases hon.symm.trans h
      exact ⟨hnone, rfl, rfl⟩
    · cases hio.symm.trans h
    · cases hwait.symm.trans h

theorem readCode_congr (hcode : t.code = s.code) (i : TableIndex) : readCode i t = readCode i s := by
  rw [readCode, readCode, hcode]

/-- The bits ENC emits depend on CODE alone. -/
theorem encodedWithEnd_congr (hcode : t.code = s.code) (bs : List Byte) : encodedWithEnd t bs = encodedWithEnd s bs := by
  simp only [encodedWithEnd, encoded, readCode_congr hcode]

theorem encodedWithEnd_cons (b : Byte) (bs : List Byte) :
    encodedWithEnd s (b :: bs) = codeString (readCode (byteIndex b) s) ++ encodedWithEnd s bs := by
  simp [encodedWithEnd, encoded]

/-- A loop of ENC that answers OK found a code for every byte and for END_OF_DATA, and emitted them all. -/
theorem encLoop_ok_bitsOut {bs : List Byte} {rest : List ByteAnswer}
    (hok : (encLoop (bs.map ByteAnswer.byte ++ .eof :: rest) s).port = .responding ⟨.ok, 0⟩) :
    (∀ b ∈ bs, (readCode (byteIndex b) s).len ≠ 0) ∧ (readCode eodIndex s).len ≠ 0 ∧
      (encLoop (bs.map ByteAnswer.byte ++ .eof :: rest) s).bitsOut = s.bitsOut ++ encodedWithEnd s bs := by
  induction bs generalizing s with
  | nil =>
    rcases emit_cases eodIndex (byteTaken rest s) with ⟨u, hon, -⟩ | ⟨u, hend, hport⟩
    · obtain ⟨heod, -, hbits⟩ := emit_goOn hon
      simp only [List.map_nil, List.nil_append, encLoop, hon]
      exact ⟨by simp, heod, hbits⟩
    · simp only [List.map_nil, List.nil_append, encLoop, hend] at hok
      exact absurd hok hport
  | cons b bs ih =>
    rcases emit_cases (byteIndex b) (byteTaken (bs.map ByteAnswer.byte ++ .eof :: rest) s) with
      ⟨u, hon, -⟩ | ⟨u, hend, hport⟩
    · obtain ⟨hb, hcode, hbits⟩ := emit_goOn hon
      simp only [List.map_cons, List.cons_append, encLoop, hon] at hok ⊢
      obtain ⟨hbs, heod, hout⟩ := ih hok
      replace hcode : (bumpBytecnt u).code = s.code := hcode
      simp only [readCode_congr hcode] at hbs heod
      refine ⟨List.forall_mem_cons.mpr ⟨hb, hbs⟩, heod, ?_⟩
      rw [hout, encodedWithEnd_congr hcode, encodedWithEnd_cons, ← List.append_assoc]
      exact congrArg (· ++ encodedWithEnd s bs) hbits
    · simp only [List.map_cons, List.cons_append, encLoop, hend] at hok
      exact absurd hok hport

/-- An ENC that answered OK found a code for every byte and for END_OF_DATA, and emitted them all (43_encoder.md R190). -/
theorem enc_ok {bs : List Byte} {rest : List ByteAnswer} (h : exec .enc s = .next t)
    (hok : t.port = .responding ⟨.ok, 0⟩) (hsrc : s.byteSource = bs.map ByteAnswer.byte ++ .eof :: rest) :
    (∀ b ∈ bs, (readCode (byteIndex b) s).len ≠ 0) ∧ (readCode eodIndex s).len ≠ 0 ∧
      t.bitsOut = s.bitsOut ++ encodedWithEnd s bs := by
  rcases exec_cases h with ⟨r, -, rfl⟩ | ⟨-, ⟨⟩⟩
  · cases hok
  · rw [hsrc] at hok ⊢
    exact encLoop_ok_bitsOut hok

/-! ### The same tree in two states -/

/-- Two states whose trees cannot be told apart: NODE may differ beyond NODECNT. -/
structure SameTree (s t : State) : Prop where
  root : t.root = s.root
  node : ∀ n, treeNode n t = treeNode n s

theorem SameTree.descend_eq (h : SameTree s t) (n : NodeIndex) (p : List Bool) : descend t n p = descend s n p := by
  induction p generalizing n with
  | nil => rfl
  | cons b p ih => simp only [descend, h.node, ih]

theorem SameTree.reaches (h : SameTree s t) {p : List Bool} (hp : Reaches s s.root p i) : Reaches t t.root p i := by
  obtain ⟨m, e, hd, hm, hs⟩ := hp
  exact ⟨m, e, by rw [h.root, h.descend_eq, hd], by rw [h.node, hm], hs⟩

/-- Equal tables have the same tree (41_tree_build.md R152). -/
theorem sameTree_of_build {s' t' : State} (hfreq : t.freq = s.freq) (hs : exec .build s = .next s')
    (hsok : s'.port = .responding ⟨.ok, 0⟩) (ht : exec .build t = .next t') (htok : t'.port = .responding ⟨.ok, 0⟩) :
    SameTree s' t' := by
  obtain ⟨-, hnodecnt, hroot, hnode⟩ := buildDependsOnTableAlone s t s' t' hfreq.symm hs ht hsok htok
  refine ⟨hroot.symm, fun n => ?_⟩
  rw [treeNode, treeNode, ← hnodecnt]
  exact if_ctx_congr Iff.rfl (fun hn => (hnode _ hn).symm) fun _ => rfl

/-- A BUILD that answered OK has left a tree with BUILD's laws, of the table it found. -/
theorem treeLaws_of_build_ok (h : exec .build s = .next t) (hok : t.port = .responding ⟨.ok, 0⟩) :
    TreeLaws t ∧ t.freq = s.freq := by
  rcases exec_cases h with ⟨r, -, rfl⟩ | ⟨-, hrun⟩
  · cases hok
  · cases hrun with
    | buildEmpty | buildNoEnd => cases hok
    | build _ hne heod ht =>
      obtain ⟨u, hu, hlaws, -⟩ := buildTree_laws s hne heod
      cases hu.symm.trans ht
      exact ⟨hlaws, by rw [buildTree_frame ht]⟩

/-! ### What DEC reads -/

/-- Where the tree has two leaves or more, a code is the path to its symbol's leaf (42_code_table.md R178). -/
theorem WalkedCodes.reaches_codeString (h : WalkedCodes s t) (hs : TreeShape s) (h2 : 2 ≤ s.leafcnt.toNat)
    (hi : (readCode i t).len ≠ 0) :
    codeString (readCode i t) ≠ [] ∧ Reaches s s.root (codeString (readCode i t)) i := by
  obtain ⟨p, hp, hlen, hc⟩ := h.reached hi
  have hne := hs.path_ne_nil h2 hp
  rw [hc, codeString_leafCode hne hlen]
  exact ⟨hne, hp⟩

/-- Where the tree has one leaf, it is the root, and its symbol's code is "0" (42_code_table.md R172). -/
theorem WalkedCodes.root_leaf (h : WalkedCodes s t) (hs : TreeShape s) (h1 : s.leafcnt.toNat = 1)
    (hi : (readCode i t).len ≠ 0) : Reaches s s.root [] i ∧ codeString (readCode i t) = [false] := by
  obtain ⟨p, hp, -, hc⟩ := h.reached hi
  obtain rfl := hs.path_eq_nil h1 hp
  exact ⟨hp, by rw [hc]; rfl⟩

theorem Reaches.spellsByte {p : List Bool} {b : Byte} (h : Reaches s s.root p (byteIndex b)) (hp : p ≠ []) :
    SpellsByte s p b := by
  obtain ⟨m, e, hd, hm, hs⟩ := h
  exact ⟨hp, m, e, hd, hm, hs.trans (symbolAt_byteIndex b)⟩

/-- DEC has decoded `bits` into `bs`, and left `after` in the source (44_decoder.md R216). -/
def Decodes (bits : List Bool) (bs : List Byte) (after : List BitAnswer) (s : State) : Prop :=
  ∃ t, exec .dec s = .next t ∧ t.port = .responding ⟨.ok, 0⟩ ∧ t.bytesOut = s.bytesOut ++ bs ∧
    t.bitSource = after ∧ t.bitcnt = BitVec.ofNat 64 bits.length ∧ t.bytecnt = BitVec.ofNat 64 bs.length

/-- With the tree that CODE is the map of, DEC undoes ENC: over codes that are paths of the tree, byte by byte; over the
one code of the one-leaf tree, at once. -/
theorem WalkedCodes.decodes {u : State} {bs : List Byte} {after : List BitAnswer} (h : WalkedCodes s t)
    (hs : TreeShape s) (hsame : SameTree s u) (hbs : ∀ b ∈ bs, (readCode (byteIndex b) t).len ≠ 0)
    (heod : (readCode eodIndex t).len ≠ 0) (htree : u.treeV = true) (hfault : u.fault = false)
    (hsrc : u.bitSource = (encodedWithEnd t bs).map BitAnswer.bit ++ after) (hacc : SinkAccepts u.byteSink bs.length) :
    Decodes (encodedWithEnd t bs) bs after u := by
  rcases Nat.lt_or_ge 1 s.leafcnt.toNat with h2 | h1
  · obtain ⟨hne, hend⟩ := h.reaches_codeString hs h2 heod
    obtain ⟨leaf, e, hd, hm, hsym⟩ := hsame.reaches hend
    let words := bs.map fun b => (codeString (readCode (byteIndex b) t), b)
    have hwords : ∀ w ∈ words, SpellsByte u w.1 w.2 := List.forall_mem_map.mpr fun b hb => by
      obtain ⟨hne, hpath⟩ := h.reaches_codeString hs h2 (hbs b hb)
      exact (hsame.reaches hpath).spellsByte hne
    have hbits : words.flatMap (·.1) = encoded t bs := List.flatMap_map ..
    have hbytes : words.map (·.2) = bs := by simp [words, Function.comp_def]
    have hlen : words.length = bs.length := List.length_map _
    have hdec := decEffect u words _ leaf e after hfault htree hwords hne hd hm (hsym.trans symbolAt_eodIndex)
      (by rw [hbits]; exact hsrc) (by rwa [hlen])
    rw [hbits, hbytes, hlen, ← List.length_append] at hdec
    exact ⟨_, hdec, rfl, rfl, rfl, rfl, rfl⟩
  · have h1 : s.leafcnt.toNat = 1 := Nat.le_antisymm h1 hs.leaves_pos
    obtain ⟨hend, hcode⟩ := h.root_leaf hs h1 heod
    obtain rfl : bs = [] := List.eq_nil_iff_forall_not_mem.mpr fun b hb =>
      byteIndex_ne_eodIndex b (reaches_prefix (h.root_leaf hs h1 (hbs b hb)).1 hend List.nil_prefix)
    have hbits : encodedWithEnd t [] = [false] := hcode
    rw [hbits] at hsrc ⊢
    obtain ⟨m, e, hd, hm, hsym⟩ := hsame.reaches hend
    cases hd
    have hdec := decOneLeafTree.1 u e false after hfault htree hm (hsym.trans symbolAt_eodIndex) hsrc
    exact ⟨_, hdec, rfl, (List.append_nil _).symm, rfl, rfl, rfl⟩

/-- With the table of a byte sequence every byte of it and END_OF_DATA have a code (44_decoder.md R217). -/
theorem WalkedCodes.len_ne_zero_of_occurs {bs : List Byte} (h : WalkedCodes s t) (hs : TreeLaws s)
    (hfreq : s.freq = histogram bs) (hfit : CountsFit bs) (hi : i ∈ eodIndex :: bs.map byteIndex) :
    (readCode i t).len ≠ 0 := by
  have hcount := List.count_pos_iff.mpr hi
  rw [h.len_ne_zero_iff_entry hs, readFreq, hfreq]
  intro hzero
  rw [← toNat_getElem_histogram hfit, hzero] at hcount
  exact absurd hcount (by decide)

/-- Settles O49: ENC emitted the codes of GEN's map, and DEC's tree is the one GEN walked; a byte that occurs has an entry
in the table, and so has END_OF_DATA. -/
theorem roundTrip : Obligations.RoundTrip := by
  refine ⟨?_, ?_⟩
  · intro s0 s1 s2 e0 e1 d0 d1 d2 bs sent rest after hbuild hbok hgen hgok hcode hsrc henc heok hsent hfreq hbuild' hbok'
      hnode hnodecnt hroot htree hfault hbits hacc
    have hshape := (treeLaws_of_build_ok hbuild hbok).1.toTreeShape
    obtain ⟨hwalked, -⟩ := gen_ok hshape hgen hgok
    have hbuilt := sameTree_of_build hfreq hbuild hbok hbuild' hbok'
    have hsame : SameTree s1 d2 :=
      ⟨hroot.trans hbuilt.root, fun n => (treeNode_congr n hnode hnodecnt).trans (hbuilt.node n)⟩
    obtain ⟨hbs, heod, hout⟩ := enc_ok henc heok hsrc
    simp only [readCode_congr hcode] at hbs heod
    rw [encodedWithEnd_congr hcode] at hout
    obtain rfl : sent = encodedWithEnd s2 bs := List.append_cancel_left (hsent.symm.trans hout)
    exact hwalked.decodes hshape hsame hbs heod htree hfault hbits hacc
  · intro s0 s1 s2 bs hfit hhist hbuild hbok hgen hgok
    obtain ⟨hlaws, hfreq⟩ := treeLaws_of_build_ok hbuild hbok
    obtain ⟨hwalked, -⟩ := gen_ok hlaws.toTreeShape hgen hgok
    have hcoded := fun i => hwalked.len_ne_zero_of_occurs hlaws (hfreq.trans hhist) hfit (i := i)
    exact ⟨fun b hb => hcoded _ (List.mem_cons_of_mem _ (List.mem_map_of_mem hb)), hcoded _ List.mem_cons_self⟩

end Sys2Proof.Machine
end

section
/-! PROOFS. The commands of the sequencer: NOP, CLR, CSRR (spec/45_system.md). -/

namespace Sys2Proof.Machine

/-! ### NOP and CLR -/

/-- Settles O18: no admission check refuses NOP. -/
theorem nopEffect : Obligations.NopEffect := by
  intro s
  have hadm : admission .nop s = none := admission_eq_none (fun h => nomatch h) rfl rfl
  rw [exec, execNop, admitted_none _ hadm]
  rfl

theorem execClr_eq (s : State) : exec .clr s = .next (respond 0 (releaseAll s)) := by
  have hadm : admission .clr s = none := admission_eq_none (fun h => nomatch h) rfl rfl
  rw [exec, execClr, admitted_none _ hadm]

theorem AtReset.respond {s : State} (h : AtReset s) (d : Word) : AtReset (respond d s) := { h with }

theorem sameHost_releaseAll (s : State) : SameHost s (releaseAll s) := by constructor <;> rfl

theorem SameHost.respond {s t : State} (h : SameHost s t) (d : Word) : SameHost s (respond d t) := { h with }

/-- Settles O19: CLR is always admitted, and its release and response leave the host's side alone. -/
theorem clrEffect : Obligations.ClrEffect :=
  fun s => ⟨_, execClr_eq s, (atReset_releaseAll s).respond 0, rfl, (sameHost_releaseAll s).respond 0, rfl, rfl⟩

/-! ### CSRR -/

/-- A flag's place in STATUS (10_state.md R37). -/
theorem ofBool_setWidth_shiftLeft (b : Bool) (k : Nat) :
    ((BitVec.ofBool b).setWidth 32 <<< k : Word) = if b then 1#32 <<< k else 0 := by
  cases b with
  | false => exact BitVec.zero_shiftLeft k
  | true => rfl

/-- STATUS with each flag as the value it adds (10_state.md R37). -/
theorem statusWord_eq (s : State) :
    statusWord s = (s.errcode.setWidth 32 <<< 4) ||| (if s.fault then 4 else 0) ||| (if s.codeV then 2 else 0) |||
      (if s.treeV then 1 else 0) := by
  have htree : ((BitVec.ofBool s.treeV).setWidth 32 : Word) = if s.treeV then 1 else 0 := by
    simpa using ofBool_setWidth_shiftLeft s.treeV 0
  rw [statusWord, ofBool_setWidth_shiftLeft, ofBool_setWidth_shiftLeft, htree]
  rfl

/-- No flag keeps CSRR from reading the register its operand names. -/
theorem execCsrr_eq {a : Operand} {r : Csr} (hr : csrOperand a = some r) (s : State) :
    exec (.csrr a) s = .next (respond (readCsr r s) s) := by
  have hadm : admission (.csrr a) s = none :=
    admission_eq_none (fun h => nomatch h) rfl (by simp [rangeAdmits, hr])
  rw [exec, execCsrr, admitted_none _ hadm, hr]

/-- Settles O20: one admitted read for each of the eleven registers; the value of STATUS is `statusWord_eq`. -/
theorem csrrEffect : Obligations.CsrrEffect := fun s =>
  ⟨execCsrr_eq (r := .id) rfl s, statusWord_eq s ▸ execCsrr_eq (r := .status) rfl s,
    execCsrr_eq (r := .errinfo) rfl s, execCsrr_eq (r := .leafcnt) rfl s, execCsrr_eq (r := .nodecnt) rfl s,
    execCsrr_eq (r := .root) rfl s, execCsrr_eq (r := .cur) rfl s, execCsrr_eq (r := .bitcntLo) rfl s,
    execCsrr_eq (r := .bitcntHi) rfl s, execCsrr_eq (r := .bytecntLo) rfl s, execCsrr_eq (r := .bytecntHi) rfl s⟩

end Sys2Proof.Machine
end

section
/-! SUPPORT. The admission checks one by one, and how a command that answers a next state has ended
(spec/60_exceptions.md R250, R254 to R257, R260; 20_memory.md R78). -/

namespace Sys2Proof.Machine

variable {s t : State} {i : Instr} {r : RefusalKind} {f : FaultKind} {d : Word}

/-! ### The checks (R254 to R257) -/

/-- Every command is behind the admission checks. -/
theorem exec_eq_admitted (i : Instr) (s : State) : ∃ run, exec i s = admitted i s run := by
  cases i <;> simp only [exec, execNop, execClr, execFtw, execFtr, execCount, execBuild, execNdr, execFree, execGen,
    execCtr, execEnc, execDec, execCsrr] <;> exact ⟨_, rfl⟩

/-- A command for which an admission check fails is refused with that check's code. -/
theorem exec_refusedWith (h : admission i s = some r) : exec i s = refusedWith r s := by
  obtain ⟨run, hexec⟩ := exec_eq_admitted i s
  exact hexec.trans (admitted_some run h)

theorem admission_eq_faulted_iff : admission i s = some .faulted ↔ faultChecked i = true ∧ s.fault = true := by
  unfold admission
  split
  next hfault => exact iff_of_true rfl (by simpa using hfault)
  next hfault =>
    refine iff_of_false ?_ (by simpa using hfault)
    split_ifs <;> simp

theorem admission_eq_seq_iff :
    admission i s = some .seq ↔ (faultChecked i = true → s.fault = false) ∧ phaseAdmits i s = false := by
  unfold admission
  split
  next hfault => exact iff_of_false (by simp) fun ⟨hpassed, _⟩ => by simp_all
  next hfault =>
    split
    next hphase => exact iff_of_true rfl ⟨by simpa using hfault, by simpa using hphase⟩
    next hphase =>
      refine iff_of_false ?_ fun ⟨_, hout⟩ => hphase (by rw [hout]; rfl)
      split_ifs <;> simp

theorem admission_eq_range (hf : faultChecked i = true → s.fault = false) (hp : phaseAdmits i s = true)
    (hr : rangeAdmits i s = false) : admission i s = some .range := by
  have hpassed : ¬ (faultChecked i && s.fault) = true := by simpa using hf
  rw [admission, if_neg hpassed, hp, hr]
  rfl

/-! ### The operand ranges (R256) -/

theorem rangeAdmits_ftw_eq_false_iff {a : Operand} {c : Word} : rangeAdmits (.ftw a c) s = false ↔ 256 < a.toNat := by
  rw [rangeAdmits, symbolOperand_isSome, decide_eq_false_iff_not]
  omega

theorem rangeAdmits_ftr_eq_false_iff {a : Operand} : rangeAdmits (.ftr a) s = false ↔ 256 < a.toNat := by
  rw [rangeAdmits, symbolOperand_isSome, decide_eq_false_iff_not]
  omega

theorem rangeAdmits_ndr_eq_false_iff {a b : Operand} :
    rangeAdmits (.ndr a b) s = false ↔ s.nodecnt.toNat ≤ a.toNat ∨ 4 < b.toNat := by
  rw [rangeAdmits, ndrField_isSome, Bool.and_eq_false_iff, decide_eq_false_iff_not, decide_eq_false_iff_not]
  omega

theorem rangeAdmits_ctr_eq_false_iff {a b : Operand} :
    rangeAdmits (.ctr a b) s = false ↔ 256 < a.toNat ∨ 8 < b.toNat := by
  rw [rangeAdmits, symbolOperand_isSome, ctrField_isSome, Bool.and_eq_false_iff, decide_eq_false_iff_not,
    decide_eq_false_iff_not]
  omega

theorem rangeAdmits_csrr_eq_false_iff {a : Operand} : rangeAdmits (.csrr a) s = false ↔ 10 < a.toNat := by
  rw [rangeAdmits, csrOperand_isSome, decide_eq_false_iff_not]
  omega

/-- An operand outside its index space is out of range in every state whose NODECNT the arena can have. -/
theorem rangeAdmits_of_not_wellFormed (h : i.wellFormed = false) (hn : s.nodecnt.toNat ≤ 513) :
    rangeAdmits i s = false := by
  cases i with
  | nop | clr | count | build | free | gen | enc | dec => cases h
  | ftw a c => exact rangeAdmits_ftw_eq_false_iff.mpr (by simpa [Instr.wellFormed] using h)
  | ftr a => exact rangeAdmits_ftr_eq_false_iff.mpr (by simpa [Instr.wellFormed] using h)
  | ndr a b =>
    have hout : a.toNat ≤ 512 → 4 < b.toNat := by simpa [Instr.wellFormed] using h
    exact rangeAdmits_ndr_eq_false_iff.mpr (by omega)
  | ctr a b =>
    have hout : a.toNat ≤ 256 → 8 < b.toNat := by simpa [Instr.wellFormed] using h
    exact rangeAdmits_ctr_eq_false_iff.mpr (by omega)
  | csrr a => exact rangeAdmits_csrr_eq_false_iff.mpr (by simpa [Instr.wellFormed] using h)

/-! ### How a command ends (R250) -/

/-- The commands that can raise each fault (R260). -/
inductive CanRaise : FaultKind → Instr → Prop where
  | ioCount : CanRaise .io .count
  | ioEnc : CanRaise .io .enc
  | ioDec : CanRaise .io .dec
  | tableBuild : CanRaise .table .build
  | truncDec : CanRaise .trunc .dec
  | nocodeEnc : CanRaise .nocode .enc
  | corruptDec : CanRaise .corrupt .dec
  | cntovfCount : CanRaise .cntovf .count

/-- Every command that can raise a fault is refused while FAULT = 1 (R254). -/
theorem CanRaise.faultChecked (h : CanRaise f i) : faultChecked i = true := by cases h <;> rfl

/-- FAULT, ERRCODE and ERRINFO are the same in both states. -/
structure SameFaultRegisters (s t : State) : Prop where
  fault : t.fault = s.fault
  errcode : t.errcode = s.errcode
  errinfo : t.errinfo = s.errinfo

/-- The ways the pseudocode of a command ends: its stream never answers (20_memory.md R78), or it answers OK, or it takes a
fault (R250). Only a fault, and CLR, write the fault registers. -/
inductive Ending (s t : State) (i : Instr) : Prop where
  | waits (on : Stream) (port : t.port = .waiting on) (same : SameFaultRegisters s t)
  | ok (d : Word) (port : t.port = .responding ⟨.ok, d⟩) (same : i ≠ .clr → SameFaultRegisters s t)
  | fault (f : FaultKind) (can : CanRaise f i) (port : t.port = .responding ⟨.fault f, 0⟩) (fault : t.fault = true)
      (errcode : t.errcode = f.number)

theorem count_ending (s : State) : Ending s (countLoop s.byteSource { clearFreq s with bytecnt := 0 }) .count := by
  obtain ⟨t, ht, -, -, hend⟩ := countLoop_frame s.byteSource { clearFreq s with bytecnt := 0 }
  rw [ht]
  rcases hend with ⟨hp, hf, hcode, hinfo⟩ | ⟨hp, -, hf, hcode, hinfo⟩ | ⟨⟨hp, hcode, -⟩ | ⟨hp, hcode, -⟩, hf, -⟩
  · exact .waits _ hp ⟨hf, hcode, hinfo⟩
  · exact .ok _ hp fun _ => ⟨hf, hcode, hinfo⟩
  · exact .fault _ .ioCount hp hf hcode
  · exact .fault _ .cntovfCount hp hf hcode

theorem enc_ending (s : State) : Ending s (encLoop s.byteSource { s with bitcnt := 0, bytecnt := 0 }) .enc := by
  obtain ⟨-, -, -, hend⟩ := encLoop_frame s.byteSource { s with bitcnt := 0, bytecnt := 0 }
  rcases hend with ⟨hp | hp | hp, hf, hcode, hinfo⟩ | ⟨⟨hp, hcode, -⟩ | ⟨hp, hcode, -⟩, hf⟩
  · exact .waits _ hp ⟨hf, hcode, hinfo⟩
  · exact .waits _ hp ⟨hf, hcode, hinfo⟩
  · exact .ok _ hp fun _ => ⟨hf, hcode, hinfo⟩
  · exact .fault _ .ioEnc hp hf hcode
  · exact .fault _ .nocodeEnc hp hf hcode

theorem dec_ending (h : decLoop s.bitSource { s with bitcnt := 0, bytecnt := 0, cur := s.root } = .next t) :
    Ending s t .dec := by
  obtain ⟨-, -, -, hend⟩ := decLoop_ends h
  rcases hend with ⟨hp | hp | ⟨hp, -⟩, hf, hcode, hinfo⟩ | ⟨⟨hp, hcode, -⟩ | ⟨hp, hcode, -⟩ | ⟨hp, hcode, -⟩, hf⟩
  · exact .waits _ hp ⟨hf, hcode, hinfo⟩
  · exact .waits _ hp ⟨hf, hcode, hinfo⟩
  · exact .ok _ hp fun _ => ⟨hf, hcode, hinfo⟩
  · exact .fault _ .ioDec hp hf hcode
  · exact .fault _ .truncDec hp hf hcode
  · exact .fault _ .corruptDec hp hf hcode

theorem Runs.ending (h : Runs s i t) : Ending s t i := by
  cases h with
  | nop | ftw | ftr | ndr | free | ctr | csrr => exact .ok _ rfl fun _ => ⟨rfl, rfl, rfl⟩
  | clr => exact .ok _ rfl fun hclr => absurd rfl hclr
  | buildEmpty | buildNoEnd => exact .fault _ .tableBuild rfl rfl rfl
  | build _ _ _ ht => rw [buildTree_frame ht]; exact .ok _ rfl fun _ => ⟨rfl, rfl, rfl⟩
  | gen u hu => rw [walk_frame hu]; exact .ok _ rfl fun _ => ⟨rfl, rfl, rfl⟩
  | count => exact count_ending s
  | enc => exact enc_ending s
  | dec _ ht => exact dec_ending ht

/-- The pseudocode of an admitted command never answers with a refusal. -/
theorem Ending.port_ne_refusal (h : Ending s t i) : t.port ≠ .responding ⟨.refusal r, d⟩ := by
  cases h with
  | waits _ port => simp [port]
  | ok _ port => simp [port]
  | fault _ _ port => simp [port]

/-- A command that answers with a refusal failed the check of that code, and has written the response alone. -/
theorem exec_refusal (h : exec i s = .next t) (hp : t.port = .responding ⟨.refusal r, d⟩) :
    admission i s = some r ∧ d = 0 ∧ t = refuse r s := by
  rcases exec_cases h with ⟨k, hadm, rfl⟩ | ⟨-, hrun⟩
  · cases hp
    exact ⟨hadm, rfl, rfl⟩
  · exact absurd hp hrun.ending.port_ne_refusal

/-- A refusal writes nothing but the port (R252). -/
theorem exec_refusal_frame (h : exec i s = .next t) (hp : t.port = .responding ⟨.refusal r, d⟩) :
    d = 0 ∧ t = { s with port := t.port } := by
  obtain ⟨-, hd, rfl⟩ := exec_refusal h hp
  exact ⟨hd, rfl⟩

/-- A command that answers with a fault can raise it, and has set FAULT and ERRCODE to it. -/
theorem exec_fault (h : exec i s = .next t) (hp : t.port = .responding ⟨.fault f, d⟩) :
    CanRaise f i ∧ d = 0 ∧ t.fault = true ∧ t.errcode = f.number := by
  rcases exec_cases h with ⟨k, -, rfl⟩ | ⟨-, hrun⟩
  · cases hp
  · cases hrun.ending with
    | waits _ port => cases port.symm.trans hp
    | ok _ port => cases port.symm.trans hp
    | fault _ can port fault errcode =>
      cases port.symm.trans hp
      exact ⟨can, rfl, fault, errcode⟩

/-- A command that answers with a fault leaves TREE_V and CODE_V alone (R262). -/
theorem FlagChange.valid_of_fault (h : FlagChange s t i) (hcan : CanRaise f i)
    (hp : t.port = .responding ⟨.fault f, d⟩) : t.treeV = s.treeV ∧ t.codeV = s.codeV := by
  cases h with
  | kept _ tree code => exact ⟨tree, code⟩
  | faulted _ _ tree code => exact ⟨tree, code⟩
  | treeSet _ _ _ port => cases port.symm.trans hp
  | codeSet _ _ _ port => cases port.symm.trans hp
  | treeCleared | allCleared => cases hcan

end Sys2Proof.Machine
end

section
/-! PROOFS. What is refused, with which code, and that a refusal changes nothing; what a fault leaves, and that only CLR
ends FAULTED (spec/60_exceptions.md R252 to R257, R260 to R264). -/

namespace Sys2Proof.Machine

/-! ### Refusals -/

/-- The check of FAULT comes first (R257). -/
theorem exec_faulted {s : State} {i : Instr} (hi : faultChecked i = true) (hf : s.fault = true) :
    exec i s = refusedWith .faulted s :=
  exec_refusedWith (admission_eq_faulted_iff.mpr ⟨hi, hf⟩)

/-- The phase check comes after that of FAULT (R257). -/
theorem exec_out_of_phase {s : State} {i : Instr} (hf : s.fault = false) (hp : phaseAdmits i s = false) :
    exec i s = refusedWith .seq s :=
  exec_refusedWith (admission_eq_seq_iff.mpr ⟨fun _ => hf, hp⟩)

/-- The range check comes last (R257). -/
theorem exec_out_of_range {s : State} {i : Instr} (hf : faultChecked i = true → s.fault = false)
    (hp : phaseAdmits i s = true) (hr : rangeAdmits i s = false) : exec i s = refusedWith .range s :=
  exec_refusedWith (admission_eq_range hf hp hr)

/-- Settles O13: the seven commands fail the first check; the other six are not in it, so they never answer its code. -/
theorem faultedRefusals : Obligations.FaultedRefusals := by
  refine ⟨fun s hf => ⟨fun _ _ => exec_faulted rfl hf, exec_faulted rfl hf, exec_faulted rfl hf, exec_faulted rfl hf,
    exec_faulted rfl hf, exec_faulted rfl hf, exec_faulted rfl hf, fun ht _ _ => execNdr_without_tree ht,
    fun hc _ _ => execCtr_without_map hc⟩, fun s t i hi h d hp => ?_⟩
  have hexempt : faultChecked i = false := by
    rcases hi with rfl | rfl | ⟨_, rfl⟩ | ⟨_, _, rfl⟩ | ⟨_, _, rfl⟩ | ⟨_, rfl⟩ <;> rfl
  obtain ⟨hadm, -⟩ := exec_refusal h hp
  obtain ⟨hchecked, -⟩ := admission_eq_faulted_iff.mp hadm
  exact absurd hchecked (by simp [hexempt])

/-- Settles O14: each row of R255 fails the phase check; the four unlisted commands always pass it. -/
theorem phaseRefusals : Obligations.PhaseRefusals := by
  refine ⟨fun s hf hv => ?_, fun _ ht _ _ => execNdr_without_tree ht,
    fun _ hf ht => ⟨exec_out_of_phase hf ht, exec_out_of_phase hf ht⟩, fun s hf hv => exec_out_of_phase hf ?_,
    fun _ hc _ _ => execCtr_without_map hc, fun _ hf hc => exec_out_of_phase hf hc, fun s t i hi h d hp => ?_⟩
  · have hphase : (!s.treeV && !s.codeV) = false := by rcases hv with hv | hv <;> simp [hv]
    exact ⟨fun _ _ => exec_out_of_phase hf hphase, exec_out_of_phase hf hphase, exec_out_of_phase hf hphase⟩
  · rcases hv with hv | hv <;> simp [phaseAdmits, hv]
  · have hfree : phaseAdmits i s = true := by rcases hi with rfl | rfl | ⟨_, rfl⟩ | ⟨_, rfl⟩ <;> rfl
    obtain ⟨hadm, -⟩ := exec_refusal h hp
    obtain ⟨-, hphase⟩ := admission_eq_seq_iff.mp hadm
    exact absurd hfree (by simp [hphase])

/-- Settles O15: the earlier checks pass and the range check of the command fails. -/
theorem rangeRefusals : Obligations.RangeRefusals :=
  ⟨fun _ _ _ hf ht hc h =>
      exec_out_of_range (fun _ => hf) (by simp [phaseAdmits, ht, hc]) (rangeAdmits_ftw_eq_false_iff.mpr h),
    fun _ _ h => exec_out_of_range nofun rfl (rangeAdmits_ftr_eq_false_iff.mpr h),
    fun _ _ _ ht h => exec_out_of_range nofun ht (rangeAdmits_ndr_eq_false_iff.mpr h),
    fun _ _ _ hc h => exec_out_of_range nofun hc (rangeAdmits_ctr_eq_false_iff.mpr h),
    fun _ _ h => exec_out_of_range nofun rfl (rangeAdmits_csrr_eq_false_iff.mpr h)⟩

/-- Settles O17: a command whose operand is out of range is not admitted, whichever check refuses it. -/
theorem illFormedAlwaysRefused : Obligations.IllFormedAlwaysRefused := by
  intro i s hi hn
  have hrange := rangeAdmits_of_not_wellFormed hi hn
  cases hadm : admission i s with
  | some r => exact ⟨r, exec_refusedWith hadm⟩
  | none =>
    obtain ⟨-, -, hadmits⟩ := admission_none hadm
    exact absurd hadmits (by simp [hrange])

/-- Settles O6: the decoder's answer settles the transfer of the word, whatever the state. -/
theorem illegalWordRefused : Obligations.IllegalWordRefused := by
  intro s w d rest e hp hs hd
  have hmove : hostMove s = .settled (refuse .illegal { s with script := rest }) := by
    rw [hostMove_send hp hs, acceptWord, hd]
  exact step_of_settled hmove

/-- Settles O16: a refused command is `refuse` of its state; an offered word is an illegal one or such a command. -/
theorem refusalChangesNothing : Obligations.RefusalChangesNothing := by
  refine ⟨fun i s t r d => exec_refusal_frame, fun s t w d d' rest r hidle hs hstep hp => ?_⟩
  cases hd : decode w d with
  | error e =>
    cases (illegalWordRefused s w d rest e hidle hs hd).symm.trans hstep
    cases hp
    exact ⟨rfl, rfl⟩
  | ok i => exact exec_refusal_frame ((stepRunsDecodedCommand s w d rest i hidle hs hd).symm.trans hstep) hp

/-! ### Faults -/

/-- Settles O50: `exec_fault`, with the flags as `FlagChange` has them, for each fault and command of R260. -/
theorem faultEntry : Obligations.FaultEntry := by
  intro i s t f d h hp
  obtain ⟨hcan, hd, hfault, hcode⟩ := exec_fault h hp
  obtain ⟨htree, hcodeV⟩ := (exec_flagChange h).valid_of_fault hcan hp
  refine ⟨hd, hfault, hcode, htree, hcodeV, ?_⟩
  cases hcan <;> simp

/-- Settles O51: while FAULT = 1 a command that could raise a fault is refused, and no other but CLR writes the fault
registers. -/
theorem onlyClrLeavesFaulted : Obligations.OnlyClrLeavesFaulted := by
  intro i s t hf hclr h
  have hkept : SameFaultRegisters s t ∧ ∀ f d, t.port ≠ .responding ⟨.fault f, d⟩ := by
    rcases exec_cases h with ⟨r, -, rfl⟩ | ⟨hadm, hrun⟩
    · exact ⟨⟨rfl, rfl, rfl⟩, by simp⟩
    · cases hrun.ending with
      | waits _ port same => exact ⟨same, by simp [port]⟩
      | ok _ port same => exact ⟨same hclr, by simp [port]⟩
      | fault f can =>
        obtain ⟨hunfaulted, -⟩ := admission_none hadm
        exact absurd hf (by simp [hunfaulted can.faultChecked])
  obtain ⟨⟨hfault, hcode, hinfo⟩, hport⟩ := hkept
  exact ⟨hfault.trans hf, hcode, hinfo, hport⟩

end Sys2Proof.Machine
end

section
/-! PROOFS. The machine never stops, and the pulse of `rst` (spec/70_reset_and_hazards.md R280, R281, R288, R292;
42_code_table.md R170; 41_tree_build.md R143; 44_decoder.md R211). -/

namespace Sys2Proof.Machine

variable {s : State}

/-! ### DEC -/

/-- Every index below NODECNT is that of a leaf, or of an internal node over two such indices (10_state.md R27). -/
theorem TreeShape.treeNode_cases (h : TreeShape s) {n : NodeIndex} (hn : n.toNat < s.nodecnt.toNat) :
    ∃ e, treeNode n s = some e ∧
      (e.isLeaf = true ∨
        e.isLeaf = false ∧ e.left.toNat < s.nodecnt.toNat ∧ e.right.toNat < s.nodecnt.toNat) := by
  have hcount := h.nodecnt_eq
  have hroot := h.root_eq
  have hpos := h.leaves_pos
  have hdepth : DepthOk s n 0 := ⟨hn, by omega, fun _ => by omega⟩
  rcases h.node_cases hdepth with ⟨e, -, he, -, hleaf, -⟩ | ⟨e, he, hsym, -, -, -, ⟨hleft, -⟩, ⟨hright, -⟩⟩
  · exact ⟨e, he, .inl hleaf⟩
  · exact ⟨e, he, .inr ⟨isLeaf_iff.mpr hsym, hleft, hright⟩⟩

/-- A descent from a node of the tree leads to a node of the tree, if anywhere (R211). -/
theorem TreeShape.child_cases (h : TreeShape s) {n : NodeIndex} (hn : n.toNat < s.nodecnt.toNat) (b : Bool) :
    child n b s = .noChild ∨ ∃ c, child n b s = .to c ∧ c.toNat < s.nodecnt.toNat := by
  obtain ⟨e, he, hleaf | ⟨hinternal, hleft, hright⟩⟩ := h.treeNode_cases hn
  · rw [child_of_leaf b he hleaf]
    cases b with
    | true => exact .inl rfl
    | false => exact .inr ⟨n, rfl, hn⟩
  · rw [child_of_internal b he hinternal]
    cases b with
    | true => exact .inr ⟨e.right, rfl, hright⟩
    | false => exact .inr ⟨e.left, rfl, hleft⟩

section
variable {b : Bool} {rest : List BitAnswer} {c : NodeIndex} {e : Node} {v : Byte} {u : State}

/-- A bit that leads DEC to an internal node: it goes on there (R210). -/
theorem decLoop_bit_internal (hc : child s.cur b s = .to c) (he : treeNode c s = some e) (hs : e.sym = .internal) :
    decLoop (.bit b :: rest) s = decLoop rest (bitFollowed c rest s) := by
  have hchild : child (bumpBitcnt (bitTaken rest s)).cur b (bumpBitcnt (bitTaken rest s)) = .to c := hc
  have hnode : treeNode c { bumpBitcnt (bitTaken rest s) with cur := c } = some e := he
  simp only [decLoop, hchild, hnode, hs]
  rfl

/-- A bit that leads DEC to a byte's leaf, on the one-leaf tree too: it offers the byte, and goes on at ROOT where the byte
is accepted (R210, R211). -/
theorem decLoop_bit_offer (hc : child s.cur b s = .to c) (he : treeNode c s = some e) (hs : e.sym = .byte v) :
    (∀ u, byteOut v (bitFollowed c rest s) = .goOn u →
      decLoop (.bit b :: rest) s = decLoop rest { bumpBytecnt u with cur := u.root }) ∧
    (∀ u, byteOut v (bitFollowed c rest s) = .ended u → decLoop (.bit b :: rest) s = .next u) := by
  have hchild : child (bumpBitcnt (bitTaken rest s)).cur b (bumpBitcnt (bitTaken rest s)) = .to c := hc
  have hnode : treeNode c (bitFollowed c rest s) = some e := he
  have hfollowed : { bumpBitcnt (bitTaken rest s) with cur := c } = bitFollowed c rest s := rfl
  simp only [decLoop, hchild, hfollowed, hnode, hs]
  exact ⟨fun u hu => by simp only [hu], fun u hu => by simp only [hu]⟩

end

/-- DEC's loop in a tree answers a next state from every node of it, whatever the streams answer: it only moves to nodes of
the tree. -/
theorem TreeShape.decLoop_next (h : TreeShape s) (hcur : s.cur.toNat < s.nodecnt.toNat) (l : List BitAnswer) :
    ∃ t, decLoop l s = .next t := by
  induction l generalizing s with
  | nil => exact ⟨_, rfl⟩
  | cons a rest ih =>
    cases a with
    | err | eof => exact ⟨_, rfl⟩
    | bit b =>
      rcases h.child_cases hcur b with hc | ⟨c, hc, hlt⟩
      · exact ⟨_, decLoop_bit_noChild hc⟩
      obtain ⟨e, he, -⟩ := h.treeNode_cases hlt
      cases hs : e.sym with
      | internal =>
        rw [decLoop_bit_internal hc he hs]
        exact ih (h.congr rfl rfl rfl rfl) hlt
      | endOfData => exact ⟨_, decLoop_bit_endOfData hc he hs⟩
      | byte v =>
        obtain ⟨haccepted, hstopped⟩ := decLoop_bit_offer (rest := rest) hc he hs
        obtain ⟨hroot, -⟩ := h.depthOk_root
        rcases byteOut_cases v (bitFollowed c rest s) with ⟨k, hk⟩ | ⟨k, hk⟩ | ⟨k, hk⟩
        · rw [haccepted _ hk]
          exact ih (h.congr rfl rfl rfl rfl) hroot
        · exact ⟨_, hstopped _ hk⟩
        · exact ⟨_, hstopped _ hk⟩

/-! ### Every command, every step -/

/-- BUILD past its admission checks answers a next state: E_TABLE, or the tree of a valid table (R140 to R146). -/
theorem execBuild_next (hf : s.fault = false) (ht : s.treeV = false) (hc : s.codeV = false) :
    ∃ t, exec .build s = .next t := by
  rw [execBuild_eq hf ht hc]
  split
  · exact ⟨_, rfl⟩
  next hne =>
    split
    · exact ⟨_, rfl⟩
    next heod =>
      obtain ⟨t, ht, -⟩ := buildTree_laws s hne heod
      exact ⟨t, ht⟩

/-- In a state with the invariant an admitted command answers a next state: BUILD, NDR, GEN and DEC, which alone can stop
the model, by the laws of the tree. -/
theorem Inv.exec_next_of_admitted {i : Instr} (h : Inv s) (ha : admission i s = none) :
    ∃ t, Machine.exec i s = .next t := by
  obtain ⟨hfault, hphase, hrange⟩ := admission_none ha
  cases i with
  | nop => exact ⟨_, nopEffect s⟩
  | clr => exact ⟨_, execClr_eq s⟩
  | ftw a c =>
    obtain ⟨ht, hc⟩ := phaseTable_of_admission ha rfl
    obtain ⟨i, hi⟩ := Option.isSome_iff_exists.mp hrange
    exact ⟨_, execFtw_eq hi (hfault rfl) ht hc⟩
  | ftr a =>
    obtain ⟨i, hi⟩ := Option.isSome_iff_exists.mp hrange
    exact ⟨_, execFtr_eq hi s⟩
  | count =>
    obtain ⟨ht, hc⟩ := phaseTable_of_admission ha rfl
    exact ⟨_, execCount_eq (hfault rfl) ht hc⟩
  | build =>
    obtain ⟨ht, hc⟩ := phaseTable_of_admission ha rfl
    exact execBuild_next (hfault rfl) ht hc
  | ndr a b =>
    obtain ⟨hlt, hb⟩ := Bool.and_eq_true_iff.mp hrange
    obtain ⟨f, hf⟩ := Option.isSome_iff_exists.mp hb
    have hshape := (h.tree hphase).toTreeShape
    have hbelow : a.toNat < s.nodecnt.toNat := of_decide_eq_true hlt
    have hcount := hshape.nodecnt_eq
    have hleaves := hshape.leaves_le
    exact ⟨_, execNdr_eq hphase (by omega) hbelow hf⟩
  | free => exact ⟨_, execFree_eq (hfault rfl) hphase⟩
  | gen =>
    obtain ⟨ht, hc⟩ := Bool.and_eq_true_iff.mp hphase
    rw [Bool.not_eq_true'] at hc
    obtain ⟨t, hgen, -⟩ := genCompletesWithMapOfTree s (hfault rfl) ht hc (h.tree ht).toTreeShape
    exact ⟨t, hgen⟩
  | ctr a b =>
    obtain ⟨ha, hb⟩ := Bool.and_eq_true_iff.mp hrange
    obtain ⟨f, hf⟩ := Option.isSome_iff_exists.mp hb
    rw [symbolOperand_isSome] at ha
    exact ⟨_, execCtr_eq (of_decide_eq_true ha) hf hphase⟩
  | enc => exact ⟨_, execEnc_eq (hfault rfl) hphase⟩
  | dec =>
    have hshape := (h.tree hphase).toTreeShape
    obtain ⟨hroot, -⟩ := hshape.depthOk_root
    rw [execDec_eq (hfault rfl) hphase]
    exact TreeShape.decLoop_next (s := { s with bitcnt := 0, bytecnt := 0, cur := s.root })
      (hshape.congr rfl rfl rfl rfl) hroot _
  | csrr a =>
    obtain ⟨r, hr⟩ := Option.isSome_iff_exists.mp hrange
    exact ⟨_, execCsrr_eq hr s⟩

/-- In a state with the invariant every command answers a next state. -/
theorem Inv.exec_next (h : Inv s) (i : Instr) : ∃ t, Machine.exec i s = .next t := by
  cases ha : admission i s with
  | some r => exact ⟨_, exec_refusedWith ha⟩
  | none => exact h.exec_next_of_admitted ha

/-- The state a command is run in is the one in which the host has made its offer, so it keeps the invariant. -/
theorem hostMove_run_inv {i : Instr} {u : State} (h : Inv s) (hm : hostMove s = .run i u) : Inv u := by
  rcases hostMove_cases s with hn | ⟨_, -, hn⟩ | ⟨_, _, -, hn⟩ | ⟨_, _, _, _, _, hn⟩ | ⟨_, hn⟩ | ⟨_, hn⟩ |
    ⟨j, rest, -, hn⟩ <;> cases hn.symm.trans hm
  exact h.script rest

/-- Settles O59: an action of the host is over in a state, or runs a command where the invariant still holds. -/
theorem stepNeverStops : Obligations.StepNeverStops := by
  intro s h
  cases hm : hostMove s with
  | settled u => exact ⟨u, step_of_settled hm⟩
  | run i u =>
    rw [step_of_run hm]
    exact (hostMove_run_inv h hm).exec_next i

/-! ### `rst` -/

/-- `rst` happens in every state of the port (R280). -/
theorem hostMove_reset {rest : List HostAct} (hs : s.script = .reset :: rest) :
    hostMove s = .settled (pulseReset { s with script := rest }) := by
  simp only [hostMove, hs]

theorem sameHost_pulseReset (s : State) (rest : List HostAct) : SameHost s (pulseReset { s with script := rest }) := by
  constructor <;> rfl

/-- A pulse of `rst` marks the invocation as abandoned where the block is busy, if nothing has marked it before (R288). -/
theorem pulseReset_cause_eq (s : State) :
    (pulseReset s).cause = if s.port = .idle then s.cause else s.cause.or (some .abandoned) := by
  rw [pulseReset_cause, busyPin]
  cases s.port with
  | idle => exact Option.or_none
  | waiting | responding => rfl

/-- Settles O8: the step is `pulseReset`, which leaves the reset values and the host's side. -/
theorem resetPulse : Obligations.ResetPulse := fun s rest hs =>
  ⟨_, step_of_settled (hostMove_reset hs), atReset_pulseReset _, rfl, rfl, sameHost_pulseReset s rest,
    pulseReset_cause_eq _⟩

end Sys2Proof.Machine
end
